-- ==== Sys2Proof/Word.lean ====
section
/-! DEFINITION. The word types of the block (spec/00_scope.md R14) and the work-factor triple (R12). -/

namespace Sys2Proof

/-- R14: an unsigned 8-bit value. -/
abbrev Byte := BitVec 8

/-- R14: an unsigned 32-bit value; every register of the block is one (10_state R21). -/
abbrev Word := BitVec 32

/-- R14: a finite sequence of bytes indexed from 0. -/
abbrev Bytes := List Byte

/-- R14: a sequence of exactly 32 bytes. -/
abbrev Bytes32 := Vector Byte 32

/-- R202: a 16-byte block read as a big-endian 128-bit integer. -/
abbrev Block128 := BitVec 128

/-- R12, R34: the work factor, the triple (KDF_COST0, KDF_COST1, KDF_COST2). -/
structure Cost where
  c0 : Word
  c1 : Word
  c2 : Word
  deriving DecidableEq, Repr, Inhabited

end Sys2Proof
end

