-- ==== Sys2Proof/Syntax.lean ====
section
/-! DEFINITION. The commands of the block: one constructor per row of spec/opcode_table.json (30_encoding R93).
A command has no operand fields (R91), so no constructor has an argument. -/

namespace Sys2Proof

/-- R93: the eleven commands. -/
inductive Instr where
  | crcInit
  | crcUpdate
  | typeFromName
  | typeCheck
  | chunkBuild
  | chunkVerify
  | utf8Check
  | kdfDerive
  | aeadEncrypt
  | aeadDecrypt
  | zeroize
  deriving DecidableEq, Repr

end Sys2Proof
end

