-- ==== Sys2Proof/Decode.lean ====
section
/-! DEFINITION. The decoder of command words (30_encoding R90-R93, R96) and the encoder. -/

namespace Sys2Proof

/-- R96: the two ways a command word is illegal, each by name. Both complete with ILLEGAL_CMD (44_control R231). -/
inductive DecodeError where
  /-- w[31:8] is not zero: the MBZ field. -/
  | mbzNonzero (mbz : BitVec 24)
  /-- w[7:0] is in no row of R93. -/
  | unassignedOpc (opc : Byte)
  deriving DecidableEq, Repr

/-- R90: the OPC field, bits 7:0. -/
def opcField (w : Word) : Byte := w.extractLsb' 0 8

/-- R90: the MBZ field, bits 31:8. -/
def mbzField (w : Word) : BitVec 24 := w.extractLsb' 8 24

/-- R93: the operation code of each command. -/
def Instr.opc : Instr → Byte
  | .crcInit => 0x01
  | .crcUpdate => 0x02
  | .typeFromName => 0x10
  | .typeCheck => 0x11
  | .chunkBuild => 0x12
  | .chunkVerify => 0x13
  | .utf8Check => 0x14
  | .kdfDerive => 0x20
  | .aeadEncrypt => 0x21
  | .aeadDecrypt => 0x22
  | .zeroize => 0x30

/-- R93: the rows of the opcode map, in the table's order. -/
def Instr.all : List Instr :=
  [.crcInit, .crcUpdate, .typeFromName, .typeCheck, .chunkBuild, .chunkVerify, .utf8Check,
   .kdfDerive, .aeadEncrypt, .aeadDecrypt, .zeroize]

/-- R92: decoding, total on every 32-bit word, an illegal word rejected by name. -/
def decode (w : Word) : Except DecodeError Instr :=
  if mbzField w = 0 then
    match Instr.all.find? (fun i => i.opc == opcField w) with
    | some i => .ok i
    | none => .error (.unassignedOpc (opcField w))
  else .error (.mbzNonzero (mbzField w))

/-- R90, R93: the command word of each command: MBZ zero, then OPC. -/
def encode (i : Instr) : Word := 0#24 ++ i.opc

/-- The command my decoder reads from the bits `w`, numbered as spec/opcode_table.json numbers them. A command is one
32-bit number written to CMD (R90), so bit k of the table is bit k of the word; bits at and above `nbits` are 0. -/
def decodeTableWord (nbits w : Nat) : Option Instr :=
  (decode (BitVec.ofNat 32 (w % 2 ^ nbits))).toOption

end Sys2Proof
end

