-- ==== Sys2Proof/Machine/Bytes.lean ====
section
/-! DEFINITION. Byte-order conversions and byte-string helpers (00_scope R14, R15; 20_memory R62). -/

namespace Sys2Proof.Machine

/-- R15: BE32(v), most significant byte first. -/
def be32 (v : Word) : Bytes :=
  [v.extractLsb' 24 8, v.extractLsb' 16 8, v.extractLsb' 8 8, v.extractLsb' 0 8]

/-- R62: the word whose bytes, most significant first, are the four given. -/
def packWord (b0 b1 b2 b3 : Byte) : Word := b0 ++ b1 ++ b2 ++ b3

/-- R15: BE32^-1(b) of a 4-byte sequence. -/
def ofBe32 (b : Bytes) : Word := packWord (b.getD 0 0) (b.getD 1 0) (b.getD 2 0) (b.getD 3 0)

/-- R15: BE64(v), most significant byte first. -/
def be64 (v : BitVec 64) : Bytes :=
  (List.range 8).map fun j => v.extractLsb' (8 * (7 - j)) 8

/-- R14: b[i..j), the bytes i to j - 1. -/
def slice (b : Bytes) (i j : Nat) : Bytes := (b.drop i).take (j - i)

/-- R14: x ^ y on byte sequences, as far as the shorter one goes. -/
def xorBytes (x y : Bytes) : Bytes := List.zipWith (· ^^^ ·) x y

/-- R14: 0^n. -/
def zeros (n : Nat) : Bytes := List.replicate n 0

/-- R202: int(X), the 16-byte block X as a big-endian integer. -/
def toBlock (b : Bytes) : Block128 := b.foldl (fun acc x => (acc <<< 8) ||| x.setWidth 128) 0

/-- R202: the 16-byte block of a 128-bit integer, big-endian. -/
def ofBlock (x : Block128) : Bytes := (List.range 16).map fun j => x.extractLsb' (8 * (15 - j)) 8

/-- R62: word k of a byte-string register, from its bytes 4k .. 4k + 3. -/
def wordAt {n : Nat} (v : Vector Byte n) (k : Nat) : Word :=
  packWord (v[4 * k]?.getD 0) (v[4 * k + 1]?.getD 0) (v[4 * k + 2]?.getD 0) (v[4 * k + 3]?.getD 0)

/-- R62: the byte-string register after word k was written with `w`. -/
def setWordAt {n : Nat} (v : Vector Byte n) (k : Nat) (w : Word) : Vector Byte n :=
  (((v.setIfInBounds (4 * k) (w.extractLsb' 24 8)).setIfInBounds (4 * k + 1) (w.extractLsb' 16 8)).setIfInBounds
    (4 * k + 2) (w.extractLsb' 8 8)).setIfInBounds (4 * k + 3) (w.extractLsb' 0 8)

end Sys2Proof.Machine
end

