-- ==== Sys2Proof/Machine/Gcm.lean ====
section
/-! DEFINITION. GCM over AES-256 (43_aead R202-R207). The associated data is an argument here, as in the rules; the
block's commands give the empty one (R200). -/

namespace Sys2Proof.Machine

/-- R202: R = 0xE1 * 2^120. -/
def gcmR : Block128 := 0xE1#128 <<< 120

/-- R202: one step of the product, for GCM's bit `i`: the pair (Z, V) after it. -/
def gfStep (x : Block128) (zv : Block128 × Block128) (i : Nat) : Block128 × Block128 :=
  (if x.getLsbD (127 - i) then zv.1 ^^^ zv.2 else zv.1,
   if zv.2.getLsbD 0 then (zv.2 >>> 1) ^^^ gcmR else zv.2 >>> 1)

/-- R202: X • Y in GF(2^128). -/
def gfMul (x y : Block128) : Block128 := ((List.range 128).foldl (gfStep x) (0, y)).1

/-- R203: GHASH from the value `y` over the first `n` blocks of `b`. -/
def ghashFrom (h : Block128) : Nat → Block128 → Bytes → Block128
  | 0, y, _ => y
  | n + 1, y, b => ghashFrom h n (gfMul (y ^^^ toBlock (b.take 16)) h) (b.drop 16)

/-- R203: GHASH(H, S), the length of S a multiple of 16. -/
def ghash (h s : Bytes) : Bytes := ofBlock (ghashFrom (toBlock h) (s.length / 16) 0 s)

/-- R204: pad16(b). -/
def pad16 (b : Bytes) : Bytes := b ++ zeros ((16 - b.length % 16) % 16)

/-- R204: the authentication input of additional data `a` and ciphertext `c`. -/
def authInput (a c : Bytes) : Bytes :=
  pad16 a ++ pad16 c ++ (be64 (BitVec.ofNat 64 (8 * a.length)) ++ be64 (BitVec.ofNat 64 (8 * c.length)))

/-- R205: J0 of a 96-bit nonce. -/
def gcmJ0 (n : Bytes) : Bytes := n ++ [0x00, 0x00, 0x00, 0x01]

/-- R205: inc32(B), the low 32 bits counted modulo 2^32. -/
def inc32 (b : Bytes) : Bytes := slice b 0 12 ++ be32 (ofBe32 (slice b 12 16) + 1)

/-- R205: `n` blocks of counter mode; a short last block uses the leading bytes of the key stream. -/
def gctrFrom (k : Bytes) : Nat → Bytes → Bytes → Bytes
  | 0, _, _ => []
  | n + 1, cb, x => xorBytes (x.take 16) (aes256 k cb) ++ gctrFrom k n (inc32 cb) (x.drop 16)

/-- R205: GCTR(K, ICB, X). -/
def gctr (k icb x : Bytes) : Bytes := gctrFrom k ((x.length + 15) / 16) icb x

/-- R204, R206: the tag of ciphertext `c`. -/
def gcmTag (k n c a : Bytes) : Bytes :=
  gctr k (gcmJ0 n) (ghash (aes256 k (zeros 16)) (authInput a c))

/-- R206: GCM_AE(K, N, P, A), the pair (C, T). -/
def gcmAE (k n p a : Bytes) : Bytes × Bytes :=
  let c := gctr k (inc32 (gcmJ0 n)) p
  (c, gcmTag k n c a)

/-- R207: GCM_AD(K, N, C, A, T); `none` is FAIL. -/
def gcmAD (k n c a t : Bytes) : Option Bytes :=
  if gcmTag k n c a = t then some (gctr k (inc32 (gcmJ0 n)) c) else none

end Sys2Proof.Machine
end

