-- ==== Sys2Proof/Config.lean ====
section
/-! DEFINITION. The parameters of the model (00_scope R9-R12, 93_implementation_defined section 1) and its free values.
Every `opaque` here has no body: nothing can be proved of its value, so a theorem holds for every choice. -/

namespace Sys2Proof.Config

/-- R60: the size of the register window. -/
abbrev windowBytes : Nat := 0x40000

/-- R9: which multiple of the window size BASE is. OPEN. -/
opaque baseIndex : Nat

/-- R9: BASE, a multiple of 0x40000 chosen by the platform. -/
def base : Nat := windowBytes * baseIndex

/-- R10: the free choice behind BUF_BYTES. OPEN (log entry 5). -/
opaque bufChoice : Nat

/-- R10: BUF_BYTES, the capacity of DATA_IN: any multiple of 4 from 16 to 65536 (log entry 5). -/
def bufBytes : Nat := 4 * (bufChoice % 16381) + 16

/-- R10: OUT_BYTES is fixed at BUF_BYTES + 16. -/
def outBytes : Nat := bufBytes + 16

/-- R10: the free choice behind PW_BYTES. OPEN (log entry 5). -/
opaque pwChoice : Nat

/-- R10: PW_BYTES, the capacity of PW: any multiple of 4 from 4 to 256 (log entry 5). -/
def pwBytes : Nat := 4 * (pwChoice % 64) + 4

/-- R12, R180: KdfFn, a total function of password, salt and work factor; nothing else is assumed of it. -/
opaque kdfFn : Bytes → Bytes → Cost → Bytes32

/-- R12, R181: KDF_FIXED_SALT; its bytes and its length are open. -/
opaque kdfFixedSalt : Bytes

/-- R12, R34: KDF_COST_RESET, the reset value of the work-factor registers. -/
opaque kdfCostReset : Cost

/-- R12: which work factors other than KDF_COST_RESET are valid. OPEN (log entry 7). -/
opaque kdfParamsValidElsewhere : Cost → Bool

/-- R12, R182: KdfParamsValid. The only constraint is that it holds of KDF_COST_RESET, and every predicate with
that property is of this form (log entry 7). -/
def kdfParamsValid (c : Cost) : Bool :=
  decide (c = kdfCostReset) || kdfParamsValidElsewhere c

/-- R11, R212: the RNG draw numbered `n`: `none` is the outcome `fail`. A free value (log entry 8). -/
opaque rngDraw : Nat → Option (Vector Byte 12)

/-- R54: the value of a read of an output register or window while BUSY = 1. A free value (log entry 9). -/
opaque busyRead : Nat → Word

/-- R68: what a host program's variable holds after an RD that got an error response. A free value (log entry 10). -/
opaque erroredRead : Nat → Word

end Sys2Proof.Config
end

