-- ==== Sys2Proof/Machine/RegMap.lean ====
section
/-! DEFINITION. The register map (10_state R21), the address map of the window (20_memory R61, R69), the host accesses
(20_memory R65-R68) and the statements of host programs (30_encoding R102, R103), as data. -/

namespace Sys2Proof.Machine

/-- R21: the registers, the words of a multi-word register numbered from 0. -/
inductive Reg where
  | id | version | ctrl | cmd | status | result | dataLen | pwLen | outLen
  | typeCode | typeProps | crcAcc | crcValue
  | chunkLen | chunkType | chunkCrcStored | chunkCrcCalc | consumed
  | kdfCost (k : Fin 3)
  | cmdCount
  | nonceIn (k : Fin 3)
  | nonceOut (k : Fin 3)
  | saltIn (k : Fin 4)
  | keyIn (k : Fin 8)
  deriving DecidableEq, Repr

/-- R21: the offset of each register from BASE. -/
def Reg.offset : Reg → Nat
  | .id => 0x000
  | .version => 0x004
  | .ctrl => 0x008
  | .cmd => 0x00C
  | .status => 0x010
  | .result => 0x014
  | .dataLen => 0x018
  | .pwLen => 0x01C
  | .outLen => 0x020
  | .typeCode => 0x024
  | .typeProps => 0x028
  | .crcAcc => 0x02C
  | .crcValue => 0x030
  | .chunkLen => 0x034
  | .chunkType => 0x038
  | .chunkCrcStored => 0x03C
  | .chunkCrcCalc => 0x040
  | .consumed => 0x044
  | .kdfCost k => 0x048 + 4 * k.val
  | .cmdCount => 0x054
  | .nonceIn k => 0x060 + 4 * k.val
  | .nonceOut k => 0x070 + 4 * k.val
  | .saltIn k => 0x080 + 4 * k.val
  | .keyIn k => 0x0A0 + 4 * k.val

/-- R21: the control, status and data registers. -/
def Reg.plain : List Reg :=
  [.id, .version, .ctrl, .cmd, .status, .result, .dataLen, .pwLen, .outLen, .typeCode, .typeProps, .crcAcc, .crcValue,
   .chunkLen, .chunkType, .chunkCrcStored, .chunkCrcCalc, .consumed, .kdfCost 0, .kdfCost 1, .kdfCost 2, .cmdCount]

/-- R21: the words of the byte-string registers. -/
def Reg.byteStrings : List Reg :=
  [.nonceIn 0, .nonceIn 1, .nonceIn 2, .nonceOut 0, .nonceOut 1, .nonceOut 2, .saltIn 0, .saltIn 1, .saltIn 2, .saltIn 3,
   .keyIn 0, .keyIn 1, .keyIn 2, .keyIn 3, .keyIn 4, .keyIn 5, .keyIn 6, .keyIn 7]

/-- R21: every register of the map. -/
def Reg.all : List Reg := Reg.plain ++ Reg.byteStrings

/-- R21: the access types. `issue` is CMD ("RW (write issues)"), `w1c` is STATUS ("RO with W1C bits"). -/
inductive AccessType where
  | rw | ro | wo | issue | w1c
  deriving DecidableEq, Repr

/-- R21: the access type of each register. -/
def Reg.access : Reg → AccessType
  | .id | .version | .result | .outLen | .typeProps | .crcValue | .chunkLen | .chunkType | .chunkCrcStored
  | .chunkCrcCalc | .consumed | .cmdCount | .nonceOut _ => .ro
  | .ctrl | .dataLen | .pwLen | .typeCode | .crcAcc | .kdfCost _ | .nonceIn _ | .saltIn _ => .rw
  | .keyIn _ => .wo
  | .cmd => .issue
  | .status => .w1c

/-- R24: the constants of ID ("CACH") and VERSION (revision v7). -/
def idValue : Word := 0x43414348

/-- R24: VERSION. -/
def versionValue : Word := 0x00000007

/-- R61: what an aligned word of the window is: a register, or the word at a byte index of a buffer's window. -/
inductive Loc where
  | reg (r : Reg)
  | pw (i : Nat)
  | dataIn (i : Nat)
  | out (i : Nat)
  deriving DecidableEq, Repr

/-- R61: where the three windows begin. -/
def pwWindow : Nat := 0x00400

/-- R61: the start of the DATA_IN window. -/
def dataInWindow : Nat := 0x10000

/-- R61: the start of the OUT window. -/
def outWindow : Nat := 0x20000

/-- R61, R69: what stands at offset `a` of the window; `none` where the offset is unassigned. The answer is used for
multiples of 4 only (R65). -/
def locate (a : Nat) : Option Loc :=
  if outWindow ≤ a then
    if a - outWindow < Config.outBytes then some (.out (a - outWindow)) else none
  else if dataInWindow ≤ a then
    if a - dataInWindow < Config.bufBytes then some (.dataIn (a - dataInWindow)) else none
  else if pwWindow ≤ a then
    if a - pwWindow < Config.pwBytes then some (.pw (a - pwWindow)) else none
  else (Reg.all.find? (fun r => r.offset == a)).map .reg

/-- R102: off(target), the register's offset or the window base plus the byte offset. -/
def Loc.offset : Loc → Nat
  | .reg r => r.offset
  | .pw i => pwWindow + i
  | .dataIn i => dataInWindow + i
  | .out i => outWindow + i

/-- R65: the kinds of host access. A write carries the 32-bit value it would store (log entry 13). -/
inductive AccessKind where
  | read
  | write (v : Word)
  | fetch
  deriving DecidableEq, Repr

/-- R60, R65: a host access to the block. Its address is BASE + `offset`; the window is 2^18 bytes, so an 18-bit offset
names every address of it (log entry 4). `width` is in bytes. -/
structure Access where
  kind : AccessKind
  offset : BitVec 18
  width : Nat
  deriving DecidableEq, Repr

/-- R60: the host physical address of an access. -/
def Access.address (a : Access) : Nat := Config.base + a.offset.toNat

/-- R102: the value a WR statement writes: an immediate, or the value a previous RD left in a variable. Variables are
named by numbers (log entry 14). -/
inductive Operand where
  | imm (v : Word)
  | var (x : Nat)
  deriving DecidableEq, Repr

/-- R102, R103: the statements of a host program: WR, RD, POLL; EXPECT, a read with an assertion; and `access`, a host
access outside the notation, such as one the block does not serve (log entry 2). -/
inductive Stmt where
  | wr (target : Loc) (v : Operand)
  | rd (target : Loc) (x : Nat)
  | poll (target : Loc) (mask value : Word)
  | expect (target : Loc) (value : Word)
  | access (a : Access)
  deriving DecidableEq, Repr

/-- Who moves next (R8, R72, R249, R280): an agent, or the platform's reset input (log entries 1 and 12). -/
inductive Turn where
  | host
  | engine
  | assertReset
  | releaseReset
  deriving DecidableEq, Repr

end Sys2Proof.Machine
end

