-- ==== Sys2Proof/Machine/State.lean ====
section
/-! DEFINITION. The state of the block (10_state R20), of the HOST that drives it (00_scope R8), the reasons to stop, and
the state after reset (70_reset R281). -/

namespace Sys2Proof.Machine

/-- A byte buffer: the bytes that are not 0, by rising index. An unlisted byte reads 0, the reset contents of every
buffer (70_reset R281; log entry 11). The form is `Memory.wf` (Machine/Ops.lean). -/
abbrev Memory := List Host.Cell

/-- Why a host access stops. -/
inductive Fault where
  /-- Raised by a host access the block does not serve (20_memory R65, R69; 70_reset R280): the bus error of R68 at
  BASE + offset. Safe: the spec states it. It ends the access and changes no state; it stops no agent (R240), so `step`
  records it in `response` and goes on (log entry 3). -/
  | busError (offset : BitVec 18)
  deriving DecidableEq, Repr

/-- Why a step gives no meaning. -/
inductive Refusal where
  /-- Raised by an arm of `exec` whose command has no meaning yet. Safe. No arm raises it. -/
  | notModelled (mnemonic : String)
  /-- Raised by the HOST's turn at a WR of a variable no RD has written, which 30_encoding R102 says is not a program.
  Safe: `programWellFormed` excludes it. No command raises it. -/
  | unwrittenVariable (x : Nat)
  deriving DecidableEq, Repr

/-- The answer to a host access (20_memory R66-R68). -/
inductive Response where
  /-- A read returned this word. -/
  | data (w : Word)
  /-- A write was answered without error (log entry 13). -/
  | accepted
  /-- The error response: the fault of this access. -/
  | error (f : Fault)
  deriving DecidableEq, Repr

/-- The machine. The first part is the block's architectural state (10_state R20, R21); then the reset input, the HOST
and the model's own bookkeeping. -/
structure State where
  /-- CTRL (R22). -/
  ctrl : Word
  /-- CMD (R23): the last accepted command word. -/
  cmd : Word
  /-- STATUS.BUSY (R25). -/
  busy : Bool
  /-- STATUS.DONE (R25). -/
  done : Bool
  /-- STATUS.ERR (R25). -/
  err : Bool
  /-- STATUS.FATAL (R25, R244). -/
  fatal : Bool
  /-- STATUS.WBUSY (R25, R243). -/
  wbusy : Bool
  /-- RESULT (R26). -/
  result : Word
  /-- DATA_LEN (R27). -/
  dataLen : Word
  /-- PW_LEN (R27). -/
  pwLen : Word
  /-- OUT_LEN (R28). -/
  outLen : Word
  /-- TYPE (R29). -/
  typeCode : Word
  /-- TYPE_PROPS (R30). -/
  typeProps : Word
  /-- CRC_ACC (R31). -/
  crcAcc : Word
  /-- CHUNK_LEN (R33). -/
  chunkLen : Word
  /-- CHUNK_TYPE (R33). -/
  chunkType : Word
  /-- CHUNK_CRC_STORED (R33). -/
  chunkCrcStored : Word
  /-- CHUNK_CRC_CALC (R33). -/
  chunkCrcCalc : Word
  /-- CONSUMED (R33). -/
  consumed : Word
  /-- KDF_COST0..2 (R34). -/
  kdfCost : Cost
  /-- CMD_COUNT (R35). -/
  cmdCount : Word
  /-- NONCE_IN (R36). -/
  nonceIn : Vector Byte 12
  /-- NONCE_OUT (R37). -/
  nonceOut : Vector Byte 12
  /-- SALT_IN (R38). -/
  saltIn : Vector Byte 16
  /-- KEY_IN (R39). -/
  keyIn : Bytes32
  /-- KEY_INT (R43), hidden. -/
  keyInt : Bytes32
  /-- DATA_IN (R40). -/
  dataIn : Memory
  /-- PW (R41). -/
  pw : Memory
  /-- OUT (R42). -/
  out : Memory
  /-- The level of the reset input (R280). -/
  resetAsserted : Bool
  /-- The model's own: how many free values have been taken (log entry 8). -/
  draws : Nat
  /-- The model's own: who moves next, oldest first (log entry 1). -/
  turns : List Turn
  /-- The HOST's: what is left of its program (log entry 2). -/
  program : List Stmt
  /-- The HOST's: its program's variables, by rising number (log entry 14). -/
  vars : List (Nat × Word)
  /-- The HOST's: the answer to its last access (log entry 3). -/
  response : Option Response
  /-- The HOST's: whether an EXPECT has failed (log entry 2). -/
  expectFailed : Bool
  deriving DecidableEq, Repr

/-- R281: the state after reset, the block idle, with a HOST that has not begun (log entries 1, 2, 3, 8). -/
def State.reset : State where
  ctrl := 0
  cmd := 0
  busy := false
  done := false
  err := false
  fatal := false
  wbusy := false
  result := 0
  dataLen := 0
  pwLen := 0
  outLen := 0
  typeCode := 0
  typeProps := 0
  crcAcc := 0xFFFFFFFF
  chunkLen := 0
  chunkType := 0
  chunkCrcStored := 0
  chunkCrcCalc := 0
  consumed := 0
  kdfCost := Config.kdfCostReset
  cmdCount := 0
  nonceIn := Vector.replicate 12 0
  nonceOut := Vector.replicate 12 0
  saltIn := Vector.replicate 16 0
  keyIn := Vector.replicate 32 0
  keyInt := Vector.replicate 32 0
  dataIn := []
  pw := []
  out := []
  resetAsserted := false
  draws := 0
  turns := []
  program := []
  vars := []
  response := none
  expectFailed := false

end Sys2Proof.Machine
end

