-- ==== Sys2Proof/Machine/Ops.lean ====
section
/-! DEFINITION. The shared operations: buffers as memory, the primitive `OUT <- b` (00_scope R16), command acceptance,
completion and the FATAL state. An error's "entry" is completion (60_exceptions R250): `finish` and `fatalEnd` are the
one operation every error goes through, and `statusWrite` and `accept` are the return from one (R252). -/

namespace Sys2Proof.Machine

/-! ## Buffers -/

/-- The byte at index `a`; an unlisted byte is 0. -/
def Memory.read : Memory → Nat → Byte
  | [], _ => 0
  | (k, c) :: m, a => if k = a then c else Memory.read m a

/-- The buffer after byte `a` was written with `b`; writing 0 removes the entry, so the form stays canonical. -/
def Memory.write : Memory → Nat → Byte → Memory
  | [], a, b => if b = 0 then [] else [(a, b)]
  | (k, c) :: m, a, b =>
    if a < k then (if b = 0 then (k, c) :: m else (a, b) :: (k, c) :: m)
    else if a = k then (if b = 0 then m else (a, b) :: m)
    else (k, c) :: Memory.write m a b

/-- The canonical form from index `lo` on: indexes strictly rising, no byte 0. -/
def Memory.wfFrom (lo : Nat) : Memory → Bool
  | [] => true
  | (k, c) :: m => decide (lo ≤ k) && decide (c ≠ 0) && Memory.wfFrom (k + 1) m

/-- The canonical form of a buffer. -/
def Memory.wf (m : Memory) : Bool := Memory.wfFrom 0 m

/-- Every listed byte is below index `n`. -/
def Memory.below (n : Nat) (m : Memory) : Bool := m.all fun c => decide (c.1 < n)

/-- The bytes 0 .. n - 1 of a buffer. -/
def Memory.bytes (m : Memory) (n : Nat) : Bytes := (List.range n).map (Memory.read m)

/-- The buffer that holds `b` from index `i` on and 0 elsewhere. -/
def Memory.ofBytesFrom : Nat → Bytes → Memory
  | _, [] => []
  | i, b :: bs => if b = 0 then Memory.ofBytesFrom (i + 1) bs else (i, b) :: Memory.ofBytesFrom (i + 1) bs

/-- The buffer that holds `b` from index 0 on and 0 elsewhere. -/
def Memory.ofBytes (b : Bytes) : Memory := Memory.ofBytesFrom 0 b

/-- 20_memory R62: the word at byte index `i` of a buffer, its first byte most significant. -/
def Memory.readWord (m : Memory) (i : Nat) : Word :=
  packWord (m.read i) (m.read (i + 1)) (m.read (i + 2)) (m.read (i + 3))

/-- 20_memory R62: the buffer after the word at byte index `i` was written. -/
def Memory.writeWord (m : Memory) (i : Nat) (w : Word) : Memory :=
  (((m.write i (w.extractLsb' 24 8)).write (i + 1) (w.extractLsb' 16 8)).write (i + 2) (w.extractLsb' 8 8)).write
    (i + 3) (w.extractLsb' 0 8)

/-! ## The primitives of the ENGINE -/

/-- 00_scope R16: `OUT <- b`: the bytes of `b`, every other OUT byte 0, and OUT_LEN the length of `b`. -/
def writeOut (b : Bytes) (s : State) : State :=
  { s with out := Memory.ofBytes b, outLen := BitVec.ofNat 32 b.length }

/-- 00_scope R16: `clearOUT` is `OUT <- []`. -/
def clearOut (s : State) : State := writeOut [] s

/-- 30_encoding R100: the result codes. -/
inductive ResultCode where
  | ok | badType | truncated | crcMismatch | authFail | invalidEncoding | lenErr | nameLen | rngFail | illegalCmd | fatal
  deriving DecidableEq, Repr

/-- 30_encoding R100: the value of each result code. -/
def ResultCode.code : ResultCode → Byte
  | .ok => 0x00
  | .badType => 0x01
  | .truncated => 0x02
  | .crcMismatch => 0x03
  | .authFail => 0x04
  | .invalidEncoding => 0x05
  | .lenErr => 0x06
  | .nameLen => 0x07
  | .rngFail => 0x08
  | .illegalCmd => 0x0E
  | .fatal => 0xFF

/-- 10_state R51: completion with code `c`, the last part of every ENGINE step. -/
def finish (c : ResultCode) (s : State) : State :=
  { s with
    result := c.code.setWidth 32
    err := decide (c ≠ .ok)
    busy := false
    done := true
    cmdCount := s.cmdCount + 1
    keyInt := Vector.replicate 32 0 }

/-- 44_control R229: `zeroize_all()`. -/
def zeroizeAll (s : State) : State :=
  clearOut
    { s with
      dataIn := []
      pw := []
      pwLen := 0
      keyIn := Vector.replicate 32 0
      saltIn := Vector.replicate 16 0
      keyInt := Vector.replicate 32 0 }

/-- 60_exceptions R244: `fatal()`: zeroize, set STATUS.FATAL, complete with FATAL. -/
def fatalEnd (s : State) : State := finish .fatal { zeroizeAll s with fatal := true }

/-! ## The lifecycle around the ENGINE step -/

/-- 10_state R52: a command word is accepted; it is not decoded. -/
def accept (w : Word) (s : State) : State := { s with cmd := w, busy := true, done := false, err := false }

/-- 10_state R25: a host write `v` to STATUS while idle clears DONE and WBUSY where `v` has a 1. -/
def statusWrite (v : Word) (s : State) : State :=
  { s with done := s.done && !v.getLsbD 1, wbusy := s.wbusy && !v.getLsbD 4 }

/-- 70_reset R281, R282: the state while reset is asserted. A command in progress is abandoned. What is not the block's
stays: the HOST, the order of the agents, and the counter of free values (log entry 12). -/
def assertReset (s : State) : State :=
  { State.reset with
    resetAsserted := true
    draws := s.draws
    turns := s.turns
    program := s.program
    vars := s.vars
    response := s.response
    expectFailed := s.expectFailed }

/-- 70_reset R280: reset is released; the block is then in the state of R281. -/
def releaseReset (s : State) : State := { s with resetAsserted := false }

end Sys2Proof.Machine
end

