-- ==== Sys2Proof/Machine/Flags.lean ====
section
/-! DEFINITION. The fields of CTRL (10_state R22), the word of STATUS (R25), the IRQ output (R46), and the property bits
of a chunk type (40_chunk_type R120). -/

namespace Sys2Proof.Machine

/-- R22: CTRL.NONCE_SRC, 1 selects NONCE_IN. -/
def State.nonceSrc (s : State) : Bool := s.ctrl.getLsbD 0

/-- R22: CTRL.SALT_SRC, 1 selects SALT_IN. -/
def State.saltSrc (s : State) : Bool := s.ctrl.getLsbD 1

/-- R22: CTRL.KEY_SRC, 1 selects KEY_IN. -/
def State.keySrc (s : State) : Bool := s.ctrl.getLsbD 2

/-- R22: CTRL.IRQ_EN. -/
def State.irqEn (s : State) : Bool := s.ctrl.getLsbD 3

/-- R22, R67: the value CTRL stores when `v` is written: bits 31:4 are reserved. -/
def ctrlStored (v : Word) : Word := v &&& 0xF

/-- R46, R246: the IRQ output, a level. -/
def State.irq (s : State) : Bool := s.done && s.irqEn

/-- R25: STATUS as software reads it; IRQ is bit 5, reserved bits read 0. -/
def State.statusWord (s : State) : Word :=
  0#26 ++ BitVec.ofBool s.irq ++ BitVec.ofBool s.wbusy ++ BitVec.ofBool s.fatal ++ BitVec.ofBool s.err ++
    BitVec.ofBool s.done ++ BitVec.ofBool s.busy

/-- 00_scope R18: alpha(c), the ASCII letters. -/
def isAlpha (c : Byte) : Bool :=
  (decide (0x41#8 ≤ c) && decide (c ≤ 0x5A#8)) || (decide (0x61#8 ≤ c) && decide (c ≤ 0x7A#8))

/-- R120: ALPHA, the first four bytes are letters. -/
def allAlpha (t : Bytes) : Bool :=
  isAlpha (t.getD 0 0) && isAlpha (t.getD 1 0) && isAlpha (t.getD 2 0) && isAlpha (t.getD 3 0)

/-- R120: props(t), the TYPE_PROPS value of a 4-byte type: ALPHA, CRITICAL, PUBLIC, RSV_OK, SAFE_COPY, VALID from bit 0 up. -/
def props (t : Bytes) : Word :=
  let alpha := allAlpha t
  let critical := !(t.getD 0 0).getLsbD 5
  let isPublic := !(t.getD 1 0).getLsbD 5
  let rsvOk := !(t.getD 2 0).getLsbD 5
  let safeCopy := (t.getD 3 0).getLsbD 5
  let valid := rsvOk && alpha
  0#26 ++ BitVec.ofBool valid ++ BitVec.ofBool safeCopy ++ BitVec.ofBool rsvOk ++ BitVec.ofBool isPublic ++
    BitVec.ofBool critical ++ BitVec.ofBool alpha

end Sys2Proof.Machine
end

