-- ==== Sys2Proof/Machine/Operands.lean ====
section
/-! DEFINITION. The operands of the commands (30_encoding R94, 20_memory R80): the input, the password, the salt, the
work factor, the key and the nonce, and the length checks that come before any of them is read (60_exceptions R248). -/

namespace Sys2Proof.Machine

/-- R27, R248: DATA_LEN > BUF_BYTES. -/
def State.dataTooLong (s : State) : Bool := decide (Config.bufBytes < s.dataLen.toNat)

/-- R27, R248: PW_LEN > PW_BYTES. -/
def State.pwTooLong (s : State) : Bool := decide (Config.pwBytes < s.pwLen.toNat)

/-- R80: in = DATA_IN[0..DATA_LEN), read only after the length check. -/
def State.input (s : State) : Bytes := s.dataIn.bytes s.dataLen.toNat

/-- R80, R183: pw = PW[0..PW_LEN), read only after the length check. -/
def State.password (s : State) : Bytes := s.pw.bytes s.pwLen.toNat

/-- 42_kdf R181: the salt that CTRL.SALT_SRC selects. -/
def State.salt (s : State) : Bytes := if s.saltSrc then s.saltIn.toList else Config.kdfFixedSalt

/-- 42_kdf R184: `kdf_key()`; `none` is its `fatal()` at a malformed work factor (R182). -/
def kdfKey (s : State) : Option Bytes32 :=
  if Config.kdfParamsValid s.kdfCost then some (Config.kdfFn s.password s.salt s.kdfCost) else none

/-- 43_aead R208: the key that CTRL.KEY_SRC selects; `none` is the `fatal()` of kdf_key(). -/
def selectKey (s : State) : Option Bytes32 := if s.keySrc then some s.keyIn else kdfKey s

/-- 43_aead R208, R248: the length check of the AEAD commands, PW_LEN only where the password is used. -/
def State.aeadTooLong (s : State) : Bool := s.dataTooLong || (!s.keySrc && s.pwTooLong)

/-- 43_aead R209: the nonce of AEAD_ENCRYPT, with the state after an RNG draw if there was one; `none` is a failed draw. -/
def selectNonce (s : State) : Option (Vector Byte 12) × State :=
  if s.nonceSrc then (some s.nonceIn, s) else (Config.rngDraw s.draws, { s with draws := s.draws + 1 })

end Sys2Proof.Machine
end

