-- ==== Sys2Proof/Machine/Utf8.lean ====
section
/-! DEFINITION. UTF-8 validity (41_crc_frame R160) and UTF8_CHECK (R161). -/

namespace Sys2Proof.Machine

/-- R160: the forms of a well-formed UTF-8 sequence, row by row; each byte has a lowest and a highest value. -/
def utf8Forms : List (List (Byte × Byte)) :=
  [ [(0x00, 0x7F)],
    [(0xC2, 0xDF), (0x80, 0xBF)],
    [(0xE0, 0xE0), (0xA0, 0xBF), (0x80, 0xBF)],
    [(0xE1, 0xEC), (0x80, 0xBF), (0x80, 0xBF)],
    [(0xED, 0xED), (0x80, 0x9F), (0x80, 0xBF)],
    [(0xEE, 0xEF), (0x80, 0xBF), (0x80, 0xBF)],
    [(0xF0, 0xF0), (0x90, 0xBF), (0x80, 0xBF), (0x80, 0xBF)],
    [(0xF1, 0xF3), (0x80, 0xBF), (0x80, 0xBF), (0x80, 0xBF)],
    [(0xF4, 0xF4), (0x80, 0x8F), (0x80, 0xBF), (0x80, 0xBF)] ]

/-- R160: the sequence begins with bytes of the form `f`. -/
def hasForm : List (Byte × Byte) → Bytes → Bool
  | [], _ => true
  | (_, _) :: _, [] => false
  | (lo, hi) :: f, b :: bs => decide (lo ≤ b) && decide (b ≤ hi) && hasForm f bs

/-- R160: `utf8Valid` with a bound on the number of sequences. -/
def utf8ValidUpTo : Nat → Bytes → Bool
  | _, [] => true
  | 0, _ :: _ => false
  | n + 1, b :: bs =>
    match utf8Forms.find? (fun f => hasForm f (b :: bs)) with
    | some f => utf8ValidUpTo n ((b :: bs).drop f.length)
    | none => false

/-- R160: Utf8Valid(b). A sequence has at least one byte, so `b` holds at most as many sequences as bytes. -/
def utf8Valid (b : Bytes) : Bool := utf8ValidUpTo b.length b

/-- R161: UTF8_CHECK. -/
def execUtf8Check (s : State) : Host.Outcome State Fault Refusal :=
  .next <|
    if s.dataTooLong then finish .lenErr s
    else if utf8Valid s.input then finish .ok s
    else finish .invalidEncoding s

end Sys2Proof.Machine
end

