-- ==== Sys2Proof/Machine/Aead.lean ====
section
/-! DEFINITION. AEAD_ENCRYPT (43_aead R210) and AEAD_DECRYPT (R211). -/

namespace Sys2Proof.Machine

/-- R200, R211: the tag is 16 bytes. -/
def tagBytes : Nat := 16

/-- R210: AEAD_ENCRYPT. -/
def execAeadEncrypt (s : State) : Host.Outcome State Fault Refusal :=
  .next <|
    if s.aeadTooLong then finish .lenErr s
    else
      match selectKey s with
      | none => fatalEnd (clearOut s)
      | some k =>
        match selectNonce { clearOut s with keyInt := k } with
        | (none, s') => finish .rngFail s'
        | (some n, s') =>
          let ct := gcmAE k.toList n.toList s.input []
          finish .ok { writeOut (ct.1 ++ ct.2) s' with nonceOut := n }

/-- R211: AEAD_DECRYPT. No plaintext is released unless the tag and the encoding hold. -/
def execAeadDecrypt (s : State) : Host.Outcome State Fault Refusal :=
  .next <|
    if s.aeadTooLong then finish .lenErr s
    else
      match selectKey s with
      | none => fatalEnd (clearOut s)
      | some k =>
        let s' : State := { clearOut s with keyInt := k }
        let n := s.dataLen.toNat
        if n < tagBytes then finish .authFail s'
        else
          match gcmAD k.toList s.nonceIn.toList (slice s.input 0 (n - tagBytes)) [] (slice s.input (n - tagBytes) n) with
          | none => finish .authFail s'
          | some p => if utf8Valid p then finish .ok (writeOut p s') else finish .invalidEncoding s'

end Sys2Proof.Machine
end

