-- ==== Sys2Proof/Machine/ChunkType.lean ====
section
/-! DEFINITION. The chunk type code commands (40_chunk_type R121, R122). -/

namespace Sys2Proof.Machine

/-- R121: TYPE_FROM_NAME. -/
def execTypeFromName (s : State) : Host.Outcome State Fault Refusal :=
  .next <|
    if s.dataTooLong then finish .lenErr s
    else if s.dataLen ≠ 4 then finish .nameLen s
    else
      let t := s.dataIn.bytes 4
      if allAlpha t then finish .ok { s with typeCode := ofBe32 t, typeProps := props t } else finish .badType s

/-- R122: TYPE_CHECK. TYPE_PROPS is written on BAD_TYPE too. -/
def execTypeCheck (s : State) : Host.Outcome State Fault Refusal :=
  .next <|
    let t := be32 s.typeCode
    finish (if allAlpha t then .ok else .badType) { s with typeProps := props t }

end Sys2Proof.Machine
end

