-- ==== Sys2Proof/Machine/Control.lean ====
section
/-! DEFINITION. ZEROIZE (44_control R230). -/

namespace Sys2Proof.Machine

/-- R230: ZEROIZE. -/
def execZeroize (s : State) : Host.Outcome State Fault Refusal := .next (finish .ok (zeroizeAll s))

end Sys2Proof.Machine
end

