-- ==== Sys2Proof/Machine/Crc.lean ====
section
/-! DEFINITION. The CRC-32/ISO-HDLC engine (41_crc_frame R140-R142) and CRC_INIT, CRC_UPDATE (R144, R145). -/

namespace Sys2Proof.Machine

/-- R141: one bit of the byte step. -/
def crcShift (acc : Word) : Word :=
  if acc.getLsbD 0 then (acc >>> 1) ^^^ 0xEDB88320 else acc >>> 1

/-- R141: crc_step(acc, b), the byte step of the reflected CRC register. -/
def crcStep (acc : Word) (b : Byte) : Word := Nat.repeat crcShift 8 (acc ^^^ b.setWidth 32)

/-- R141: crc_fold(acc, b). -/
def crcFold (acc : Word) (b : Bytes) : Word := b.foldl crcStep acc

/-- R142: CRC32(b). -/
def crc32 (b : Bytes) : Word := ~~~(crcFold 0xFFFFFFFF b)

/-- R144: CRC_INIT. -/
def execCrcInit (s : State) : Host.Outcome State Fault Refusal :=
  .next (finish .ok { s with crcAcc := 0xFFFFFFFF })

/-- R145: CRC_UPDATE. -/
def execCrcUpdate (s : State) : Host.Outcome State Fault Refusal :=
  .next (if s.dataTooLong then finish .lenErr s else finish .ok { s with crcAcc := crcFold s.crcAcc s.input })

end Sys2Proof.Machine
end

