-- ==== Sys2Proof/Machine/Frame.lean ====
section
/-! DEFINITION. Chunk frames (41_crc_frame R146) and CHUNK_BUILD, CHUNK_VERIFY (R147, R148). -/

namespace Sys2Proof.Machine

/-- R146: frame(t, d). -/
def frame (t d : Bytes) : Bytes :=
  be32 (BitVec.ofNat 32 d.length) ++ t ++ d ++ be32 (crc32 (t ++ d))

/-- R147: CHUNK_BUILD. -/
def execChunkBuild (s : State) : Host.Outcome State Fault Refusal :=
  .next <|
    if s.dataTooLong then finish .lenErr s
    else
      let t := be32 s.typeCode
      if allAlpha t then
        let c := crc32 (t ++ s.input)
        finish .ok
          { writeOut (frame t s.input) s with
            chunkLen := s.dataLen
            chunkType := s.typeCode
            chunkCrcStored := c
            chunkCrcCalc := c }
      else finish .badType (clearOut s)

/-- R148: the frame registers as CHUNK_VERIFY sets them before it knows whether the frame is whole. -/
def verifyHeader (s : State) : State :=
  { clearOut s with
    chunkLen := if 4 ≤ s.dataLen.toNat then ofBe32 (slice s.input 0 4) else 0
    chunkType := if 8 ≤ s.dataLen.toNat then ofBe32 (slice s.input 4 8) else 0
    chunkCrcStored := 0
    chunkCrcCalc := 0
    consumed := 0 }

/-- R148: CHUNK_VERIFY. The sum 12 + L is exact; the CRC is checked before the type (90_conflicts C3). -/
def execChunkVerify (s : State) : Host.Outcome State Fault Refusal :=
  .next <|
    if s.dataTooLong then finish .lenErr s
    else
      let len := (ofBe32 (slice s.input 0 4)).toNat
      if s.dataLen.toNat < 12 ∨ s.dataLen.toNat < 12 + len then finish .truncated (verifyHeader s)
      else
        let t := slice s.input 4 8
        let d := slice s.input 8 (8 + len)
        let stored := ofBe32 (slice s.input (8 + len) (12 + len))
        let c := crc32 (t ++ d)
        let s' : State :=
          { verifyHeader s with
            chunkCrcStored := stored
            chunkCrcCalc := c
            consumed := BitVec.ofNat 32 (12 + len)
            typeProps := props t }
        if stored ≠ c then finish .crcMismatch s'
        else if allAlpha t then finish .ok (writeOut d s')
        else finish .badType s'

end Sys2Proof.Machine
end

