-- ==== Sys2Proof/Machine/Kdf.lean ====
section
/-! DEFINITION. KDF_DERIVE (42_kdf R185). -/

namespace Sys2Proof.Machine

/-- R185: KDF_DERIVE. -/
def execKdfDerive (s : State) : Host.Outcome State Fault Refusal :=
  .next <|
    if s.pwTooLong then finish .lenErr s
    else
      match kdfKey s with
      | none => fatalEnd (clearOut s)
      | some k => finish .ok (writeOut k.toList s)

end Sys2Proof.Machine
end

