-- ==== Sys2Proof/Machine/Dispatch.lean ====
section
/-! DEFINITION. One arm per command: the command's rule, run by the ENGINE step once R92 has let it (Machine/Engine.lean). -/

namespace Sys2Proof.Machine

def exec (i : Instr) (s : State) : Host.Outcome State Fault Refusal :=
  match i with
  | .crcInit => Sys2Proof.Machine.execCrcInit s
  | .crcUpdate => Sys2Proof.Machine.execCrcUpdate s
  | .typeFromName => Sys2Proof.Machine.execTypeFromName s
  | .typeCheck => Sys2Proof.Machine.execTypeCheck s
  | .chunkBuild => Sys2Proof.Machine.execChunkBuild s
  | .chunkVerify => Sys2Proof.Machine.execChunkVerify s
  | .utf8Check => Sys2Proof.Machine.execUtf8Check s
  | .kdfDerive => Sys2Proof.Machine.execKdfDerive s
  | .aeadEncrypt => Sys2Proof.Machine.execAeadEncrypt s
  | .aeadDecrypt => Sys2Proof.Machine.execAeadDecrypt s
  | .zeroize => Sys2Proof.Machine.execZeroize s

end Sys2Proof.Machine
end

