-- ==== Sys2Proof/Machine/Engine.lean ====
section
/-! DEFINITION. The ENGINE step (10_state R50): the prelude of 30_encoding R92, then the command's rule. -/

namespace Sys2Proof.Machine

/-- R92: FATAL first (60_exceptions R245), then the decoder; an illegal word is ILLEGAL_CMD (44_control R231). -/
def engineStep (s : State) : Host.Outcome State Fault Refusal :=
  if s.fatal then .next (finish .fatal s)
  else
    match decode s.cmd with
    | .ok i => exec i s
    | .error _ => .next (finish .illegalCmd s)

/-- R50: the ENGINE has a step exactly when STATUS.BUSY = 1; its turn passes without effect when idle. -/
def engineTurn (s : State) : Host.Outcome State Fault Refusal :=
  if s.busy then engineStep s else .next s

end Sys2Proof.Machine
end

