-- ==== Sys2Proof/Machine/Bus.lean ====
section
/-! DEFINITION. Host accesses (20_memory R65-R69): reads, writes, the drop while busy (10_state R53), the drawn reads
(R54) and the bus error (R68). -/

namespace Sys2Proof.Machine

/-- R21, R66: the value a register reads as while idle; write-only registers read 0. -/
def readReg (s : State) : Reg → Word
  | .id => idValue
  | .version => versionValue
  | .ctrl => s.ctrl
  | .cmd => s.cmd
  | .status => s.statusWord
  | .result => s.result
  | .dataLen => s.dataLen
  | .pwLen => s.pwLen
  | .outLen => s.outLen
  | .typeCode => s.typeCode
  | .typeProps => s.typeProps
  | .crcAcc => s.crcAcc
  | .crcValue => ~~~s.crcAcc
  | .chunkLen => s.chunkLen
  | .chunkType => s.chunkType
  | .chunkCrcStored => s.chunkCrcStored
  | .chunkCrcCalc => s.chunkCrcCalc
  | .consumed => s.consumed
  | .kdfCost 0 => s.kdfCost.c0
  | .kdfCost 1 => s.kdfCost.c1
  | .kdfCost 2 => s.kdfCost.c2
  | .cmdCount => s.cmdCount
  | .nonceIn k => wordAt s.nonceIn k.val
  | .nonceOut k => wordAt s.nonceOut k.val
  | .saltIn k => wordAt s.saltIn k.val
  | .keyIn _ => 0

/-- R61, R66: the value a word of the window reads as while idle; the PW window is write-only. -/
def readLoc (s : State) : Loc → Word
  | .reg r => readReg s r
  | .pw _ => 0
  | .dataIn i => s.dataIn.readWord i
  | .out i => s.out.readWord i

/-- R54: the registers whose value a read returns even while busy. -/
def Loc.exactWhileBusy : Loc → Bool
  | .reg .id | .reg .version | .reg .ctrl | .reg .cmd | .reg .status | .reg .cmdCount => true
  | _ => false

/-- R67: a write of `v` to a register while idle: RW and WO store, RO ignore, STATUS is W1C, CMD issues. -/
def writeReg (v : Word) (s : State) : Reg → State
  | .ctrl => { s with ctrl := ctrlStored v }
  | .cmd => accept v s
  | .status => statusWrite v s
  | .dataLen => { s with dataLen := v }
  | .pwLen => { s with pwLen := v }
  | .typeCode => { s with typeCode := v }
  | .crcAcc => { s with crcAcc := v }
  | .kdfCost 0 => { s with kdfCost := { s.kdfCost with c0 := v } }
  | .kdfCost 1 => { s with kdfCost := { s.kdfCost with c1 := v } }
  | .kdfCost 2 => { s with kdfCost := { s.kdfCost with c2 := v } }
  | .nonceIn k => { s with nonceIn := setWordAt s.nonceIn k.val v }
  | .saltIn k => { s with saltIn := setWordAt s.saltIn k.val v }
  | .keyIn k => { s with keyIn := setWordAt s.keyIn k.val v }
  | .id | .version | .result | .outLen | .typeProps | .crcValue | .chunkLen | .chunkType | .chunkCrcStored
  | .chunkCrcCalc | .consumed | .cmdCount | .nonceOut _ => s

/-- R67: a write of `v` to a word of the window while idle; the OUT window ignores it. -/
def writeLoc (v : Word) (s : State) : Loc → State
  | .reg r => writeReg v s r
  | .pw i => { s with pw := s.pw.writeWord i v }
  | .dataIn i => { s with dataIn := s.dataIn.writeWord i v }
  | .out _ => s

/-- R65, R69, R280: what the block serves at an offset: nothing while reset is asserted, nothing misaligned, nothing
unassigned. -/
def servedAt (offset : BitVec 18) (s : State) : Option Loc :=
  if s.resetAsserted ∨ offset.toNat % 4 ≠ 0 then none else locate offset.toNat

/-- R66, R54: `MemRead(BASE + offset, 4)`: the word, with the state after it. Only the counter of free values can
change, at a drawn read. -/
def memRead (offset : BitVec 18) (s : State) : Except Fault (Word × State) :=
  match servedAt offset s with
  | none => .error (.busError offset)
  | some l =>
    if s.busy ∧ ¬ l.exactWhileBusy then .ok (Config.busyRead s.draws, { s with draws := s.draws + 1 })
    else .ok (readLoc s l, s)

/-- R67, R53: `MemWrite(BASE + offset, 4, v)`: the state after it; dropped while busy, with WBUSY set. -/
def memWrite (offset : BitVec 18) (v : Word) (s : State) : Except Fault State :=
  match servedAt offset s with
  | none => .error (.busError offset)
  | some l => if s.busy then .ok { s with wbusy := true } else .ok (writeLoc v s l)

/-- R65, R68, R71: one host access: the answer and the state after it. An access the block does not serve gets the bus
error and changes no state. -/
def busAccess (a : Access) (s : State) : Response × State :=
  if a.width ≠ 4 then (.error (.busError a.offset), s)
  else
    match a.kind with
    | .fetch => (.error (.busError a.offset), s)
    | .read =>
      match memRead a.offset s with
      | .ok (w, s') => (.data w, s')
      | .error f => (.error f, s)
    | .write v =>
      match memWrite a.offset v s with
      | .ok s' => (.accepted, s')
      | .error f => (.error f, s)

/-- R9, R60: the offset a host physical address reaches in the block's window; `none` outside the window. -/
def offsetOfAddress (addr : Nat) : Option (BitVec 18) :=
  if addr / Config.windowBytes = Config.baseIndex then some (BitVec.ofNat 18 addr) else none

end Sys2Proof.Machine
end

