-- ==== Sys2Proof/Machine/HostProgram.lean ====
section
/-! DEFINITION. The HOST's program (30_encoding R102-R104): the expansions of the pseudo-statements, the transactions a
program stands for, and the HOST's turn. -/

namespace Sys2Proof.Machine

/-! ## Pseudo-statements (R103) -/

/-- `CMD <MNEMONIC>`. -/
def stmtCmd (i : Instr) : List Stmt := [.wr (.reg .cmd) (.imm (encode i))]

/-- `WAIT`: poll STATUS until BUSY = 0. -/
def stmtWait : List Stmt := [.poll (.reg .status) 0x1 0x0]

/-- `RUN <MNEMONIC>`. -/
def stmtRun (i : Instr) : List Stmt := stmtCmd i ++ stmtWait

/-- `LOAD <window>, <bytes>`, the window given as the function from a byte index to its word; bytes past the end are 0. -/
def stmtLoad (window : Nat → Loc) (b : Bytes) : List Stmt :=
  (List.range ((b.length + 3) / 4)).map fun k => .wr (window (4 * k)) (.imm (ofBe32 (b.drop (4 * k))))

/-- `LOADLEN <lenreg>, <window>, <bytes>`. -/
def stmtLoadLen (lenReg : Reg) (window : Nat → Loc) (b : Bytes) : List Stmt :=
  stmtLoad window b ++ [.wr (.reg lenReg) (.imm (BitVec.ofNat 32 b.length))]

/-! ## Encoding (R104) -/

/-- R104: the transaction of a statement: (W, offset, value), (R, offset), or reads repeated until a condition. -/
inductive Transaction where
  | w (offset : Nat) (value : Operand)
  | r (offset : Nat)
  | rUntil (offset : Nat) (mask value : Word)
  | other (a : Access)
  deriving DecidableEq, Repr

/-- R104: the encoding of a statement. -/
def Stmt.transaction : Stmt → Transaction
  | .wr t v => .w t.offset v
  | .rd t _ => .r t.offset
  | .poll t mask value => .rUntil t.offset mask value
  | .expect t _ => .r t.offset
  | .access a => .other a

/-! ## Variables (R102) -/

/-- The value of a variable, if an RD has written it. -/
def varValue : List (Nat × Word) → Nat → Option Word
  | [], _ => none
  | (k, w) :: vs, x => if k = x then some w else varValue vs x

/-- The variables after `x` was written. -/
def setVar : List (Nat × Word) → Nat → Word → List (Nat × Word)
  | [], x, v => [(x, v)]
  | (k, w) :: vs, x, v =>
    if x < k then (x, v) :: (k, w) :: vs else if x = k then (x, v) :: vs else (k, w) :: setVar vs x v

/-! ## The HOST's turn -/

/-- One access of the HOST; its answer is kept in `response`. -/
def hostAccess (a : Access) (s : State) : State :=
  let r := busAccess a s
  { r.2 with response := some r.1 }

/-- R102: the 32-bit access a statement makes at a target. A target that R102 does not allow, past the end of the window
(off(target) >= 0x40000), is taken modulo 2^18: the model's choice (log entry 4). -/
def accessAt (kind : AccessKind) (t : Loc) : Access where
  kind := kind
  offset := BitVec.ofNat 18 t.offset
  width := 4

/-- The data the HOST's last access returned, if it returned any. -/
def State.readData (s : State) : Option Word :=
  match s.response with
  | some (.data w) => some w
  | _ => none

/-- R102: an RD leaves the word read in its variable. A read answered with an error returns no data (R68): the variable
then holds a free value (log entry 10). -/
def keepRead (x : Nat) (s : State) : State :=
  match s.readData with
  | some w => { s with vars := setVar s.vars x w }
  | none => { s with vars := setVar s.vars x (Config.erroredRead s.draws), draws := s.draws + 1 }

/-- R102, R103: the HOST performs the next statement of its program. POLL stays where it is until its condition holds,
also after a bus error (log entry 18). An EXPECT whose read is answered with the bus error counts as failed: the spec leaves
this open (R68, R103), and it is the model's choice (log entry 21). -/
def hostTurn (s : State) : Host.Outcome State Fault Refusal :=
  match s.program with
  | [] => .next s
  | .wr t (.imm w) :: p => .next (hostAccess (accessAt (.write w) t) { s with program := p })
  | .wr t (.var x) :: p =>
    match varValue s.vars x with
    | some w => .next (hostAccess (accessAt (.write w) t) { s with program := p })
    | none => .refused (.unwrittenVariable x)
  | .rd t x :: p => .next (keepRead x (hostAccess (accessAt .read t) { s with program := p }))
  | .poll t mask value :: p =>
    let s' := hostAccess (accessAt .read t) s
    .next (if s'.readData.map (· &&& mask) = some value then { s' with program := p } else s')
  | .expect t value :: p =>
    let s' := hostAccess (accessAt .read t) { s with program := p }
    .next (if s'.readData = some value then s' else { s' with expectFailed := true })
  | .access a :: p => .next (hostAccess a { s with program := p })

end Sys2Proof.Machine
end

