-- ==== Sys2Proof/Machine/Agents.lean ====
section
/-! DEFINITION. Who moves (00_scope R8, 20_memory R71, R72, 60_exceptions R249, 70_reset R280). -/

namespace Sys2Proof.Machine

/-- One turn of an agent, or of the platform's reset input. -/
def takeTurn (t : Turn) (s : State) : Host.Outcome State Fault Refusal :=
  match t with
  | .host => hostTurn s
  | .engine => engineTurn s
  | .assertReset => .next (assertReset s)
  | .releaseReset => .next (releaseReset s)

/-- The next move: the oldest turn of `turns`; when none is given, the ENGINE if it has a step and the HOST otherwise
(log entry 1). -/
def nextMove (s : State) : Host.Outcome State Fault Refusal :=
  match s.turns with
  | t :: ts => takeTurn t { s with turns := ts }
  | [] => if s.busy then engineStep s else hostTurn s

/-- The state in which the command word `w` has just been accepted (10_state R52) and the ENGINE moves next, with
nothing to keep the ENGINE from decoding it (log entry 15). -/
def withCommand (w : Word) (s : State) : State :=
  { accept w s with fatal := false, turns := .engine :: s.turns }

end Sys2Proof.Machine
end

