-- ==== Sys2Proof/Machine/Step.lean ====
section
/-! DEFINITION. One step of the machine, and how a command word is placed so that the next step runs it. -/

namespace Sys2Proof.Machine

/-- One move of one agent: an atomic ENGINE step (10_state R50), one host access (20_memory R71), or the reset input. -/
def step (s : State) : Host.Outcome State Fault Refusal := nextMove s

/-- The command of bits `w`, numbered as spec/opcode_table.json numbers them (bits at and above `nbits` are 0), accepted
and about to be run. The block fetches nothing (20_memory R76): a command is taken from the CMD write that issues it, so
this stands for that write (log entry 15). -/
def State.withFetchWord (s : State) (nbits w : Nat) : State := withCommand (BitVec.ofNat 32 (w % 2 ^ nbits)) s

end Sys2Proof.Machine
end

