-- ==== Sys2Proof/WellFormed.lean ====
section
/-! DEFINITION. Well-formedness of what is written down outside the machine: commands and host programs.
A command has no operand field (30_encoding R91), so nothing about one can be ill-formed. A host program is well-formed
if its targets are words of the map (R102) and it writes no variable that no earlier RD wrote (R102). -/

namespace Sys2Proof

/-- R91: a command carries no operands, so every command is well-formed. -/
def Instr.wellFormed : Instr → Bool
  | .crcInit | .crcUpdate | .typeFromName | .typeCheck | .chunkBuild | .chunkVerify | .utf8Check
  | .kdfDerive | .aeadEncrypt | .aeadDecrypt | .zeroize => true

/-- R102: a target is a register, or a window word whose byte offset is a multiple of 4 inside the window. -/
def Machine.Loc.wellFormed : Machine.Loc → Bool
  | .reg _ => true
  | .pw i => i % 4 == 0 && decide (i < Config.pwBytes)
  | .dataIn i => i % 4 == 0 && decide (i < Config.bufBytes)
  | .out i => i % 4 == 0 && decide (i < Config.outBytes)

/-- R102: an operand is usable if it is an immediate or a variable already written. -/
def Machine.Operand.usable (written : List Nat) : Machine.Operand → Bool
  | .imm _ => true
  | .var x => written.contains x

/-- R102: the program check, `written` being the variables that hold a value. -/
def programWellFormed (written : List Nat) : List Machine.Stmt → Bool
  | [] => true
  | .wr t v :: p => t.wellFormed && v.usable written && programWellFormed written p
  | .rd t x :: p => t.wellFormed && programWellFormed (x :: written) p
  | .poll t _ _ :: p => t.wellFormed && programWellFormed written p
  | .expect t _ :: p => t.wellFormed && programWellFormed written p
  | .access _ :: p => programWellFormed written p

end Sys2Proof
end

