-- ==== Sys2Proof/Safety.lean ====
section
/-! DEFINITION. The terms the claims use: the rules' own words for completion, outputs, letters and the address map,
written apart from the operations of the machine, and the invariant of the machine. -/

namespace Sys2Proof.Safety

open Sys2Proof.Machine

/-- 10_state R51, as a claim states it: `s` completed with result code `c`, nothing else changed. -/
def completion (c : Byte) (s : State) : State :=
  { s with
    result := c.setWidth 32
    err := decide (c ≠ 0)
    busy := false
    done := true
    cmdCount := s.cmdCount + 1
    keyInt := Vector.replicate 32 0 }

/-- 00_scope R16: OUT holds exactly the bytes `b` and 0 elsewhere, and OUT_LEN says how many. -/
def OutHolds (b : Bytes) (s : State) : Prop :=
  s.outLen.toNat = b.length ∧ ∀ j, s.out.read j = b.getD j 0

/-- 00_scope R18: an ASCII letter. -/
abbrev Letter (c : Byte) : Prop := (0x41 ≤ c.toNat ∧ c.toNat ≤ 0x5A) ∨ (0x61 ≤ c.toNat ∧ c.toNat ≤ 0x7A)

/-- 40_chunk_type R121, R122: every byte of a chunk type is a letter. -/
abbrev LetterType (t : Bytes) : Prop := ∀ c ∈ t, Letter c

/-- 30_encoding R100: the values RESULT[7:0] takes. -/
def resultCodes : List Byte := [0x00, 0x01, 0x02, 0x03, 0x04, 0x05, 0x06, 0x07, 0x08, 0x0E, 0xFF]

/-- 20_memory R61, R69: the assigned word offsets of the window. -/
def Assigned (a : Nat) : Prop :=
  a % 4 = 0 ∧
    ((a ≤ 0x0BC ∧ a ∉ [0x058, 0x05C, 0x06C, 0x07C, 0x090, 0x094, 0x098, 0x09C]) ∨
      (0x00400 ≤ a ∧ a < 0x00400 + Config.pwBytes) ∨
      (0x10000 ≤ a ∧ a < 0x10000 + Config.bufBytes) ∨
      (0x20000 ≤ a ∧ a < 0x20000 + Config.outBytes))

/-- 30_encoding R96: the illegal command words. -/
def IllegalWord (w : Word) : Prop :=
  w.toNat / 256 ≠ 0 ∨ w.toNat % 256 = 0x00 ∨ (0x03 ≤ w.toNat % 256 ∧ w.toNat % 256 ≤ 0x0F) ∨
    (0x15 ≤ w.toNat % 256 ∧ w.toNat % 256 ≤ 0x1F) ∨ (0x23 ≤ w.toNat % 256 ∧ w.toNat % 256 ≤ 0x2F) ∨
    0x31 ≤ w.toNat % 256

/-- 41_crc_frame R160: one well-formed UTF-8 sequence, by the rows of the rule's table. -/
def Utf8Sequence (q : List Nat) : Prop :=
  (∃ a, q = [a] ∧ a ≤ 0x7F) ∨
  (∃ a b, q = [a, b] ∧ 0xC2 ≤ a ∧ a ≤ 0xDF ∧ 0x80 ≤ b ∧ b ≤ 0xBF) ∨
  (∃ a b c, q = [a, b, c] ∧ 0x80 ≤ c ∧ c ≤ 0xBF ∧
    ((a = 0xE0 ∧ 0xA0 ≤ b ∧ b ≤ 0xBF) ∨ (0xE1 ≤ a ∧ a ≤ 0xEC ∧ 0x80 ≤ b ∧ b ≤ 0xBF) ∨
      (a = 0xED ∧ 0x80 ≤ b ∧ b ≤ 0x9F) ∨ (0xEE ≤ a ∧ a ≤ 0xEF ∧ 0x80 ≤ b ∧ b ≤ 0xBF))) ∨
  (∃ a b c d, q = [a, b, c, d] ∧ 0x80 ≤ c ∧ c ≤ 0xBF ∧ 0x80 ≤ d ∧ d ≤ 0xBF ∧
    ((a = 0xF0 ∧ 0x90 ≤ b ∧ b ≤ 0xBF) ∨ (0xF1 ≤ a ∧ a ≤ 0xF3 ∧ 0x80 ≤ b ∧ b ≤ 0xBF) ∨
      (a = 0xF4 ∧ 0x80 ≤ b ∧ b ≤ 0x8F)))

/-- 41_crc_frame R148: the length field of the frame in a buffer: its bytes 0 to 3, big-endian. -/
def frameLength (m : Memory) : Word := packWord (m.read 0) (m.read 1) (m.read 2) (m.read 3)

/-- 41_crc_frame R148: the type of the frame in a buffer, bytes 4 to 7. -/
def frameType (m : Memory) : Bytes := [m.read 4, m.read 5, m.read 6, m.read 7]

/-- 41_crc_frame R148: the data of the frame in a buffer, as many bytes from byte 8 on as the length field says. -/
def frameData (m : Memory) : Bytes := (List.range (frameLength m).toNat).map fun j => m.read (8 + j)

/-- 41_crc_frame R148: the stored CRC of the frame in a buffer, the four bytes after the data, big-endian. -/
def frameCrc (m : Memory) : Word :=
  let l := (frameLength m).toNat
  packWord (m.read (8 + l)) (m.read (9 + l)) (m.read (10 + l)) (m.read (11 + l))

/-- 44_control R229, 60_exceptions R244: every secret-bearing register and buffer is clear. -/
def Zeroized (s : State) : Prop :=
  (∀ j, s.dataIn.read j = 0) ∧ (∀ j, s.pw.read j = 0) ∧ s.pwLen = 0 ∧ OutHolds [] s ∧
    s.keyIn = Vector.replicate 32 0 ∧ s.saltIn = Vector.replicate 16 0 ∧ s.keyInt = Vector.replicate 32 0

/-- The invariant of the machine: what every step keeps, from every state that has it. -/
structure Inv (s : State) : Prop where
  /-- Log entry 11, R40: DATA_IN is in canonical form, inside its capacity. -/
  dataIn : s.dataIn.wf = true ∧ s.dataIn.below Config.bufBytes = true
  /-- Log entry 11, R41: PW likewise. -/
  pw : s.pw.wf = true ∧ s.pw.below Config.pwBytes = true
  /-- R28: OUT likewise, and its bytes at or past OUT_LEN read 0. -/
  out : s.out.wf = true ∧ s.out.below s.outLen.toNat = true
  /-- R28: OUT_LEN <= OUT_BYTES always. -/
  outLen : s.outLen.toNat ≤ Config.outBytes
  /-- R22: the reserved bits of CTRL read 0. -/
  ctrl : s.ctrl &&& 0xFFFFFFF0 = 0
  /-- R30: the reserved bits of TYPE_PROPS read 0, and VALID = RSV_OK AND ALPHA. -/
  typeProps : s.typeProps.toNat < 64 ∧
    s.typeProps.getLsbD 5 = (s.typeProps.getLsbD 3 && s.typeProps.getLsbD 0)
  /-- R26, R100: RESULT holds a result code. -/
  result : ∃ c ∈ resultCodes, s.result = c.setWidth 32
  /-- R43: no key survives a command. -/
  keyInt : s.keyInt = Vector.replicate 32 0
  /-- R52: while a command is in progress DONE and ERR are clear. -/
  busy : s.busy = true → s.done = false ∧ s.err = false
  /-- R101: while idle ERR says whether RESULT is not OK. -/
  err : s.busy = false → s.err = decide (s.result ≠ 0)
  /-- R244, R245: in the FATAL state every result is FATAL and OUT stays clear. -/
  fatal : s.fatal = true → s.result = 0xFF ∧ s.outLen = 0
  /-- R280, R281 and log entry 12: while reset is asserted the block is in the reset state already. -/
  inReset : s.resetAsserted = true → s = assertReset s

/-- 30_encoding R102: the rest of the HOST's program writes no unwritten variable. -/
def HostReady (s : State) : Prop := programWellFormed (s.vars.map Prod.fst) s.program = true

/-- The registers of R94's "writes" column, taken from `t`, and what completion writes (R51); all else from `s`. -/
def completionFrom (t s : State) : State :=
  { s with result := t.result, err := t.err, busy := t.busy, done := t.done, cmdCount := t.cmdCount, keyInt := t.keyInt }

/-- 60_exceptions R244: what `fatal()` may change besides completion. -/
def fatalFrom (t s : State) : State :=
  { completionFrom t s with
    fatal := t.fatal, dataIn := t.dataIn, pw := t.pw, pwLen := t.pwLen, out := t.out, outLen := t.outLen,
    keyIn := t.keyIn, saltIn := t.saltIn }

end Sys2Proof.Safety
end

