-- ==== Sys2Proof/Certificates/Slice0/Obligations.lean ====
section
/-! DEFINITION. The statements for the provers. Each docstring names the rules it formalises or rests on. -/

open Sys2Proof Sys2Proof.Machine Sys2Proof.Safety

/-! ## Encoding and the ENGINE step -/

/-- R93: the opcode map, matched on the whole word: each command has its word, and no other word decodes to it. -/
def Obligations.DecodeMatchesWholeWord : Prop :=
  (encode .crcInit = 0x00000001 ∧ encode .crcUpdate = 0x00000002 ∧ encode .typeFromName = 0x00000010 ∧
    encode .typeCheck = 0x00000011 ∧ encode .chunkBuild = 0x00000012 ∧ encode .chunkVerify = 0x00000013 ∧
    encode .utf8Check = 0x00000014 ∧ encode .kdfDerive = 0x00000020 ∧ encode .aeadEncrypt = 0x00000021 ∧
    encode .aeadDecrypt = 0x00000022 ∧ encode .zeroize = 0x00000030) ∧
  ∀ (w : Word) (i : Instr), decode w = .ok i ↔ w = encode i

/-- R96, R231: the illegal words are exactly those the rule lists; each completes with ILLEGAL_CMD and no other effect
(the FATAL state, where every command gives FATAL, is the other case of R92). -/
def Obligations.IllegalWordsComplete : Prop :=
  (∀ w : Word, (∃ e, decode w = .error e) ↔ IllegalWord w) ∧
  ∀ (s : State) (ts : List Turn), s.busy = true → s.fatal = false → IllegalWord s.cmd →
    step { s with turns := .engine :: ts } = .next (completion 0x0E { s with turns := ts })

/-- R93: a command word of each family, written out, decodes to its command; two illegal words do not decode. -/
def Obligations.SampleWordsDecode : Prop :=
  decode 0b00000000000000000000000000000010 = .ok .crcUpdate ∧
  decode 0b00000000000000000000000000010000 = .ok .typeFromName ∧
  decode 0b00000000000000000000000000010011 = .ok .chunkVerify ∧
  decode 0b00000000000000000000000000100000 = .ok .kdfDerive ∧
  decode 0b00000000000000000000000000100001 = .ok .aeadEncrypt ∧
  decode 0b00000000000000000000000000110000 = .ok .zeroize ∧
  decode 0b00000000000000000000000000000000 = .error (.unassignedOpc 0x00) ∧
  decode 0b00000000000000000000000100100001 = .error (.mbzNonzero 1)

/-- R50, R92: the ENGINE step, taken when BUSY = 1 and not in the FATAL state, is `exec` of the decoded command, whether
the ENGINE's turn is given or, with no turn given, is the next move (that last is the model's choice, log entry 1). -/
def Obligations.StepRunsDecodedCommand : Prop :=
  ∀ (s : State) (i : Instr) (ts : List Turn), s.busy = true → s.fatal = false → decode s.cmd = .ok i →
    step { s with turns := .engine :: ts } = exec i { s with turns := ts } ∧
    step { s with turns := [] } = exec i { s with turns := [] }

/-- R50: an ENGINE that is not busy has no step: its turn passes and nothing changes (that it can be given a turn is the
model's form of the order, log entry 1). -/
def Obligations.IdleEngineHasNoStep : Prop :=
  ∀ (s : State) (ts : List Turn), s.busy = false →
    step { s with turns := .engine :: ts } = .next { s with turns := ts }

/-- R245: in the FATAL state every command word, legal or not, completes with FATAL and no command's rule runs. -/
def Obligations.FatalStateRunsNoCommand : Prop :=
  ∀ (s : State) (w : Word) (ts : List Turn), s.fatal = true →
    (s.busy = false → s.resetAsserted = false →
      memWrite 0x00C w s = .ok { s with cmd := w, busy := true, done := false, err := false }) ∧
    (s.busy = true → step { s with turns := .engine :: ts } = .next (completion 0xFF { s with turns := ts }))

/-- R52: command acceptance, in every state of an idle block, the FATAL state included. -/
def Obligations.CommandAcceptance : Prop :=
  ∀ (s : State) (v : Word), s.busy = false → s.resetAsserted = false →
    memWrite 0x00C v s = .ok { s with cmd := v, busy := true, done := false, err := false }

/-- R51: every command, from every state, reaches completion: it answers a next state with what R51 writes. -/
def Obligations.EveryCommandCompletes : Prop :=
  ∀ (i : Instr) (s : State), ∃ t c, exec i s = .next t ∧ c ∈ resultCodes ∧ t.result = c.setWidth 32 ∧
    t.err = decide (c ≠ 0) ∧ t.busy = false ∧ t.done = true ∧ t.cmdCount = s.cmdCount + 1 ∧
    t.keyInt = Vector.replicate 32 0

/-! ## The commands -/

/-- R144: CRC_INIT. -/
def Obligations.CrcInitResult : Prop :=
  decode 0x00000001 = .ok .crcInit ∧ ∀ s : State, ∃ t, exec .crcInit s = .next t ∧ t = completion 0x00 { s with crcAcc := 0xFFFFFFFF } ∧
    readLoc t (.reg .crcValue) = 0x00000000

/-- R145: CRC_UPDATE; with DATA_LEN = 0 the accumulator is as before. -/
def Obligations.CrcUpdateResult : Prop :=
  decode 0x00000002 = .ok .crcUpdate ∧ ∀ s : State, ∃ t, exec .crcUpdate s = .next t ∧
    (Config.bufBytes < s.dataLen.toNat → t = completion 0x06 s) ∧
    (s.dataLen.toNat ≤ Config.bufBytes →
      t = completion 0x00 { s with crcAcc := crcFold s.crcAcc (s.dataIn.bytes s.dataLen.toNat) }) ∧
    (s.dataLen = 0 → t.crcAcc = s.crcAcc)

/-- R121: TYPE_FROM_NAME, its checks in order. -/
def Obligations.TypeFromNameResult : Prop :=
  decode 0x00000010 = .ok .typeFromName ∧ ∀ s : State, ∃ t, exec .typeFromName s = .next t ∧
    (Config.bufBytes < s.dataLen.toNat → t = completion 0x06 s) ∧
    (s.dataLen.toNat ≤ Config.bufBytes → s.dataLen.toNat ≠ 4 → t = completion 0x07 s) ∧
    (s.dataLen.toNat = 4 → ¬ LetterType (s.dataIn.bytes 4) → t = completion 0x01 s) ∧
    (s.dataLen.toNat = 4 → LetterType (s.dataIn.bytes 4) →
      t = completion 0x00 { s with typeCode := t.typeCode, typeProps := props (s.dataIn.bytes 4) } ∧
      be32 t.typeCode = s.dataIn.bytes 4)

/-- R122: TYPE_CHECK; TYPE_PROPS is written even on BAD_TYPE. -/
def Obligations.TypeCheckResult : Prop :=
  decode 0x00000011 = .ok .typeCheck ∧ ∀ s : State, ∃ t, exec .typeCheck s = .next t ∧
    (LetterType (be32 s.typeCode) → t = completion 0x00 { s with typeProps := props (be32 s.typeCode) }) ∧
    (¬ LetterType (be32 s.typeCode) → t = completion 0x01 { s with typeProps := props (be32 s.typeCode) })

/-- R147, R146: CHUNK_BUILD; the frame is BE32(len) ++ t ++ d ++ BE32(CRC32(t ++ d)). -/
def Obligations.ChunkBuildResult : Prop :=
  decode 0x00000012 = .ok .chunkBuild ∧ ∀ s : State, ∃ t, exec .chunkBuild s = .next t ∧
    (Config.bufBytes < s.dataLen.toNat → t = completion 0x06 s) ∧
    (s.dataLen.toNat ≤ Config.bufBytes → ¬ LetterType (be32 s.typeCode) →
      t = completion 0x01 { s with out := t.out, outLen := t.outLen } ∧ OutHolds [] t) ∧
    (s.dataLen.toNat ≤ Config.bufBytes → LetterType (be32 s.typeCode) →
      let d := s.dataIn.bytes s.dataLen.toNat
      let c := crc32 (be32 s.typeCode ++ d)
      t = completion 0x00
        { s with
          out := t.out, outLen := t.outLen, chunkLen := s.dataLen, chunkType := s.typeCode,
          chunkCrcStored := c, chunkCrcCalc := c } ∧
      OutHolds (be32 s.dataLen ++ be32 s.typeCode ++ d ++ be32 c) t)

/-- R148: CHUNK_VERIFY, its results in order of priority, with the frame registers each leaves. -/
def Obligations.ChunkVerifyResult : Prop :=
  decode 0x00000013 = .ok .chunkVerify ∧ ∀ s : State, ∃ t, exec .chunkVerify s = .next t ∧
    (Config.bufBytes < s.dataLen.toNat → t = completion 0x06 s) ∧
    (s.dataLen.toNat ≤ Config.bufBytes →
      s.dataLen.toNat < 12 + (frameLength s.dataIn).toNat ∨ s.dataLen.toNat < 12 →
      OutHolds [] t ∧
      t = completion 0x02
        { s with
          out := t.out, outLen := t.outLen
          chunkLen := if 4 ≤ s.dataLen.toNat then frameLength s.dataIn else 0
          chunkType := if 8 ≤ s.dataLen.toNat then ofBe32 (frameType s.dataIn) else 0
          chunkCrcStored := 0, chunkCrcCalc := 0, consumed := 0 }) ∧
    (s.dataLen.toNat ≤ Config.bufBytes → 12 + (frameLength s.dataIn).toNat ≤ s.dataLen.toNat →
      let crc := crc32 (frameType s.dataIn ++ frameData s.dataIn)
      let c : Byte := if frameCrc s.dataIn ≠ crc then 0x03 else if LetterType (frameType s.dataIn) then 0x00 else 0x01
      OutHolds (if c = 0x00 then frameData s.dataIn else []) t ∧
      t.consumed.toNat = 12 + (frameLength s.dataIn).toNat ∧
      t = completion c
        { s with
          out := t.out, outLen := t.outLen
          chunkLen := frameLength s.dataIn, chunkType := ofBe32 (frameType s.dataIn)
          chunkCrcStored := frameCrc s.dataIn, chunkCrcCalc := crc, consumed := t.consumed
          typeProps := props (frameType s.dataIn) })

/-- R161, R160: UTF8_CHECK, validity by the rows of R160. -/
def Obligations.Utf8CheckResult : Prop :=
  decode 0x00000014 = .ok .utf8Check ∧ ∀ s : State, ∃ t, exec .utf8Check s = .next t ∧
    (Config.bufBytes < s.dataLen.toNat → t = completion 0x06 s) ∧
    (s.dataLen.toNat ≤ Config.bufBytes →
      t = completion (if utf8Valid (s.dataIn.bytes s.dataLen.toNat) then 0x00 else 0x05) s)

/-- R185, R184, R181: KDF_DERIVE. Whether a work factor is valid is a parameter, so the statement covers both cases. -/
def Obligations.KdfDeriveResult : Prop :=
  decode 0x00000020 = .ok .kdfDerive ∧ ∀ s : State, ∃ t, exec .kdfDerive s = .next t ∧
    (Config.pwBytes < s.pwLen.toNat → t = completion 0x06 s) ∧
    (s.pwLen.toNat ≤ Config.pwBytes →
      let salt := if s.ctrl.getLsbD 1 then s.saltIn.toList else Config.kdfFixedSalt
      if Config.kdfParamsValid s.kdfCost then
        t = completion 0x00 { s with out := t.out, outLen := t.outLen } ∧
        OutHolds (Config.kdfFn (s.pw.bytes s.pwLen.toNat) salt s.kdfCost).toList t
      else
        Zeroized t ∧
        t = completion 0xFF
          { s with
            fatal := true, dataIn := t.dataIn, pw := t.pw, pwLen := t.pwLen, out := t.out, outLen := t.outLen,
            keyIn := t.keyIn, saltIn := t.saltIn })

/-- R210, R208, R209: AEAD_ENCRYPT. The RNG draw is a free value, in the model's form of log entry 8 (with its counter
`draws`), and the validity of a work factor a parameter, so the statement covers each of their outcomes. -/
def Obligations.AeadEncryptResult : Prop :=
  decode 0x00000021 = .ok .aeadEncrypt ∧ ∀ s : State, ∃ t, exec .aeadEncrypt s = .next t ∧
    let n := s.dataLen.toNat
    let keySrc := s.ctrl.getLsbD 2
    let nonceSrc := s.ctrl.getLsbD 0
    let salt := if s.ctrl.getLsbD 1 then s.saltIn.toList else Config.kdfFixedSalt
    let key := if keySrc then s.keyIn else Config.kdfFn (s.pw.bytes s.pwLen.toNat) salt s.kdfCost
    let nonce := if nonceSrc then some s.nonceIn else Config.rngDraw s.draws
    let draws := if nonceSrc then s.draws else s.draws + 1
    let tooLong := Config.bufBytes < n ∨ (keySrc = false ∧ Config.pwBytes < s.pwLen.toNat)
    (tooLong → t = completion 0x06 s) ∧
    (¬ tooLong →
      if keySrc = false ∧ Config.kdfParamsValid s.kdfCost = false then
        Zeroized t ∧
        t = completion 0xFF
          { s with
            fatal := true, dataIn := t.dataIn, pw := t.pw, pwLen := t.pwLen, out := t.out, outLen := t.outLen,
            keyIn := t.keyIn, saltIn := t.saltIn }
      else
        match nonce with
        | none => OutHolds [] t ∧ t = completion 0x08 { s with out := t.out, outLen := t.outLen, draws := draws }
        | some nn =>
          let ct := gcmAE key.toList nn.toList (s.dataIn.bytes n) []
          OutHolds (ct.1 ++ ct.2) t ∧ t.outLen.toNat = n + 16 ∧
          t = completion 0x00 { s with out := t.out, outLen := t.outLen, nonceOut := nn, draws := draws })

/-- R211, R208: AEAD_DECRYPT; the tag is the last 16 bytes of the input. -/
def Obligations.AeadDecryptResult : Prop :=
  decode 0x00000022 = .ok .aeadDecrypt ∧ ∀ s : State, ∃ t, exec .aeadDecrypt s = .next t ∧
    let n := s.dataLen.toNat
    let keySrc := s.ctrl.getLsbD 2
    let salt := if s.ctrl.getLsbD 1 then s.saltIn.toList else Config.kdfFixedSalt
    let key := if keySrc then s.keyIn else Config.kdfFn (s.pw.bytes s.pwLen.toNat) salt s.kdfCost
    let tooLong := Config.bufBytes < n ∨ (keySrc = false ∧ Config.pwBytes < s.pwLen.toNat)
    let tag := (List.range 16).map fun j => s.dataIn.read (n - 16 + j)
    let plain := if n < 16 then none else gcmAD key.toList s.nonceIn.toList (s.dataIn.bytes (n - 16)) [] tag
    (tooLong → t = completion 0x06 s) ∧
    (¬ tooLong →
      if keySrc = false ∧ Config.kdfParamsValid s.kdfCost = false then
        Zeroized t ∧
        t = completion 0xFF
          { s with
            fatal := true, dataIn := t.dataIn, pw := t.pw, pwLen := t.pwLen, out := t.out, outLen := t.outLen,
            keyIn := t.keyIn, saltIn := t.saltIn }
      else
        match plain with
        | none => OutHolds [] t ∧ t = completion 0x04 { s with out := t.out, outLen := t.outLen }
        | some p =>
          t = completion (if utf8Valid p then 0x00 else 0x05) { s with out := t.out, outLen := t.outLen } ∧
          OutHolds (if utf8Valid p then p else []) t)

/-- R230, R229: ZEROIZE. -/
def Obligations.ZeroizeResult : Prop :=
  decode 0x00000030 = .ok .zeroize ∧ ∀ s : State, ∃ t, exec .zeroize s = .next t ∧ Zeroized t ∧
    t = completion 0x00
      { s with
        dataIn := t.dataIn, pw := t.pw, pwLen := t.pwLen, out := t.out, outLen := t.outLen,
        keyIn := t.keyIn, saltIn := t.saltIn }

/-! ## Frames and whole-machine rules over all commands -/

/-- R94: what each command leaves unchanged: all but the registers and buffers its row of the table names (and, in the
FATAL case, those of R244), so every byte of an unnamed buffer reads as before. `draws` is the model's own counter of
free values (log entry 8). -/
def Obligations.CommandsWriteOnlyTheirRow : Prop :=
  ∀ s t : State,
    (exec .crcInit s = .next t → t = { completionFrom t s with crcAcc := t.crcAcc }) ∧
    (exec .crcUpdate s = .next t → t = { completionFrom t s with crcAcc := t.crcAcc }) ∧
    (exec .typeFromName s = .next t →
      t = { completionFrom t s with typeCode := t.typeCode, typeProps := t.typeProps }) ∧
    (exec .typeCheck s = .next t → t = { completionFrom t s with typeProps := t.typeProps }) ∧
    (exec .chunkBuild s = .next t →
      t = { completionFrom t s with
            out := t.out, outLen := t.outLen, chunkLen := t.chunkLen, chunkType := t.chunkType,
            chunkCrcStored := t.chunkCrcStored, chunkCrcCalc := t.chunkCrcCalc }) ∧
    (exec .chunkVerify s = .next t →
      t = { completionFrom t s with
            out := t.out, outLen := t.outLen, chunkLen := t.chunkLen, chunkType := t.chunkType,
            chunkCrcStored := t.chunkCrcStored, chunkCrcCalc := t.chunkCrcCalc, consumed := t.consumed,
            typeProps := t.typeProps }) ∧
    (exec .utf8Check s = .next t → t = completionFrom t s) ∧
    (exec .kdfDerive s = .next t →
      t = { completionFrom t s with out := t.out, outLen := t.outLen } ∨ (t.fatal = true ∧ t = fatalFrom t s)) ∧
    (exec .aeadEncrypt s = .next t →
      t = { completionFrom t s with out := t.out, outLen := t.outLen, nonceOut := t.nonceOut, draws := t.draws } ∨
        (t.fatal = true ∧ t = fatalFrom t s)) ∧
    (exec .aeadDecrypt s = .next t →
      t = { completionFrom t s with out := t.out, outLen := t.outLen } ∨ (t.fatal = true ∧ t = fatalFrom t s)) ∧
    (exec .zeroize s = .next t → t = { fatalFrom t s with fatal := s.fatal })

/-- R251: errors are precise: LEN_ERR and NAME_LEN change nothing beyond completion, and no error leaves a partly
written output: OUT is untouched or cleared. -/
def Obligations.ErrorsArePrecise : Prop :=
  ∀ (i : Instr) (s t : State), exec i s = .next t →
    (t.result = 0x06 → t = completion 0x06 s) ∧ (t.result = 0x07 → t = completion 0x07 s) ∧
    (t.result ≠ 0x00 → (t.out = s.out ∧ t.outLen = s.outLen) ∨ OutHolds [] t)

/-- R244, R182: FATAL is entered exactly at a malformed work factor, by KDF_DERIVE or by an AEAD command with
KEY_SRC = 0 whose length checks passed, and entry zeroizes and completes with FATAL. -/
def Obligations.FatalEntry : Prop :=
  ∀ (i : Instr) (s t : State), exec i s = .next t → s.fatal = false →
    (t.fatal = true ↔
      Config.kdfParamsValid s.kdfCost = false ∧ s.pwLen.toNat ≤ Config.pwBytes ∧
      (i = .kdfDerive ∨
        ((i = .aeadEncrypt ∨ i = .aeadDecrypt) ∧ s.ctrl.getLsbD 2 = false ∧ s.dataLen.toNat ≤ Config.bufBytes))) ∧
    (t.fatal = true →
      Zeroized t ∧ t.result = 0xFF ∧ t.err = true ∧ t.done = true ∧ t.busy = false)

/-- R37: NONCE_OUT changes only at an AEAD_ENCRYPT that completes with OK, and then holds the nonce used: NONCE_IN when
NONCE_SRC = 1, the RNG draw otherwise (a free value, log entry 8). -/
def Obligations.NonceOutIsTheNonceUsed : Prop :=
  ∀ (i : Instr) (s t : State), exec i s = .next t →
    (i = .aeadEncrypt → t.result = 0x00 →
      some t.nonceOut = if s.ctrl.getLsbD 0 then some s.nonceIn else Config.rngDraw s.draws) ∧
    (i ≠ .aeadEncrypt ∨ t.result ≠ 0x00 → t.nonceOut = s.nonceOut)

/-- R211: AEAD_DECRYPT releases no plaintext unless it completes with OK: on every other code but LEN_ERR, which changes
nothing, OUT is clear. -/
def Obligations.DecryptReleasesNothingOnFailure : Prop :=
  ∀ s t : State, exec .aeadDecrypt s = .next t → t.result ≠ 0x00 →
    (t.result = 0x06 ∧ t.out = s.out ∧ t.outLen = s.outLen) ∨
    ((t.result = 0x04 ∨ t.result = 0x05 ∨ t.result = 0xFF) ∧ OutHolds [] t)

/-! ## The functions behind the commands -/

/-- R120: the property bits of a 4-byte type; CRITICAL, PUBLIC, RSV_OK and SAFE_COPY by bit 5 of each byte. -/
def Obligations.TypePropertyBits : Prop :=
  ∀ t0 t1 t2 t3 : Byte,
    let p := props [t0, t1, t2, t3]
    (p.getLsbD 0 = true ↔ Letter t0 ∧ Letter t1 ∧ Letter t2 ∧ Letter t3) ∧
    (p.getLsbD 1 = true ↔ t0 &&& 0x20 = 0) ∧ (p.getLsbD 2 = true ↔ t1 &&& 0x20 = 0) ∧
    (p.getLsbD 3 = true ↔ t2 &&& 0x20 = 0) ∧ (p.getLsbD 4 = true ↔ t3 &&& 0x20 ≠ 0) ∧
    (p.getLsbD 5 = true ↔ t2 &&& 0x20 = 0 ∧ Letter t0 ∧ Letter t1 ∧ Letter t2 ∧ Letter t3) ∧
    p.toNat < 64

/-- R123: every letter type survives the way in through TYPE_FROM_NAME and back through TYPE, over the bus. -/
def Obligations.TypeNameRoundTrip : Prop :=
  ∀ (s : State) (w : Word), s.busy = false → s.resetAsserted = false → s.fatal = false → s.dataIn.wf = true →
    LetterType (be32 w) →
    ∃ s1 s2 s3 t, memWrite 0x10000 w s = .ok s1 ∧ memWrite 0x018 4 s1 = .ok s2 ∧
      memWrite 0x00C 0x00000010 s2 = .ok s3 ∧ engineTurn s3 = .next t ∧ t.result = 0x00 ∧
      memRead 0x024 t = .ok (w, t)

/-- R143: a byte sequence split across two CRC_UPDATE commands gives the CRC_ACC of one CRC_UPDATE over the whole. -/
def Obligations.CrcStreamsAcrossCommands : Prop :=
  (∀ (acc : Word) (a b : Bytes), crcFold acc (a ++ b) = crcFold (crcFold acc a) b) ∧
  ∀ (s s1 s2 t1 t2 t : State) (a b : Bytes), a.length + b.length ≤ Config.bufBytes →
    s.dataLen.toNat = a.length + b.length → s.dataIn.bytes (a.length + b.length) = a ++ b →
    s1.dataLen.toNat = a.length → s1.dataIn.bytes a.length = a → s1.crcAcc = s.crcAcc →
    s2.dataLen.toNat = b.length → s2.dataIn.bytes b.length = b →
    exec .crcUpdate s = .next t → exec .crcUpdate s1 = .next t1 → s2.crcAcc = t1.crcAcc →
    exec .crcUpdate s2 = .next t2 → t2.crcAcc = t.crcAcc

/-- R150: flip one bit of an accepted frame in its type, data or stored-CRC bytes, keep its length field, and verify
again: CRC_MISMATCH, for every such flip. -/
def Obligations.SingleBitFlipIsCrcMismatch : Prop :=
  ∀ (s t u : State) (j k : Nat), exec .chunkVerify s = .next t → t.result = 0x00 →
    4 ≤ j → j < 12 + t.chunkLen.toNat → k < 8 → u.dataLen = s.dataLen →
    (∀ a, u.dataIn.read a = if a = j then s.dataIn.read a ^^^ (1#8 <<< k) else s.dataIn.read a) →
    ∃ v, exec .chunkVerify u = .next v ∧ v.result = 0x03

/-- R149: build a frame, copy it into DATA_IN, verify it: OK, with the data, length, type and size of the frame. A frame
too long for DATA_IN cannot be verified whole: its length gives LEN_ERR. -/
def Obligations.FrameRoundTrip : Prop :=
  ∀ (s t u : State), LetterType (be32 s.typeCode) → s.dataLen.toNat ≤ Config.bufBytes →
    exec .chunkBuild s = .next t → u.dataLen.toNat = 12 + s.dataLen.toNat →
    (Config.bufBytes - 12 < s.dataLen.toNat → exec .chunkVerify u = .next (completion 0x06 u)) ∧
    (s.dataLen.toNat ≤ Config.bufBytes - 12 →
      (∀ a, a < 12 + s.dataLen.toNat → u.dataIn.read a = t.out.read a) →
      ∃ v, exec .chunkVerify u = .next v ∧ v.result = 0x00 ∧ OutHolds (s.dataIn.bytes s.dataLen.toNat) v ∧
        v.chunkLen = s.dataLen ∧ v.chunkType = s.typeCode ∧ v.consumed.toNat = 12 + s.dataLen.toNat)

/-- R160: Utf8Valid holds exactly of the concatenations of well-formed sequences. -/
def Obligations.Utf8ValidIsConcatenation : Prop :=
  ∀ b : Bytes, utf8Valid b = true ↔
    ∃ qs : List Bytes, b = qs.flatten ∧ ∀ q ∈ qs, Utf8Sequence (q.map BitVec.toNat)

/-- R186: with equal passwords, salt choice, salt and work factor the derived keys are equal: in OUT after KDF_DERIVE
with OK, and the internal key of the AEAD commands with KEY_SRC = 0. -/
def Obligations.KeyDerivationIsDeterministic : Prop :=
  ∀ s u : State, s.pwLen = u.pwLen → (∀ j, j < s.pwLen.toNat → s.pw.read j = u.pw.read j) →
    s.ctrl.getLsbD 1 = u.ctrl.getLsbD 1 → (s.ctrl.getLsbD 1 = true → s.saltIn = u.saltIn) → s.kdfCost = u.kdfCost →
    (∀ t v, exec .kdfDerive s = .next t → exec .kdfDerive u = .next v → t.result = 0x00 → v.result = 0x00 →
      ∀ j, j < 32 → t.out.read j = v.out.read j) ∧
    (s.ctrl.getLsbD 2 = false → u.ctrl.getLsbD 2 = false → selectKey s = selectKey u)

/-- R206, R207: decryption inverts encryption exactly, the ciphertext is as long as the plaintext and the tag is 16
bytes, for every key, nonce, plaintext and additional data. -/
def Obligations.GcmDecryptInvertsEncrypt : Prop :=
  ∀ k n p a : Bytes,
    (gcmAE k n p a).1.length = p.length ∧ (gcmAE k n p a).2.length = 16 ∧
    gcmAD k n (gcmAE k n p a).1 a (gcmAE k n p a).2 = some p

/-- R214: what AEAD_ENCRYPT made with OK, AEAD_DECRYPT gives back with OK, under the same key selection inputs and the
nonce used. -/
def Obligations.AeadRoundTrip : Prop :=
  ∀ s t u : State, exec .aeadEncrypt s = .next t → t.result = 0x00 →
    utf8Valid (s.dataIn.bytes s.dataLen.toNat) = true → s.dataLen.toNat ≤ Config.bufBytes - 16 →
    (∀ a, a < s.dataLen.toNat + 16 → u.dataIn.read a = t.out.read a) →
    u.dataLen.toNat = s.dataLen.toNat + 16 → u.nonceIn = t.nonceOut →
    u.ctrl.getLsbD 2 = s.ctrl.getLsbD 2 → u.ctrl.getLsbD 1 = s.ctrl.getLsbD 1 → u.keyIn = s.keyIn →
    u.pwLen = s.pwLen → (∀ j, j < s.pwLen.toNat → u.pw.read j = s.pw.read j) → u.saltIn = s.saltIn →
    u.kdfCost = s.kdfCost →
    ∃ v, exec .aeadDecrypt u = .next v ∧ v.result = 0x00 ∧ OutHolds (s.dataIn.bytes s.dataLen.toNat) v

/-! ## Host accesses -/

/-- R61, R69: the assigned word offsets of the window are exactly those of the address map. -/
def Obligations.AddressMapIsExact : Prop :=
  ∀ a : Nat, a % 4 = 0 → a < 0x40000 → ((locate a).isSome = true ↔ Assigned a)

/-- R65, R68, R69, R242, R280: an access is served exactly when it is an aligned 32-bit read or write of an assigned
offset outside reset; every other one gets the bus error and changes no state. That a served write which is dropped or
ignored gets no error either is the model's choice (log entry 13). -/
def Obligations.UnservedAccessesGetBusError : Prop :=
  ∀ (acc : Access) (s : State),
    let served := acc.width = 4 ∧ Assigned acc.offset.toNat ∧ acc.kind ≠ .fetch ∧ s.resetAsserted = false
    (¬ served → busAccess acc s = (.error (.busError acc.offset), s)) ∧
    (served → ∀ f, (busAccess acc s).1 ≠ .error f)

/-- R21, R67, R69: while idle a word written to a read-write register, at its offset, lands in that register alone, for
CTRL with its reserved bits 0; each reads, at its offset, what it holds; so each word written reads back. -/
def Obligations.ReadWriteRegistersReadBack : Prop :=
  ∀ s : State, s.busy = false → s.resetAsserted = false →
    (∀ v : Word,
      memWrite 0x008 v s = .ok { s with ctrl := v &&& 0x0000000F } ∧
      memWrite 0x018 v s = .ok { s with dataLen := v } ∧ memWrite 0x01C v s = .ok { s with pwLen := v } ∧
      memWrite 0x024 v s = .ok { s with typeCode := v } ∧ memWrite 0x02C v s = .ok { s with crcAcc := v } ∧
      memWrite 0x048 v s = .ok { s with kdfCost := { s.kdfCost with c0 := v } } ∧
      memWrite 0x04C v s = .ok { s with kdfCost := { s.kdfCost with c1 := v } } ∧
      memWrite 0x050 v s = .ok { s with kdfCost := { s.kdfCost with c2 := v } }) ∧
    (memRead 0x008 s = .ok (s.ctrl, s) ∧ memRead 0x018 s = .ok (s.dataLen, s) ∧ memRead 0x01C s = .ok (s.pwLen, s) ∧
      memRead 0x024 s = .ok (s.typeCode, s) ∧ memRead 0x02C s = .ok (s.crcAcc, s) ∧
      memRead 0x048 s = .ok (s.kdfCost.c0, s) ∧ memRead 0x04C s = .ok (s.kdfCost.c1, s) ∧
      memRead 0x050 s = .ok (s.kdfCost.c2, s) ∧
      memRead 0x060 s = .ok (packWord s.nonceIn[0] s.nonceIn[1] s.nonceIn[2] s.nonceIn[3], s) ∧
      memRead 0x064 s = .ok (packWord s.nonceIn[4] s.nonceIn[5] s.nonceIn[6] s.nonceIn[7], s) ∧
      memRead 0x068 s = .ok (packWord s.nonceIn[8] s.nonceIn[9] s.nonceIn[10] s.nonceIn[11], s) ∧
      memRead 0x080 s = .ok (packWord s.saltIn[0] s.saltIn[1] s.saltIn[2] s.saltIn[3], s) ∧
      memRead 0x084 s = .ok (packWord s.saltIn[4] s.saltIn[5] s.saltIn[6] s.saltIn[7], s) ∧
      memRead 0x088 s = .ok (packWord s.saltIn[8] s.saltIn[9] s.saltIn[10] s.saltIn[11], s) ∧
      memRead 0x08C s = .ok (packWord s.saltIn[12] s.saltIn[13] s.saltIn[14] s.saltIn[15], s)) ∧
    ∀ (r : Reg) (v : Word), r.access = .rw →
      ∃ t, memWrite (BitVec.ofNat 18 r.offset) v s = .ok t ∧ t.busy = false ∧
        memRead (BitVec.ofNat 18 r.offset) t = .ok (if r = .ctrl then v &&& 0x0000000F else v, t)

/-- R21, R24, R26, R28, R30, R31, R33, R35, R37, R62: what each read-only register reads as while idle, at its offset;
CRC_VALUE is the complement of CRC_ACC, and a word of NONCE_OUT its four bytes, the first most significant. -/
def Obligations.RegisterReadValues : Prop :=
  ∀ s : State, s.busy = false → s.resetAsserted = false →
    memRead 0x000 s = .ok (0x43414348, s) ∧ memRead 0x004 s = .ok (0x00000007, s) ∧ memRead 0x00C s = .ok (s.cmd, s) ∧
    memRead 0x014 s = .ok (s.result, s) ∧ memRead 0x020 s = .ok (s.outLen, s) ∧ memRead 0x028 s = .ok (s.typeProps, s) ∧
    memRead 0x030 s = .ok (s.crcAcc ^^^ 0xFFFFFFFF, s) ∧ memRead 0x034 s = .ok (s.chunkLen, s) ∧
    memRead 0x038 s = .ok (s.chunkType, s) ∧ memRead 0x03C s = .ok (s.chunkCrcStored, s) ∧
    memRead 0x040 s = .ok (s.chunkCrcCalc, s) ∧ memRead 0x044 s = .ok (s.consumed, s) ∧
    memRead 0x054 s = .ok (s.cmdCount, s) ∧
    memRead 0x070 s = .ok (packWord s.nonceOut[0] s.nonceOut[1] s.nonceOut[2] s.nonceOut[3], s) ∧
    memRead 0x074 s = .ok (packWord s.nonceOut[4] s.nonceOut[5] s.nonceOut[6] s.nonceOut[7], s) ∧
    memRead 0x078 s = .ok (packWord s.nonceOut[8] s.nonceOut[9] s.nonceOut[10] s.nonceOut[11], s)

/-- R36, R38, R39, R62: while idle a word written to NONCE_IN, SALT_IN or KEY_IN puts its four bytes, the most significant
first, at bytes 4k .. 4k + 3 of the register; its other bytes and the rest of the state are as before. -/
def Obligations.ByteStringWordsPackBigEndian : Prop :=
  ∀ (s : State) (k : Nat) (v : Word), s.busy = false → s.resetAsserted = false →
    (k < 3 → ∃ t, memWrite (BitVec.ofNat 18 (0x060 + 4 * k)) v s = .ok t ∧ t = { s with nonceIn := t.nonceIn } ∧
      ∀ j : Fin 12, t.nonceIn[j] = if j.val / 4 = k then v.extractLsb' (24 - 8 * (j.val % 4)) 8 else s.nonceIn[j]) ∧
    (k < 4 → ∃ t, memWrite (BitVec.ofNat 18 (0x080 + 4 * k)) v s = .ok t ∧ t = { s with saltIn := t.saltIn } ∧
      ∀ j : Fin 16, t.saltIn[j] = if j.val / 4 = k then v.extractLsb' (24 - 8 * (j.val % 4)) 8 else s.saltIn[j]) ∧
    (k < 8 → ∃ t, memWrite (BitVec.ofNat 18 (0x0A0 + 4 * k)) v s = .ok t ∧ t = { s with keyIn := t.keyIn } ∧
      ∀ j : Fin 32, t.keyIn[j] = if j.val / 4 = k then v.extractLsb' (24 - 8 * (j.val % 4)) 8 else s.keyIn[j])

/-- R21, R67: while idle a write to a read-only register or to the OUT window changes nothing, and a write-only register
or a word of the PW window reads 0. That an ignored write gets no error is the model's choice (log entry 13). -/
def Obligations.ReadOnlyAndWriteOnlyWords : Prop :=
  ∀ (s : State) (o : BitVec 18) (l : Loc), s.busy = false → s.resetAsserted = false → o.toNat % 4 = 0 →
    locate o.toNat = some l →
    (((∃ r, l = .reg r ∧ r.access = .ro) ∨ ∃ i, l = .out i) → ∀ v, memWrite o v s = .ok s) ∧
    (((∃ r, l = .reg r ∧ r.access = .wo) ∨ ∃ i, l = .pw i) → memRead o s = .ok (0, s))

/-- R62, R67: while idle a word written to the DATA_IN or PW window puts its four bytes, the most significant first, at
the four bytes of the buffer there; every other byte of the buffer and every other part of the state is as before. -/
def Obligations.WindowsPackBigEndian : Prop :=
  ∀ (s : State) (i : Nat) (v : Word), s.busy = false → s.resetAsserted = false → i % 4 = 0 →
    (i < Config.bufBytes → s.dataIn.wf = true →
      ∃ t, memWrite (BitVec.ofNat 18 (0x10000 + i)) v s = .ok t ∧ t = { s with dataIn := t.dataIn } ∧
        (∀ a, t.dataIn.read a =
          if a = i then v.extractLsb' 24 8 else if a = i + 1 then v.extractLsb' 16 8
          else if a = i + 2 then v.extractLsb' 8 8 else if a = i + 3 then v.extractLsb' 0 8 else s.dataIn.read a) ∧
        memRead (BitVec.ofNat 18 (0x10000 + i)) t = .ok (v, t)) ∧
    (i < Config.pwBytes → s.pw.wf = true →
      ∃ t, memWrite (BitVec.ofNat 18 (0x00400 + i)) v s = .ok t ∧ t = { s with pw := t.pw } ∧
        ∀ a, t.pw.read a =
          if a = i then v.extractLsb' 24 8 else if a = i + 1 then v.extractLsb' 16 8
          else if a = i + 2 then v.extractLsb' 8 8 else if a = i + 3 then v.extractLsb' 0 8 else s.pw.read a) ∧
    (i < Config.outBytes →
      memRead (BitVec.ofNat 18 (0x20000 + i)) s =
        .ok (packWord (s.out.read i) (s.out.read (i + 1)) (s.out.read (i + 2)) (s.out.read (i + 3)), s))

/-- R25: a host write to STATUS while idle clears DONE and WBUSY where it has a 1, and changes no other bit. -/
def Obligations.StatusWriteOneToClear : Prop :=
  ∀ (s : State) (v : Word), s.busy = false → s.resetAsserted = false →
    ∃ t, memWrite 0x010 v s = .ok t ∧
      (t.done = true ↔ s.done = true ∧ v.getLsbD 1 = false) ∧ (t.wbusy = true ↔ s.wbusy = true ∧ v.getLsbD 4 = false) ∧
      t = { s with done := t.done, wbusy := t.wbusy }

/-- R46, R25: the IRQ output is DONE AND CTRL.IRQ_EN in every state and is mirrored in STATUS.IRQ; STATUS reads its other
flags too, busy or not, and its reserved bits read 0. -/
def Obligations.StatusReadsItsFlags : Prop :=
  ∀ s : State, s.irq = (s.done && s.ctrl.getLsbD 3) ∧
    (s.resetAsserted = false → ∃ w, memRead 0x010 s = .ok (w, s) ∧
      w.getLsbD 0 = s.busy ∧ w.getLsbD 1 = s.done ∧ w.getLsbD 2 = s.err ∧ w.getLsbD 3 = s.fatal ∧
      w.getLsbD 4 = s.wbusy ∧ w.getLsbD 5 = s.irq ∧ w.toNat < 64)

/-- R53: while busy every host write to an assigned offset is dropped and only WBUSY is set; one to an unassigned offset,
busy or not, gets the bus error and does not set it. That a dropped write is answered without error is the model's choice
(log entry 13). -/
def Obligations.WritesWhileBusyAreDropped : Prop :=
  ∀ (s : State) (o : BitVec 18) (v : Word), s.resetAsserted = false →
    (Assigned o.toNat → s.busy = true → busAccess ⟨.write v, o, 4⟩ s = (.accepted, { s with wbusy := true })) ∧
    (¬ Assigned o.toNat → busAccess ⟨.write v, o, 4⟩ s = (.error (.busError o), s))

/-- R54: while busy ID, VERSION, CTRL, CMD, STATUS and CMD_COUNT read their current values and every other word reads a
draw, the next free value (log entries 8 and 9); while idle every word reads its value. -/
def Obligations.ReadsWhileBusyAreDrawn : Prop :=
  ∀ (s : State) (o : BitVec 18) (l : Loc), s.resetAsserted = false → o.toNat % 4 = 0 → locate o.toNat = some l →
    (s.busy = true →
      ((l = .reg .id ∨ l = .reg .version ∨ l = .reg .ctrl ∨ l = .reg .cmd ∨ l = .reg .status ∨ l = .reg .cmdCount) →
        memRead o s = .ok (readLoc s l, s)) ∧
      (¬ (l = .reg .id ∨ l = .reg .version ∨ l = .reg .ctrl ∨ l = .reg .cmd ∨ l = .reg .status ∨ l = .reg .cmdCount) →
        memRead o s = .ok (Config.busyRead s.draws, { s with draws := s.draws + 1 }))) ∧
    (s.busy = false → memRead o s = .ok (readLoc s l, s))

/-- R76, R66: no host access while busy changes anything but WBUSY (and the model's counter of free values, log entry
8), so a command acts on its operands as they stood at acceptance; and no read changes anything but that counter. -/
def Obligations.OperandsAreFrozenWhileBusy : Prop :=
  ∀ (acc : Access) (s : State),
    (s.busy = true → (busAccess acc s).2 =
      { s with wbusy := (busAccess acc s).2.wbusy, draws := (busAccess acc s).2.draws }) ∧
    (acc.kind = .read → (busAccess acc s).2 = { s with draws := (busAccess acc s).2.draws })

/-- R255, R39, R41, R43: KEY_IN, PW and KEY_INT cannot be read: in two states that differ in them alone, every host
access gets the same answer and leaves states that again differ in them alone. While busy a drawn read gets the same
answer in both because a draw is a function of the counter `draws` alone, not of the secrets: that part is the model's
choice (log entries 8 and 9), since R54 gives a draw under no law. -/
def Obligations.SecretsCannotBeRead : Prop :=
  ∀ (acc : Access) (s : State) (k ki : Bytes32) (p : Memory),
    let u : State := { s with keyIn := k, keyInt := ki, pw := p }
    (busAccess acc u).1 = (busAccess acc s).1 ∧
    (busAccess acc u).2 =
      { (busAccess acc s).2 with
        keyIn := (busAccess acc u).2.keyIn, keyInt := ki, pw := (busAccess acc u).2.pw }

/-! ## Steps -/

/-- R249, R72: a host write that meets a command in progress may come first or second, and both outcomes are runs of
the model, for every command word and every write the HOST's program can make: after the ENGINE step the write is done
on its result `t`; before it, the write is dropped and the command's effect is `t` all the same, with WBUSY set. The
last clause is one case with its values: a write to CRC_ACC against CRC_INIT. That the order is data of the state, and
that a dropped or ignored write is answered without error, are the model's choices (log entries 1, 3 and 13). -/
def Obligations.EitherOrderOfHostAndEngine : Prop :=
  ∀ (s : State) (l : Loc) (v : Word) (p : List Stmt), s.busy = true → s.resetAsserted = false → l.wellFormed = true →
    s.program = .wr l (.imm v) :: p →
    ∃ t u : State, step { s with turns := [.engine] } = .next t ∧ t.busy = false ∧
      memWrite (BitVec.ofNat 18 l.offset) v t = .ok u ∧
      Host.Core.run Sys2Proof.core 2 { s with turns := [.engine, .host] } =
        .next { u with program := p, response := some .accepted } ∧
      Host.Core.run Sys2Proof.core 2 { s with turns := [.host, .engine] } =
        .next { t with program := p, response := some .accepted, wbusy := true } ∧
      (s.fatal = false → s.cmd = 0x00000001 → l = .reg .crcAcc → u.crcAcc = v ∧ t.crcAcc = 0xFFFFFFFF)

/-- R245, R280: STATUS.FATAL stays set through every step but the assertion of reset. -/
def Obligations.OnlyResetLeavesFatal : Prop :=
  ∀ s t : State, step s = .next t → s.fatal = true → t.fatal = true ∨ s.turns.head? = some .assertReset

/-- R35: CMD_COUNT is incremented by 1 modulo 2^32 exactly at a completion, whatever the result code. -/
def Obligations.CmdCountCountsCompletions : Prop :=
  ∀ s t : State, step s = .next t → s.turns.head? ≠ some .assertReset →
    (s.busy = true ∧ t.busy = false ∧ t.cmdCount = s.cmdCount + 1) ∨
    ((s.busy = true → t.busy = true) ∧ t.cmdCount = s.cmdCount)

/-- R26, R48: RESULT, ERR and FATAL are written only by a completion, or by reset; acceptance only clears ERR. -/
def Obligations.ResultWrittenOnlyAtCompletion : Prop :=
  ∀ s t : State, step s = .next t → s.turns.head? ≠ some .assertReset → ¬ (s.busy = true ∧ t.busy = false) →
    t.result = s.result ∧ t.fatal = s.fatal ∧ (t.err = s.err ∨ (s.busy = false ∧ t.busy = true ∧ t.err = false))

/-- R290, R31: while a command is in progress CRC_ACC changes only at the completion of CRC_INIT or CRC_UPDATE, or at
reset: the frame commands never disturb it. -/
def Obligations.OnlyCrcCommandsChangeCrcAcc : Prop :=
  ∀ s t : State, step s = .next t → s.busy = true → s.turns.head? ≠ some .assertReset → t.crcAcc ≠ s.crcAcc →
    t.busy = false ∧ s.fatal = false ∧ (s.cmd = 0x00000001 ∨ s.cmd = 0x00000002)

/-- R40: DATA_IN changes only by a host write while idle, by ZEROIZE or fatal(), which clear it, or by reset. -/
def Obligations.DataInChangesOnlyByHostOrClearing : Prop :=
  ∀ s t : State, step s = .next t → s.turns.head? ≠ some .assertReset → s.busy = true → t.dataIn ≠ s.dataIn →
    t.busy = false ∧ (∀ j, t.dataIn.read j = 0) ∧ (s.cmd = 0x00000030 ∨ (s.fatal = false ∧ t.fatal = true))

/-- No step ends in a fault, and the only refusal is of a HOST statement that R102 says is not a program (R240: no error
halts the machine; the model's convention of log entry 3). -/
def Obligations.StepsNeverStopTheBlock : Prop :=
  ∀ s : State, (∃ t, step s = .next t) ∨
    ∃ x l p, step s = .refused (.unwrittenVariable x) ∧ s.program = .wr l (.var x) :: p ∧
      varValue s.vars x = none

/-- R102: a program that writes no unwritten variable keeps that form at every step, and no step is refused. That a
program goes on after a bus error, and that an RD so answered still writes its variable, is the model's choice (log
entries 3 and 10). -/
def Obligations.ProgramsStayWellFormed : Prop :=
  ∀ s : State, HostReady s → ∃ t, step s = .next t ∧ HostReady t

/-- R103: RUN on an idle block: one HOST turn issues the command, one ENGINE step performs it, one HOST turn sees it done.
The order with no turns given and the recorded answer are the model's choice (log entries 1 and 3). -/
def Obligations.RunIssuesPerformsAndWaits : Prop :=
  ∀ (s : State) (i : Instr) (p : List Stmt), s.busy = false → s.fatal = false → s.resetAsserted = false →
    s.turns = [] → s.program = stmtRun i ++ p →
    ∃ t u, exec i { s with cmd := encode i, busy := true, done := false, err := false, program := stmtWait ++ p,
                           response := some .accepted } = .next t ∧
      Host.Core.run Sys2Proof.core 3 s = .next u ∧
      u = { t with program := p, response := some (.data t.statusWord) }

/-- R293: an accepted command completes: with the HOST's program well-formed and reset not asserted among the turns given,
the ENGINE's step comes within one more step than there are turns: the model's form of fairness (log entries 1 and 19). -/
def Obligations.AcceptedCommandCompletes : Prop :=
  ∀ s : State, s.busy = true → HostReady s → .assertReset ∉ s.turns →
    ∃ k t, k ≤ s.turns.length + 1 ∧ Host.Core.run Sys2Proof.core k s = .next t ∧ t.busy = false ∧ t.done = true ∧
      t.cmdCount = s.cmdCount + 1

/-! ## Reset and the invariant -/

/-- R281: what reset leaves, read as software reads it; the work factor is KDF_COST_RESET, and valid. -/
def Obligations.ResetLeavesTheResetState : Prop :=
  (∀ r : Reg, readReg State.reset r =
    if r = .id then 0x43414348 else if r = .version then 0x00000007
    else if r = .crcAcc then 0xFFFFFFFF
    else if r = .kdfCost 0 then Config.kdfCostReset.c0 else if r = .kdfCost 1 then Config.kdfCostReset.c1
    else if r = .kdfCost 2 then Config.kdfCostReset.c2 else 0) ∧
  Config.kdfParamsValid State.reset.kdfCost = true ∧ Zeroized State.reset ∧ State.reset.irq = false

/-- R282, R283: asserting reset in any state, a command in progress included, leaves every register and buffer at its
reset value, with no completion; releasing it leaves the block idle in that state. That the block is in that state
already while reset is asserted, that the order of the agents survives, and that the release changes nothing more, are
the model's choice (log entry 12). -/
def Obligations.ResetAbandonsAndErases : Prop :=
  ∀ (s : State) (ts : List Turn),
    ∃ t, step { s with turns := .assertReset :: ts } = .next t ∧ t.resetAsserted = true ∧ t.turns = ts ∧
      (∀ r, readReg t r = readReg State.reset r) ∧ Zeroized t ∧ t.busy = false ∧ t.fatal = false ∧ t.cmdCount = 0 ∧
      step { t with turns := [.releaseReset] } = .next { t with turns := [], resetAsserted := false }

/-- R281: the invariant holds at reset. -/
def Obligations.InvariantAtReset : Prop := Inv State.reset

/-- R22, R26, R28, R30, R43, R52, R101, R244, R280: every step, of either agent or of the reset input, keeps the
invariant, from every state that has it. Two of its clauses are the model's choices: the canonical form of the buffers
(log entry 11), and that the block is in its reset state already while reset is asserted (log entry 12). -/
def Obligations.StepKeepsInvariant : Prop := ∀ s t : State, Inv s → step s = .next t → Inv t
end

