-- ==== Sys2Proof/Laws/Config.lean ====
section
/-! SUPPORT. What is known of the parameters (00_scope R9, R10, R12). -/

namespace Sys2Proof.Config

/-- R10: 16 <= BUF_BYTES <= 65536 and BUF_BYTES mod 4 = 0. -/
theorem bufBytes_range : 16 ≤ bufBytes ∧ bufBytes ≤ 65536 ∧ bufBytes % 4 = 0 := by
  have := Nat.mod_lt bufChoice (show 0 < 16381 by decide)
  unfold bufBytes
  omega

/-- R10: every legal BUF_BYTES is reached by some choice. -/
theorem bufBytes_covers (n : Nat) (h : 16 ≤ n ∧ n ≤ 65536 ∧ n % 4 = 0) : ∃ c, 4 * (c % 16381) + 16 = n :=
  ⟨(n - 16) / 4, by rw [Nat.mod_eq_of_lt (by omega)]; omega⟩

/-- R10: 4 <= PW_BYTES <= 256 and PW_BYTES mod 4 = 0. -/
theorem pwBytes_range : 4 ≤ pwBytes ∧ pwBytes ≤ 256 ∧ pwBytes % 4 = 0 := by
  have := Nat.mod_lt pwChoice (show 0 < 64 by decide)
  unfold pwBytes
  omega

/-- R10: every legal PW_BYTES is reached by some choice. -/
theorem pwBytes_covers (n : Nat) (h : 4 ≤ n ∧ n ≤ 256 ∧ n % 4 = 0) : ∃ c, 4 * (c % 64) + 4 = n :=
  ⟨(n - 4) / 4, by rw [Nat.mod_eq_of_lt (by omega)]; omega⟩

/-- R12: KdfParamsValid(KDF_COST_RESET) = true. -/
@[simp] theorem kdfParamsValid_reset : kdfParamsValid kdfCostReset = true := by simp [kdfParamsValid]

/-- R12: the form of `kdfParamsValid` loses no predicate that holds of KDF_COST_RESET. -/
theorem kdfParamsValid_covers (p : Cost → Bool) (h : p kdfCostReset = true) (c : Cost) :
    (decide (c = kdfCostReset) || p c) = p c := by
  by_cases hc : c = kdfCostReset
  · simp [hc, h]
  · simp [hc]

/-- R9: BASE is a multiple of 0x40000. -/
theorem base_aligned : base % 0x40000 = 0 := Nat.mul_mod_right _ _

end Sys2Proof.Config
end

