-- ==== Sys2Proof/Laws/Bytes.lean ====
section
/-! SUPPORT. Laws of the byte-order conversions and the byte-string helpers. -/

namespace Sys2Proof.Machine

@[simp] theorem be32_length (v : Word) : (be32 v).length = 4 := rfl

@[simp] theorem be64_length (v : BitVec 64) : (be64 v).length = 8 := by simp [be64]

@[simp] theorem ofBlock_length (x : Block128) : (ofBlock x).length = 16 := by simp [ofBlock]

@[simp] theorem zeros_length (n : Nat) : (zeros n).length = n := by simp [zeros]

@[simp] theorem xorBytes_length (x y : Bytes) : (xorBytes x y).length = min x.length y.length := by simp [xorBytes]

@[simp] theorem slice_length (b : Bytes) (i j : Nat) : (slice b i j).length = min (j - i) (b.length - i) := by
  simp [slice]

/-- R15: packing the bytes of a word gives the word back. -/
@[simp] theorem packWord_bytes (v : Word) :
    packWord (v.extractLsb' 24 8) (v.extractLsb' 16 8) (v.extractLsb' 8 8) (v.extractLsb' 0 8) = v := by
  apply BitVec.eq_of_getLsbD_eq
  intro i hi
  simp only [packWord, BitVec.getLsbD_append, BitVec.getLsbD_extractLsb']
  split
  · simp_all
  · split
    · rename_i h1 h2
      have : i - 8 < 8 := h2
      simp only [this, decide_true, Bool.true_and]; congr 1; omega
    · split
      · rename_i h1 h2 h3
        have : i - 8 - 8 < 8 := h3
        simp only [this, decide_true, Bool.true_and]; congr 1; omega
      · have : i - 8 - 8 - 8 < 8 := by omega
        simp only [this, decide_true, Bool.true_and]; congr 1; omega

/-- R15: `BE32^-1` undoes `BE32`. -/
@[simp] theorem ofBe32_be32 (v : Word) : ofBe32 (be32 v) = v := by simp [ofBe32, be32]

theorem extract_packWord (b0 b1 b2 b3 : Byte) :
    (packWord b0 b1 b2 b3).extractLsb' 24 8 = b0 ∧ (packWord b0 b1 b2 b3).extractLsb' 16 8 = b1 ∧
      (packWord b0 b1 b2 b3).extractLsb' 8 8 = b2 ∧ (packWord b0 b1 b2 b3).extractLsb' 0 8 = b3 := by
  refine ⟨?_, ?_, ?_, ?_⟩ <;>
  · apply BitVec.eq_of_getLsbD_eq
    intro i hi
    simp only [packWord, BitVec.getLsbD_append, BitVec.getLsbD_extractLsb', hi, decide_true, Bool.true_and]
    repeat' split
    all_goals first | omega | (congr 1; omega)

/-- R15: `BE32` undoes `BE32^-1` on four bytes. -/
@[simp] theorem be32_packWord (b0 b1 b2 b3 : Byte) : be32 (packWord b0 b1 b2 b3) = [b0, b1, b2, b3] := by
  obtain ⟨h0, h1, h2, h3⟩ := extract_packWord b0 b1 b2 b3
  simp [be32, h0, h1, h2, h3]

/-- R14: exclusive-or with the same bytes twice gives the bytes back, as far as the shorter goes. -/
theorem xorBytes_xorBytes (x y : Bytes) : xorBytes (xorBytes x y) y = x.take y.length := by
  induction x generalizing y with
  | nil => simp [xorBytes]
  | cons a x ih =>
    cases y with
    | nil => simp [xorBytes]
    | cons b y =>
      have := ih y
      simp only [xorBytes, List.zipWith_cons_cons, List.length_cons, List.take_succ_cons] at this ⊢
      rw [this]; congr 1
      rw [BitVec.xor_assoc, BitVec.xor_self, BitVec.xor_zero]

end Sys2Proof.Machine
end

