-- ==== Sys2Proof/Laws/Memory.lean ====
section
/-! SUPPORT. Laws of the buffers: read after write, the canonical form, and the primitive `OUT <- b`. -/

namespace Sys2Proof.Machine

@[simp] theorem Memory.read_nil (a : Nat) : Memory.read [] a = 0 := rfl

theorem Memory.read_cons (k : Nat) (c : Byte) (m : Memory) (a : Nat) :
    Memory.read ((k, c) :: m) a = if k = a then c else Memory.read m a := rfl

theorem Memory.wfFrom_cons (lo k : Nat) (c : Byte) (m : Memory) :
    Memory.wfFrom lo ((k, c) :: m) = true ↔ lo ≤ k ∧ c ≠ 0 ∧ Memory.wfFrom (k + 1) m = true := by
  simp [Memory.wfFrom, and_assoc]

theorem Memory.wfFrom_mono {m : Memory} {lo lo' : Nat} (h : lo' ≤ lo) (hm : m.wfFrom lo = true) :
    m.wfFrom lo' = true := by
  cases m with
  | nil => rfl
  | cons c m =>
    rw [Memory.wfFrom_cons] at hm ⊢
    exact ⟨by omega, hm.2⟩

/-- Below its first listed index a canonical buffer reads 0. -/
theorem Memory.read_below {m : Memory} {lo a : Nat} (hm : m.wfFrom lo = true) (h : a < lo) : m.read a = 0 := by
  induction m generalizing lo with
  | nil => rfl
  | cons c m ih =>
    rw [Memory.wfFrom_cons] at hm
    rw [Memory.read_cons, if_neg (by omega), ih hm.2.2 (by omega)]

/-- Read after write: the byte written, and every other byte as before. -/
theorem Memory.read_write_from {m : Memory} {lo : Nat} (hm : m.wfFrom lo = true) (a : Nat) (b : Byte) (a' : Nat) :
    (m.write a b).read a' = if a' = a then b else m.read a' := by
  induction m generalizing lo with
  | nil =>
    rw [Memory.write]
    by_cases hb : b = 0
    · rw [if_pos hb, Memory.read_nil, hb, ite_self]
    · rw [if_neg hb, Memory.read_cons, Memory.read_nil]
      by_cases ha : a' = a
      · rw [if_pos ha, if_pos ha.symm]
      · rw [if_neg ha, if_neg (Ne.symm ha)]
  | cons c m ih =>
    obtain ⟨k, c⟩ := c
    rw [Memory.wfFrom_cons] at hm
    obtain ⟨h1, h2, h3⟩ := hm
    by_cases hlt : a < k
    · have hr : ∀ x, x < k → Memory.read ((k, c) :: m) x = 0 := fun x hx => by
        rw [Memory.read_cons, if_neg (by omega), Memory.read_below h3 (by omega)]
      by_cases hb : b = 0
      · simp only [Memory.write, if_pos hlt, if_pos hb]
        by_cases ha : a' = a
        · rw [if_pos ha, ha, hr a hlt, hb]
        · rw [if_neg ha]
      · simp only [Memory.write, if_pos hlt, if_neg hb]
        rw [Memory.read_cons]
        by_cases ha : a' = a
        · simp [ha]
        · rw [if_neg (Ne.symm ha), if_neg ha]
    · by_cases heq : a = k
      · subst heq
        by_cases hb : b = 0
        · simp only [Memory.write, if_neg hlt, if_pos hb, if_true]
          by_cases ha : a' = a
          · rw [if_pos ha, ha, Memory.read_below h3 (by omega), hb]
          · rw [if_neg ha, Memory.read_cons, if_neg (Ne.symm ha)]
        · simp only [Memory.write, if_neg hlt, if_neg hb, if_true]
          by_cases ha : a' = a
          · simp [ha, Memory.read_cons]
          · rw [if_neg ha, Memory.read_cons, Memory.read_cons, if_neg (Ne.symm ha), if_neg (Ne.symm ha)]
      · simp only [Memory.write, if_neg hlt, if_neg heq]
        rw [Memory.read_cons, ih h3, Memory.read_cons]
        by_cases hk : k = a'
        · subst hk; simp [Ne.symm heq]
        · simp [hk]

/-- A write keeps the canonical form, from any bound not above the index written. -/
theorem Memory.wfFrom_write {m : Memory} {lo a : Nat} (b : Byte) (hm : m.wfFrom lo = true) (ha : lo ≤ a) :
    (m.write a b).wfFrom lo = true := by
  induction m generalizing lo with
  | nil =>
    rw [Memory.write]
    split
    · rfl
    · rename_i hb; rw [Memory.wfFrom_cons]; exact ⟨ha, hb, rfl⟩
  | cons c m ih =>
    obtain ⟨k, c⟩ := c
    rw [Memory.wfFrom_cons] at hm
    obtain ⟨h1, h2, h3⟩ := hm
    by_cases hlt : a < k
    · by_cases hb : b = 0
      · simp only [Memory.write, if_pos hlt, if_pos hb]
        rw [Memory.wfFrom_cons]; exact ⟨h1, h2, h3⟩
      · simp only [Memory.write, if_pos hlt, if_neg hb]
        rw [Memory.wfFrom_cons, Memory.wfFrom_cons]; exact ⟨ha, hb, hlt, h2, h3⟩
    · by_cases heq : a = k
      · by_cases hb : b = 0
        · simp only [Memory.write, if_neg hlt, if_pos heq, if_pos hb]
          exact Memory.wfFrom_mono (by omega) h3
        · simp only [Memory.write, if_neg hlt, if_pos heq, if_neg hb]
          rw [Memory.wfFrom_cons]; exact ⟨ha, hb, by rw [heq]; exact h3⟩
      · simp only [Memory.write, if_neg hlt, if_neg heq]
        rw [Memory.wfFrom_cons]; exact ⟨h1, h2, ih h3 (by omega)⟩

theorem Memory.read_write {m : Memory} (hm : m.wf = true) (a : Nat) (b : Byte) (a' : Nat) :
    (m.write a b).read a' = if a' = a then b else m.read a' := Memory.read_write_from hm a b a'

/-- Every write keeps the canonical form. -/
theorem Memory.wf_write {m : Memory} (hm : m.wf = true) (a : Nat) (b : Byte) : (m.write a b).wf = true :=
  Memory.wfFrom_write b hm (Nat.zero_le a)

theorem Memory.wf_writeWord {m : Memory} (hm : m.wf = true) (i : Nat) (w : Word) : (m.writeWord i w).wf = true :=
  Memory.wf_write (Memory.wf_write (Memory.wf_write (Memory.wf_write hm _ _) _ _) _ _) _ _

/-- 20_memory R62: what each byte reads as after a word was written. -/
theorem Memory.read_writeWord {m : Memory} (hm : m.wf = true) (i : Nat) (w : Word) (a : Nat) :
    (m.writeWord i w).read a =
      if a = i then w.extractLsb' 24 8 else if a = i + 1 then w.extractLsb' 16 8
      else if a = i + 2 then w.extractLsb' 8 8 else if a = i + 3 then w.extractLsb' 0 8 else m.read a := by
  have h1 := Memory.wf_write hm i (w.extractLsb' 24 8)
  have h2 := Memory.wf_write h1 (i + 1) (w.extractLsb' 16 8)
  have h3 := Memory.wf_write h2 (i + 2) (w.extractLsb' 8 8)
  rw [Memory.writeWord, Memory.read_write h3, Memory.read_write h2, Memory.read_write h1, Memory.read_write hm]
  by_cases e0 : a = i
  · subst e0; simp
  · by_cases e1 : a = i + 1
    · subst e1; simp
    · by_cases e2 : a = i + 2
      · subst e2; simp
      · simp [e0, e1, e2]

/-- 20_memory R62: a word written reads back. -/
theorem Memory.readWord_writeWord {m : Memory} (hm : m.wf = true) (i : Nat) (w : Word) :
    (m.writeWord i w).readWord i = w := by
  simp only [Memory.readWord, Memory.read_writeWord hm]
  simp

/-- Two canonical buffers that read the same everywhere are the same data. -/
theorem Memory.ext_from {m m' : Memory} {lo : Nat} (h : m.wfFrom lo = true) (h' : m'.wfFrom lo = true)
    (hr : ∀ a, m.read a = m'.read a) : m = m' := by
  induction m generalizing m' lo with
  | nil =>
    cases m' with
    | nil => rfl
    | cons c m' =>
      obtain ⟨k, c⟩ := c
      rw [Memory.wfFrom_cons] at h'
      have := hr k
      rw [Memory.read_nil, Memory.read_cons, if_pos rfl] at this
      exact absurd this.symm h'.2.1
  | cons c m ih =>
    obtain ⟨k, c⟩ := c
    rw [Memory.wfFrom_cons] at h
    cases m' with
    | nil =>
      have := hr k
      rw [Memory.read_nil, Memory.read_cons, if_pos rfl] at this
      exact absurd this h.2.1
    | cons c' m' =>
      obtain ⟨k', c'⟩ := c'
      rw [Memory.wfFrom_cons] at h'
      have hk : k = k' := by
        rcases Nat.lt_trichotomy k k' with hlt | heq | hgt
        · have := hr k
          rw [Memory.read_cons, if_pos rfl, Memory.read_cons, if_neg (by omega),
            Memory.read_below h'.2.2 (by omega)] at this
          exact absurd this h.2.1
        · exact heq
        · have := hr k'
          rw [Memory.read_cons, if_neg (by omega), Memory.read_below h.2.2 (by omega), Memory.read_cons,
            if_pos rfl] at this
          exact absurd this.symm h'.2.1
      subst hk
      have hc : c = c' := by simpa [Memory.read_cons] using hr k
      subst hc
      congr 1
      refine ih h.2.2 h'.2.2 fun a => ?_
      have := hr a
      rw [Memory.read_cons, Memory.read_cons] at this
      by_cases ha : k = a
      · rw [Memory.read_below h.2.2 (by omega), Memory.read_below h'.2.2 (by omega)]
      · simpa [ha] using this

/-- Equal memories are equal data. -/
theorem Memory.ext {m m' : Memory} (h : m.wf = true) (h' : m'.wf = true) (hr : ∀ a, m.read a = m'.read a) : m = m' :=
  Memory.ext_from h h' hr

theorem Memory.below_write {m : Memory} {n a : Nat} (b : Byte) (hm : m.below n = true) (ha : a < n) :
    (m.write a b).below n = true := by
  induction m with
  | nil => by_cases hb : b = 0 <;> simp [Memory.write, Memory.below, hb, ha]
  | cons c m ih =>
    obtain ⟨k, c⟩ := c
    simp only [Memory.below, List.all_cons, Bool.and_eq_true, decide_eq_true_eq] at hm ih ⊢
    simp only [Memory.write]
    split
    · split
      · simpa using hm
      · simpa using ⟨ha, by simpa using hm⟩
    · split
      · split
        · exact hm.2
        · simpa using ⟨ha, by simpa using hm.2⟩
      · have := ih hm.2
        simp only [List.all_cons, Bool.and_eq_true, decide_eq_true_eq]
        exact ⟨hm.1, this⟩

/-- A word written inside a capacity keeps the buffer inside it. -/
theorem Memory.below_writeWord {m : Memory} {n i : Nat} (w : Word) (hm : m.below n = true) (hi : i + 3 < n) :
    (m.writeWord i w).below n = true :=
  Memory.below_write _ (Memory.below_write _ (Memory.below_write _ (Memory.below_write _ hm (by omega)) (by omega))
    (by omega)) hi

/-- A buffer inside its capacity reads 0 past it. -/
theorem Memory.read_above {m : Memory} {n a : Nat} (hm : m.below n = true) (h : n ≤ a) : m.read a = 0 := by
  induction m with
  | nil => rfl
  | cons c m ih =>
    simp only [Memory.below, List.all_cons, Bool.and_eq_true, decide_eq_true_eq] at hm ih
    rw [Memory.read_cons, if_neg (by omega)]
    exact ih hm.2

theorem Memory.wfFrom_ofBytesFrom (b : Bytes) (i : Nat) : (Memory.ofBytesFrom i b).wfFrom i = true := by
  induction b generalizing i with
  | nil => rfl
  | cons x b ih =>
    rw [Memory.ofBytesFrom]
    split
    · exact Memory.wfFrom_mono (by omega) (ih (i + 1))
    · rename_i hx; rw [Memory.wfFrom_cons]; exact ⟨le_refl i, hx, ih (i + 1)⟩

/-- The buffer made of a byte string is canonical. -/
@[simp] theorem Memory.wf_ofBytes (b : Bytes) : (Memory.ofBytes b).wf = true := Memory.wfFrom_ofBytesFrom b 0

theorem Memory.below_ofBytesFrom (b : Bytes) (i n : Nat) (h : i + b.length ≤ n) :
    (Memory.ofBytesFrom i b).below n = true := by
  induction b generalizing i with
  | nil => rfl
  | cons x b ih =>
    simp only [List.length_cons] at h
    have := ih (i + 1) (by omega)
    rw [Memory.ofBytesFrom]
    split
    · exact this
    · simp only [Memory.below, List.all_cons, Bool.and_eq_true, decide_eq_true_eq] at this ⊢
      exact ⟨by omega, this⟩

theorem Memory.below_ofBytes (b : Bytes) : (Memory.ofBytes b).below b.length = true :=
  Memory.below_ofBytesFrom b 0 b.length (by omega)

theorem Memory.read_ofBytesFrom (b : Bytes) (i a : Nat) :
    (Memory.ofBytesFrom i b).read a = if a < i then 0 else b.getD (a - i) 0 := by
  induction b generalizing i with
  | nil => simp [Memory.ofBytesFrom]
  | cons x b ih =>
    rw [Memory.ofBytesFrom]
    split
    · rename_i hx
      rw [ih]
      by_cases h : a < i
      · simp [h, show a < i + 1 by omega]
      · by_cases h2 : a = i
        · subst h2; simp [hx]
        · rw [if_neg (by omega), if_neg h, show a - i = (a - (i + 1)) + 1 by omega]; simp
    · rw [Memory.read_cons, ih]
      by_cases h2 : i = a
      · subst h2; simp
      · rw [if_neg h2]
        by_cases h : a < i
        · simp [h, show a < i + 1 by omega]
        · rw [if_neg (by omega), if_neg h, show a - i = (a - (i + 1)) + 1 by omega]; simp

/-- 00_scope R16: what `OUT <- b` leaves: the bytes of `b`, and 0 elsewhere. -/
@[simp] theorem Memory.read_ofBytes (b : Bytes) (a : Nat) : (Memory.ofBytes b).read a = b.getD a 0 := by
  simp [Memory.ofBytes, Memory.read_ofBytesFrom]

@[simp] theorem Memory.ofBytes_nil : Memory.ofBytes [] = [] := rfl

@[simp] theorem Memory.bytes_length (m : Memory) (n : Nat) : (m.bytes n).length = n := by simp [Memory.bytes]

theorem Memory.bytes_getD (m : Memory) (n j : Nat) : (m.bytes n).getD j 0 = if j < n then m.read j else 0 := by
  by_cases h : j < n <;> simp [Memory.bytes, h, List.getD_eq_getElem?_getD]

/-- Two buffers that agree below `n` have the same first `n` bytes. -/
theorem Memory.bytes_congr {m m' : Memory} {n : Nat} (h : ∀ a, a < n → m.read a = m'.read a) : m.bytes n = m'.bytes n :=
  List.map_congr_left fun a ha => h a (List.mem_range.mp ha)

/-- A slice of the input is the bytes read there. -/
theorem Memory.slice_bytes (m : Memory) (n i j : Nat) (h : j ≤ n) :
    slice (m.bytes n) i j = (List.range (j - i)).map fun k => m.read (i + k) := by
  apply List.ext_getElem?
  intro k
  simp only [slice, Memory.bytes, List.getElem?_take, List.getElem?_drop, List.getElem?_map]
  by_cases hk : k < j - i
  · simp [hk, show i + k < n by omega]
  · simp [hk]

end Sys2Proof.Machine
end

