-- ==== Sys2Proof/Laws/Bus.lean ====
section
/-! SUPPORT. Laws of the register map and of host accesses. -/

namespace Sys2Proof.Machine

/-- R21: every register stands at its offset. -/
@[simp] theorem locate_reg (r : Reg) : locate r.offset = some (.reg r) := by
  cases r <;> first | rfl | (rename_i k; revert k; decide)

theorem Reg.offset_lt (r : Reg) : r.offset ≤ 0x0BC ∧ r.offset % 4 = 0 := by
  cases r <;> first | decide | (rename_i k; revert k; decide)

/-- R61: below the PW window an offset is assigned exactly where a register stands. -/
theorem locate_low {a : Nat} (h : a < 0x400) (l : Loc) : locate a = some l ↔ ∃ r, l = .reg r ∧ r.offset = a := by
  constructor
  · intro hl
    rw [locate, if_neg (by unfold outWindow; omega), if_neg (by unfold dataInWindow; omega),
      if_neg (by unfold pwWindow; omega), Option.map_eq_some_iff] at hl
    obtain ⟨r, hr, rfl⟩ := hl
    exact ⟨r, rfl, by simpa using List.find?_some hr⟩
  · rintro ⟨r, rfl, rfl⟩
    exact locate_reg r

/-- R61: the words of the PW window. -/
theorem locate_pw {a i : Nat} (ha : a = pwWindow + i) (h : i < Config.pwBytes) : locate a = some (.pw i) := by
  have := Config.pwBytes_range
  have hi : a - pwWindow = i := by omega
  have h1 : ¬ outWindow ≤ a := by unfold outWindow; unfold pwWindow at ha; omega
  have h2 : ¬ dataInWindow ≤ a := by unfold dataInWindow; unfold pwWindow at ha; omega
  rw [locate, if_neg h1, if_neg h2, if_pos (by omega), hi, if_pos h]

/-- R61: the words of the DATA_IN window. -/
theorem locate_dataIn {a i : Nat} (ha : a = dataInWindow + i) (h : i < Config.bufBytes) :
    locate a = some (.dataIn i) := by
  have := Config.bufBytes_range
  have hi : a - dataInWindow = i := by omega
  have h1 : ¬ outWindow ≤ a := by unfold outWindow; unfold dataInWindow at ha; omega
  rw [locate, if_neg h1, if_pos (by omega), hi, if_pos h]

/-- R61: the words of the OUT window. -/
theorem locate_out {a i : Nat} (ha : a = outWindow + i) (h : i < Config.outBytes) : locate a = some (.out i) := by
  have hi : a - outWindow = i := by omega
  rw [locate, if_pos (by omega), hi, if_pos h]

/-- R61, R69: what an assigned offset holds, and where it is: the one inversion of `locate`. -/
theorem locate_cases {a : Nat} {l : Loc} (h : locate a = some l) :
    (∃ r, l = .reg r ∧ a = r.offset) ∨
    (∃ i, l = .pw i ∧ a = 0x00400 + i ∧ i < Config.pwBytes) ∨
    (∃ i, l = .dataIn i ∧ a = 0x10000 + i ∧ i < Config.bufBytes) ∨
    (∃ i, l = .out i ∧ a = 0x20000 + i ∧ i < Config.outBytes) := by
  unfold locate at h
  split at h
  · rename_i h1
    split at h
    · rename_i h2
      refine .inr (.inr (.inr ⟨a - outWindow, (Option.some.inj h).symm, ?_, h2⟩))
      unfold outWindow at h1 ⊢; omega
    · cases h
  · split at h
    · rename_i h1
      split at h
      · rename_i h2
        refine .inr (.inr (.inl ⟨a - dataInWindow, (Option.some.inj h).symm, ?_, h2⟩))
        unfold dataInWindow at h1 ⊢; omega
      · cases h
    · split at h
      · rename_i h1
        split at h
        · rename_i h2
          refine .inr (.inl ⟨a - pwWindow, (Option.some.inj h).symm, ?_, h2⟩)
          unfold pwWindow at h1 ⊢; omega
        · cases h
      · rw [Option.map_eq_some_iff] at h
        obtain ⟨r, hr, rfl⟩ := h
        have hf := List.find?_some hr
        exact .inl ⟨r, rfl, by simpa using (eq_of_beq hf).symm⟩

/-- R62: a word of a byte-string register reads back as written. -/
theorem wordAt_setWordAt {n : Nat} (v : Vector Byte n) (k : Nat) (w : Word) (h : 4 * k + 3 < n) :
    wordAt (setWordAt v k w) k = w := by
  have h0 : 4 * k < n := by omega
  have h1 : 4 * k + 1 < n := by omega
  have h2 : 4 * k + 2 < n := by omega
  simp [wordAt, setWordAt, h0, h1, h2, h]

/-- R62: writing one word leaves the other words of the register as they were. -/
theorem wordAt_setWordAt_ne {n : Nat} (v : Vector Byte n) (k k' : Nat) (w : Word) (h : k' ≠ k) :
    wordAt (setWordAt v k w) k' = wordAt v k' := by
  have a0 : ∀ i j, i < 4 → j < 4 → 4 * k + i ≠ 4 * k' + j := fun i j hi hj => by omega
  have e00 := a0 0 0; have e01 := a0 0 1; have e02 := a0 0 2; have e03 := a0 0 3
  have e10 := a0 1 0; have e11 := a0 1 1; have e12 := a0 1 2; have e13 := a0 1 3
  have e20 := a0 2 0; have e21 := a0 2 1; have e22 := a0 2 2; have e23 := a0 2 3
  have e30 := a0 3 0; have e31 := a0 3 1; have e32 := a0 3 2; have e33 := a0 3 3
  simp only [wordAt, setWordAt, Vector.getElem?_setIfInBounds]
  simp_all

/-- R62: the bytes of a byte-string register after word `k` was written. -/
theorem getElem_setWordAt {n : Nat} (v : Vector Byte n) (k : Nat) (w : Word) (j : Nat) (h : j < n) :
    (setWordAt v k w)[j] = if j / 4 = k then w.extractLsb' (24 - 8 * (j % 4)) 8 else v[j] := by
  simp only [setWordAt, Vector.getElem_setIfInBounds]
  by_cases hk : j / 4 = k
  · rw [if_pos hk]
    rcases (by omega : j = 4 * k ∨ j = 4 * k + 1 ∨ j = 4 * k + 2 ∨ j = 4 * k + 3) with rfl | rfl | rfl | rfl
    · rw [if_neg (by omega), if_neg (by omega), if_neg (by omega), if_pos rfl, show 4 * k % 4 = 0 by omega]
    · rw [if_neg (by omega), if_neg (by omega), if_pos rfl, show (4 * k + 1) % 4 = 1 by omega]
    · rw [if_neg (by omega), if_pos rfl, show (4 * k + 2) % 4 = 2 by omega]
    · rw [if_pos rfl, show (4 * k + 3) % 4 = 3 by omega]
  · rw [if_neg hk, if_neg (by omega), if_neg (by omega), if_neg (by omega), if_neg (by omega)]

/-- R54, R66: the one inversion of `memRead`: a bus error, a drawn read, or an exact read. -/
theorem memRead_cases (o : BitVec 18) (s : State) :
    (servedAt o s = none ∧ memRead o s = .error (.busError o)) ∨
    ∃ l, servedAt o s = some l ∧
      ((s.busy = true ∧ l.exactWhileBusy = false ∧
          memRead o s = .ok (Config.busyRead s.draws, { s with draws := s.draws + 1 })) ∨
        ((s.busy = false ∨ l.exactWhileBusy = true) ∧ memRead o s = .ok (readLoc s l, s))) := by
  unfold memRead
  cases servedAt o s with
  | none => exact .inl ⟨rfl, rfl⟩
  | some l =>
    refine .inr ⟨l, rfl, ?_⟩
    by_cases hb : s.busy = true
    · by_cases he : l.exactWhileBusy = true
      · exact .inr ⟨.inr he, if_neg fun h => h.2 he⟩
      · exact .inl ⟨hb, by simpa using he, if_pos ⟨hb, he⟩⟩
    · exact .inr ⟨.inl (by simpa using hb), if_neg fun h => hb h.1⟩

/-- R53, R67: the one inversion of `memWrite`: a bus error, a dropped write, or a write. -/
theorem memWrite_cases (o : BitVec 18) (v : Word) (s : State) :
    (servedAt o s = none ∧ memWrite o v s = .error (.busError o)) ∨
    ∃ l, servedAt o s = some l ∧
      ((s.busy = true ∧ memWrite o v s = .ok { s with wbusy := true }) ∨
        (s.busy = false ∧ memWrite o v s = .ok (writeLoc v s l))) := by
  unfold memWrite
  cases servedAt o s with
  | none => exact .inl ⟨rfl, rfl⟩
  | some l =>
    refine .inr ⟨l, rfl, ?_⟩
    by_cases hb : s.busy = true
    · exact .inl ⟨hb, if_pos hb⟩
    · exact .inr ⟨by simpa using hb, if_neg hb⟩

/-- R21, R67: what a write can change; every other field is as before. -/
theorem writeLoc_frame (v : Word) (s : State) (l : Loc) :
    writeLoc v s l =
      { s with
        ctrl := (writeLoc v s l).ctrl, cmd := (writeLoc v s l).cmd, busy := (writeLoc v s l).busy
        done := (writeLoc v s l).done, err := (writeLoc v s l).err, wbusy := (writeLoc v s l).wbusy
        dataLen := (writeLoc v s l).dataLen, pwLen := (writeLoc v s l).pwLen
        typeCode := (writeLoc v s l).typeCode, crcAcc := (writeLoc v s l).crcAcc
        kdfCost := (writeLoc v s l).kdfCost, nonceIn := (writeLoc v s l).nonceIn
        saltIn := (writeLoc v s l).saltIn, keyIn := (writeLoc v s l).keyIn
        dataIn := (writeLoc v s l).dataIn, pw := (writeLoc v s l).pw } := by
  cases l with
  | reg r =>
    cases r with
    | kdfCost k => obtain ⟨k, hk⟩ := k; match k, hk with | 0, _ => rfl | 1, _ => rfl | 2, _ => rfl
    | _ => rfl
  | _ => rfl

theorem servedAt_eq_some {o : BitVec 18} {s : State} {l : Loc} :
    servedAt o s = some l ↔ s.resetAsserted = false ∧ o.toNat % 4 = 0 ∧ locate o.toNat = some l := by
  unfold servedAt
  split
  · rename_i h
    refine ⟨by simp, fun ⟨h1, h2, _⟩ => ?_⟩
    rcases h with h | h
    · simp [h1] at h
    · exact absurd h2 h
  · rename_i h
    simp only [not_or, Bool.not_eq_true, not_not] at h
    exact ⟨fun hl => ⟨h.1, h.2, hl⟩, fun hl => hl.2.2⟩

/-- R65-R68, R71: everything one host access can do to the state: nothing, count a free value, set WBUSY, or write a
word of an idle block. -/
theorem busAccess_state (a : Access) (s : State) :
    (busAccess a s).2 = s ∨
    (s.busy = true ∧ (busAccess a s).2 = { s with draws := s.draws + 1 }) ∨
    (s.busy = true ∧ (busAccess a s).2 = { s with wbusy := true }) ∨
    ∃ l v, s.busy = false ∧ s.resetAsserted = false ∧ a.offset.toNat % 4 = 0 ∧ locate a.offset.toNat = some l ∧
      (busAccess a s).2 = writeLoc v s l := by
  unfold busAccess
  split
  · exact .inl rfl
  · split
    · exact .inl rfl
    · rcases memRead_cases a.offset s with ⟨_, h⟩ | ⟨l, _, ⟨hb, _, h⟩ | ⟨_, h⟩⟩
      · rw [h]; exact .inl rfl
      · rw [h]; exact .inr (.inl ⟨hb, rfl⟩)
      · rw [h]; exact .inl rfl
    · rename_i v _
      rcases memWrite_cases a.offset v s with ⟨_, h⟩ | ⟨l, hl, ⟨hb, h⟩ | ⟨hb, h⟩⟩
      · rw [h]; exact .inl rfl
      · rw [h]; exact .inr (.inr (.inl ⟨hb, rfl⟩))
      · rw [h]
        obtain ⟨h1, h2, h3⟩ := servedAt_eq_some.mp hl
        exact .inr (.inr (.inr ⟨l, v, hb, h1, h2, h3, rfl⟩))

end Sys2Proof.Machine
end

