-- ==== Sys2Proof/Laws/ChunkType.lean ====
section
/-! SUPPORT. Laws of letters and property bits (00_scope R18, 40_chunk_type R120). -/

namespace Sys2Proof.Machine

/-- R18: a letter, by its number. -/
theorem isAlpha_iff (c : Byte) :
    isAlpha c = true ↔ (0x41 ≤ c.toNat ∧ c.toNat ≤ 0x5A) ∨ (0x61 ≤ c.toNat ∧ c.toNat ≤ 0x7A) := by
  simp only [isAlpha, BitVec.le_def, Bool.or_eq_true, Bool.and_eq_true, decide_eq_true_eq]
  exact Iff.rfl

/-- R120: ALPHA of four bytes. -/
theorem allAlpha_four (a b c d : Byte) :
    allAlpha [a, b, c, d] = (isAlpha a && isAlpha b && isAlpha c && isAlpha d) := rfl

/-- R120: each property bit, and that bits 31:6 are 0. -/
theorem props_bits (t : Bytes) :
    (props t).getLsbD 0 = allAlpha t ∧ (props t).getLsbD 1 = !(t.getD 0 0).getLsbD 5 ∧
      (props t).getLsbD 2 = !(t.getD 1 0).getLsbD 5 ∧ (props t).getLsbD 3 = !(t.getD 2 0).getLsbD 5 ∧
      (props t).getLsbD 4 = (t.getD 3 0).getLsbD 5 ∧
      (props t).getLsbD 5 = (!(t.getD 2 0).getLsbD 5 && allAlpha t) ∧ (props t).toNat < 64 := by
  unfold props
  generalize allAlpha t = a
  generalize (t.getD 0 0).getLsbD 5 = b0
  generalize (t.getD 1 0).getLsbD 5 = b1
  generalize (t.getD 2 0).getLsbD 5 = b2
  generalize (t.getD 3 0).getLsbD 5 = b3
  revert a b0 b1 b2 b3
  decide

end Sys2Proof.Machine
end

