-- ==== Sys2Proof/Laws/Crc.lean ====
section
/-! SUPPORT. Laws of the CRC engine (41_crc_frame R141, R143): each part of the byte step loses nothing. -/

namespace Sys2Proof.Machine

/-- R141: the bit step tells its inputs apart: bit 31 of the result is bit 0 of the input. -/
theorem crcShift_inj {a b : Word} (h : crcShift a = crcShift b) : a = b := by
  have top : ∀ x : Word, (crcShift x).getLsbD 31 = x.getLsbD 0 := by
    intro x
    unfold crcShift
    cases hx : x.getLsbD 0 <;> simp
  have h0 : a.getLsbD 0 = b.getLsbD 0 := by rw [← top, ← top, h]
  have hs : a >>> 1 = b >>> 1 := by
    unfold crcShift at h
    rw [h0] at h
    split at h
    · exact BitVec.xor_left_inj _ |>.mp h
    · exact h
  apply BitVec.eq_of_getLsbD_eq
  intro i _
  cases i with
  | zero => exact h0
  | succ i =>
    have := congrArg (fun x : Word => x.getLsbD i) hs
    simpa [BitVec.getLsbD_ushiftRight, Nat.add_comm] using this

theorem crcShift_repeat_inj (n : Nat) {a b : Word} (h : Nat.repeat crcShift n a = Nat.repeat crcShift n b) : a = b := by
  induction n with
  | zero => exact h
  | succ n ih => exact ih (crcShift_inj h)

/-- R141: the byte step tells accumulators apart. -/
theorem crcStep_inj_acc {a b : Word} {x : Byte} (h : crcStep a x = crcStep b x) : a = b :=
  BitVec.xor_left_inj _ |>.mp (crcShift_repeat_inj 8 h)

/-- R141: the byte step tells bytes apart. -/
theorem crcStep_inj_byte {a : Word} {x y : Byte} (h : crcStep a x = crcStep a y) : x = y := by
  have := BitVec.xor_right_inj _ |>.mp (crcShift_repeat_inj 8 h)
  have := congrArg (BitVec.setWidth 8) this
  simpa using this

/-- R141: folding tells accumulators apart. -/
theorem crcFold_inj_acc (bs : Bytes) {a b : Word} (h : crcFold a bs = crcFold b bs) : a = b := by
  induction bs generalizing a b with
  | nil => exact h
  | cons x bs ih => exact crcStep_inj_acc (ih h)

theorem crcFold_append (acc : Word) (a b : Bytes) : crcFold acc (a ++ b) = crcFold (crcFold acc a) b := by
  simp [crcFold]

/-- R142: two sequences that differ in one byte have different CRCs. -/
theorem crc32_ne_of_byte (a b : Bytes) {x y : Byte} (h : x ≠ y) : crc32 (a ++ x :: b) ≠ crc32 (a ++ y :: b) := by
  intro hc
  have hc := BitVec.not_inj.mp hc
  rw [crcFold_append, crcFold_append] at hc
  exact h (crcStep_inj_byte (crcFold_inj_acc b hc))

end Sys2Proof.Machine
end

