-- ==== Sys2Proof/Laws/Decode.lean ====
section
/-! SUPPORT. Laws of the decoder and the encoder (30_encoding R90-R93). -/

namespace Sys2Proof

/-- R93: no two commands share an operation code. -/
theorem Instr.opc_inj (i j : Instr) (h : i.opc = j.opc) : i = j := by
  revert h; cases i <;> cases j <;> decide

/-- R93: the list of rows has every command. -/
theorem Instr.mem_all (i : Instr) : i ∈ Instr.all := by cases i <;> decide

/-- R92, R93: a word decodes to a command exactly when its MBZ field is 0 and its OPC field is the command's. -/
theorem decode_iff (w : Word) (i : Instr) : decode w = .ok i ↔ mbzField w = 0 ∧ opcField w = i.opc := by
  unfold decode
  split
  · rename_i h
    simp only [h, true_and]
    cases hf : Instr.all.find? (fun i => i.opc == opcField w) with
    | none =>
      have := List.find?_eq_none.mp hf i i.mem_all
      simp only [reduceCtorEq, false_iff]
      intro he; exact this (by simp [he])
    | some j =>
      have := List.find?_some hf
      simp only [beq_iff_eq] at this
      simp only [Except.ok.injEq]
      exact ⟨fun h => h ▸ this.symm, fun he => Instr.opc_inj _ _ (this.trans he)⟩
  · rename_i h
    exact ⟨(fun hc => nomatch hc), (fun hc => absurd hc.1 h)⟩

/-- R90: a word is its two fields. -/
theorem fields_append (w : Word) : mbzField w ++ opcField w = w := by
  apply BitVec.eq_of_getLsbD_eq
  intro i hi
  simp only [mbzField, opcField, BitVec.getLsbD_append, BitVec.getLsbD_extractLsb']
  split
  · simp_all
  · rename_i h
    have : i - 8 < 24 := by omega
    simp only [this, decide_true, Bool.true_and]; congr 1; omega

/-- R90: the fields of an encoded command. -/
theorem fields_encode (i : Instr) : mbzField (encode i) = 0 ∧ opcField (encode i) = i.opc := by
  cases i <;> decide

/-- R90: the MBZ field as a number. -/
theorem mbzField_eq_zero (w : Word) : mbzField w = 0 ↔ w.toNat / 256 = 0 := by
  rw [← BitVec.toNat_inj]
  simp only [mbzField, BitVec.extractLsb'_toNat, Nat.shiftRight_eq_div_pow]
  have := w.isLt
  rw [Nat.mod_eq_of_lt (by omega)]; simp

/-- R90: the OPC field as a number. -/
theorem opcField_toNat (w : Word) : (opcField w).toNat = w.toNat % 256 := by
  simp [opcField, BitVec.extractLsb'_toNat]

end Sys2Proof
end

