-- ==== Sys2Proof/Laws/Gcm.lean ====
section
/-! SUPPORT. Laws of AES-256 and of GCM's counter mode (43_aead R201, R205). -/

namespace Sys2Proof.Machine

@[simp] theorem addRoundKey_length (w : List Bytes) (rd : Nat) (s : Bytes) : (addRoundKey w rd s).length = 16 := by
  simp [addRoundKey]

/-- R201: the cipher's output is one block. -/
@[simp] theorem aes256_length (k x : Bytes) : (aes256 k x).length = 16 := addRoundKey_length _ _ _

/-- R205: counter mode keeps the length, with blocks enough for it. -/
theorem gctrFrom_length (k : Bytes) (n : Nat) (cb x : Bytes) (h : x.length ≤ 16 * n) :
    (gctrFrom k n cb x).length = x.length := by
  induction n generalizing cb x with
  | zero => simp_all [gctrFrom]
  | succ n ih =>
    have := ih (inc32 cb) (x.drop 16) (by simp; omega)
    simp only [gctrFrom, List.length_append, xorBytes_length, List.length_take, aes256_length, this, List.length_drop]
    omega

@[simp] theorem gctr_length (k icb x : Bytes) : (gctr k icb x).length = x.length :=
  gctrFrom_length k _ icb x (by omega)

/-- R205: counter mode twice with one key stream gives the bytes back. -/
theorem gctrFrom_gctrFrom (k : Bytes) (n : Nat) (cb x : Bytes) (h : x.length ≤ 16 * n) :
    gctrFrom k n cb (gctrFrom k n cb x) = x := by
  induction n generalizing cb x with
  | zero => simp_all [gctrFrom]
  | succ n ih =>
    have hx := ih (inc32 cb) (x.drop 16) (by simp; omega)
    have hl : (xorBytes (x.take 16) (aes256 k cb)).length = min 16 x.length := by simp
    simp only [gctrFrom]
    by_cases hs : 16 ≤ x.length
    · rw [List.take_append_of_le_length (by rw [hl]; omega), List.drop_append_of_le_length (by rw [hl]; omega),
        List.take_of_length_le (by rw [hl]; omega), List.drop_of_length_le (by rw [hl]; omega), xorBytes_xorBytes,
        List.take_take, aes256_length, List.nil_append, hx, Nat.min_self, List.take_append_drop]
    · have hd : x.drop 16 = [] := List.drop_of_length_le (by omega)
      have he : gctrFrom k n (inc32 cb) [] = [] := List.length_eq_zero_iff.mp (gctrFrom_length k n _ [] (by simp))
      rw [hd, he, List.append_nil, List.take_of_length_le (by rw [hl]; omega),
        List.drop_of_length_le (by rw [hl]; omega), xorBytes_xorBytes, he, aes256_length, List.append_nil, List.take_take,
        List.take_of_length_le (by omega)]

/-- R205: counter mode is its own inverse. -/
theorem gctr_gctr (k icb x : Bytes) : gctr k icb (gctr k icb x) = x := by
  rw [gctr, gctr_length]; exact gctrFrom_gctrFrom k _ icb x (by omega)

/-- R203: GHASH is one block. -/
@[simp] theorem ghash_length (h s : Bytes) : (ghash h s).length = 16 := ofBlock_length _

/-- R206: the tag is 16 bytes. -/
@[simp] theorem gcmTag_length (k n c a : Bytes) : (gcmTag k n c a).length = 16 := by simp [gcmTag]

end Sys2Proof.Machine
end

