-- ==== Sys2Proof/Laws/State.lean ====
section
/-! SUPPORT. One lemma per field per update of the state: what each shared operation leaves in each field. -/

namespace Sys2Proof.Machine

/-! ## finish -/

@[simp] theorem finish_ctrl (c : ResultCode) (s : State) : (finish c s).ctrl = s.ctrl := rfl
@[simp] theorem finish_cmd (c : ResultCode) (s : State) : (finish c s).cmd = s.cmd := rfl
@[simp] theorem finish_busy (c : ResultCode) (s : State) : (finish c s).busy = false := rfl
@[simp] theorem finish_done (c : ResultCode) (s : State) : (finish c s).done = true := rfl
@[simp] theorem finish_err (c : ResultCode) (s : State) : (finish c s).err = decide (c ≠ .ok) := rfl
@[simp] theorem finish_fatal (c : ResultCode) (s : State) : (finish c s).fatal = s.fatal := rfl
@[simp] theorem finish_wbusy (c : ResultCode) (s : State) : (finish c s).wbusy = s.wbusy := rfl
@[simp] theorem finish_result (c : ResultCode) (s : State) : (finish c s).result = c.code.setWidth 32 := rfl
@[simp] theorem finish_dataLen (c : ResultCode) (s : State) : (finish c s).dataLen = s.dataLen := rfl
@[simp] theorem finish_pwLen (c : ResultCode) (s : State) : (finish c s).pwLen = s.pwLen := rfl
@[simp] theorem finish_outLen (c : ResultCode) (s : State) : (finish c s).outLen = s.outLen := rfl
@[simp] theorem finish_typeCode (c : ResultCode) (s : State) : (finish c s).typeCode = s.typeCode := rfl
@[simp] theorem finish_typeProps (c : ResultCode) (s : State) : (finish c s).typeProps = s.typeProps := rfl
@[simp] theorem finish_crcAcc (c : ResultCode) (s : State) : (finish c s).crcAcc = s.crcAcc := rfl
@[simp] theorem finish_chunkLen (c : ResultCode) (s : State) : (finish c s).chunkLen = s.chunkLen := rfl
@[simp] theorem finish_chunkType (c : ResultCode) (s : State) : (finish c s).chunkType = s.chunkType := rfl
@[simp] theorem finish_chunkCrcStored (c : ResultCode) (s : State) : (finish c s).chunkCrcStored = s.chunkCrcStored := rfl
@[simp] theorem finish_chunkCrcCalc (c : ResultCode) (s : State) : (finish c s).chunkCrcCalc = s.chunkCrcCalc := rfl
@[simp] theorem finish_consumed (c : ResultCode) (s : State) : (finish c s).consumed = s.consumed := rfl
@[simp] theorem finish_kdfCost (c : ResultCode) (s : State) : (finish c s).kdfCost = s.kdfCost := rfl
@[simp] theorem finish_cmdCount (c : ResultCode) (s : State) : (finish c s).cmdCount = s.cmdCount + 1 := rfl
@[simp] theorem finish_nonceIn (c : ResultCode) (s : State) : (finish c s).nonceIn = s.nonceIn := rfl
@[simp] theorem finish_nonceOut (c : ResultCode) (s : State) : (finish c s).nonceOut = s.nonceOut := rfl
@[simp] theorem finish_saltIn (c : ResultCode) (s : State) : (finish c s).saltIn = s.saltIn := rfl
@[simp] theorem finish_keyIn (c : ResultCode) (s : State) : (finish c s).keyIn = s.keyIn := rfl
@[simp] theorem finish_keyInt (c : ResultCode) (s : State) : (finish c s).keyInt = Vector.replicate 32 0 := rfl
@[simp] theorem finish_dataIn (c : ResultCode) (s : State) : (finish c s).dataIn = s.dataIn := rfl
@[simp] theorem finish_pw (c : ResultCode) (s : State) : (finish c s).pw = s.pw := rfl
@[simp] theorem finish_out (c : ResultCode) (s : State) : (finish c s).out = s.out := rfl
@[simp] theorem finish_resetAsserted (c : ResultCode) (s : State) : (finish c s).resetAsserted = s.resetAsserted := rfl
@[simp] theorem finish_draws (c : ResultCode) (s : State) : (finish c s).draws = s.draws := rfl
@[simp] theorem finish_turns (c : ResultCode) (s : State) : (finish c s).turns = s.turns := rfl
@[simp] theorem finish_program (c : ResultCode) (s : State) : (finish c s).program = s.program := rfl
@[simp] theorem finish_vars (c : ResultCode) (s : State) : (finish c s).vars = s.vars := rfl
@[simp] theorem finish_response (c : ResultCode) (s : State) : (finish c s).response = s.response := rfl
@[simp] theorem finish_expectFailed (c : ResultCode) (s : State) : (finish c s).expectFailed = s.expectFailed := rfl

/-! ## writeOut -/

@[simp] theorem writeOut_ctrl (b : Bytes) (s : State) : (writeOut b s).ctrl = s.ctrl := rfl
@[simp] theorem writeOut_cmd (b : Bytes) (s : State) : (writeOut b s).cmd = s.cmd := rfl
@[simp] theorem writeOut_busy (b : Bytes) (s : State) : (writeOut b s).busy = s.busy := rfl
@[simp] theorem writeOut_done (b : Bytes) (s : State) : (writeOut b s).done = s.done := rfl
@[simp] theorem writeOut_err (b : Bytes) (s : State) : (writeOut b s).err = s.err := rfl
@[simp] theorem writeOut_fatal (b : Bytes) (s : State) : (writeOut b s).fatal = s.fatal := rfl
@[simp] theorem writeOut_wbusy (b : Bytes) (s : State) : (writeOut b s).wbusy = s.wbusy := rfl
@[simp] theorem writeOut_result (b : Bytes) (s : State) : (writeOut b s).result = s.result := rfl
@[simp] theorem writeOut_dataLen (b : Bytes) (s : State) : (writeOut b s).dataLen = s.dataLen := rfl
@[simp] theorem writeOut_pwLen (b : Bytes) (s : State) : (writeOut b s).pwLen = s.pwLen := rfl
@[simp] theorem writeOut_outLen (b : Bytes) (s : State) : (writeOut b s).outLen = BitVec.ofNat 32 b.length := rfl
@[simp] theorem writeOut_typeCode (b : Bytes) (s : State) : (writeOut b s).typeCode = s.typeCode := rfl
@[simp] theorem writeOut_typeProps (b : Bytes) (s : State) : (writeOut b s).typeProps = s.typeProps := rfl
@[simp] theorem writeOut_crcAcc (b : Bytes) (s : State) : (writeOut b s).crcAcc = s.crcAcc := rfl
@[simp] theorem writeOut_chunkLen (b : Bytes) (s : State) : (writeOut b s).chunkLen = s.chunkLen := rfl
@[simp] theorem writeOut_chunkType (b : Bytes) (s : State) : (writeOut b s).chunkType = s.chunkType := rfl
@[simp] theorem writeOut_chunkCrcStored (b : Bytes) (s : State) : (writeOut b s).chunkCrcStored = s.chunkCrcStored := rfl
@[simp] theorem writeOut_chunkCrcCalc (b : Bytes) (s : State) : (writeOut b s).chunkCrcCalc = s.chunkCrcCalc := rfl
@[simp] theorem writeOut_consumed (b : Bytes) (s : State) : (writeOut b s).consumed = s.consumed := rfl
@[simp] theorem writeOut_kdfCost (b : Bytes) (s : State) : (writeOut b s).kdfCost = s.kdfCost := rfl
@[simp] theorem writeOut_cmdCount (b : Bytes) (s : State) : (writeOut b s).cmdCount = s.cmdCount := rfl
@[simp] theorem writeOut_nonceIn (b : Bytes) (s : State) : (writeOut b s).nonceIn = s.nonceIn := rfl
@[simp] theorem writeOut_nonceOut (b : Bytes) (s : State) : (writeOut b s).nonceOut = s.nonceOut := rfl
@[simp] theorem writeOut_saltIn (b : Bytes) (s : State) : (writeOut b s).saltIn = s.saltIn := rfl
@[simp] theorem writeOut_keyIn (b : Bytes) (s : State) : (writeOut b s).keyIn = s.keyIn := rfl
@[simp] theorem writeOut_keyInt (b : Bytes) (s : State) : (writeOut b s).keyInt = s.keyInt := rfl
@[simp] theorem writeOut_dataIn (b : Bytes) (s : State) : (writeOut b s).dataIn = s.dataIn := rfl
@[simp] theorem writeOut_pw (b : Bytes) (s : State) : (writeOut b s).pw = s.pw := rfl
@[simp] theorem writeOut_out (b : Bytes) (s : State) : (writeOut b s).out = Memory.ofBytes b := rfl
@[simp] theorem writeOut_resetAsserted (b : Bytes) (s : State) : (writeOut b s).resetAsserted = s.resetAsserted := rfl
@[simp] theorem writeOut_draws (b : Bytes) (s : State) : (writeOut b s).draws = s.draws := rfl
@[simp] theorem writeOut_turns (b : Bytes) (s : State) : (writeOut b s).turns = s.turns := rfl
@[simp] theorem writeOut_program (b : Bytes) (s : State) : (writeOut b s).program = s.program := rfl
@[simp] theorem writeOut_vars (b : Bytes) (s : State) : (writeOut b s).vars = s.vars := rfl
@[simp] theorem writeOut_response (b : Bytes) (s : State) : (writeOut b s).response = s.response := rfl
@[simp] theorem writeOut_expectFailed (b : Bytes) (s : State) : (writeOut b s).expectFailed = s.expectFailed := rfl

/-! ## zeroizeAll -/

@[simp] theorem zeroizeAll_ctrl (s : State) : (zeroizeAll s).ctrl = s.ctrl := rfl
@[simp] theorem zeroizeAll_cmd (s : State) : (zeroizeAll s).cmd = s.cmd := rfl
@[simp] theorem zeroizeAll_busy (s : State) : (zeroizeAll s).busy = s.busy := rfl
@[simp] theorem zeroizeAll_done (s : State) : (zeroizeAll s).done = s.done := rfl
@[simp] theorem zeroizeAll_err (s : State) : (zeroizeAll s).err = s.err := rfl
@[simp] theorem zeroizeAll_fatal (s : State) : (zeroizeAll s).fatal = s.fatal := rfl
@[simp] theorem zeroizeAll_wbusy (s : State) : (zeroizeAll s).wbusy = s.wbusy := rfl
@[simp] theorem zeroizeAll_result (s : State) : (zeroizeAll s).result = s.result := rfl
@[simp] theorem zeroizeAll_dataLen (s : State) : (zeroizeAll s).dataLen = s.dataLen := rfl
@[simp] theorem zeroizeAll_pwLen (s : State) : (zeroizeAll s).pwLen = 0 := rfl
@[simp] theorem zeroizeAll_outLen (s : State) : (zeroizeAll s).outLen = 0 := rfl
@[simp] theorem zeroizeAll_typeCode (s : State) : (zeroizeAll s).typeCode = s.typeCode := rfl
@[simp] theorem zeroizeAll_typeProps (s : State) : (zeroizeAll s).typeProps = s.typeProps := rfl
@[simp] theorem zeroizeAll_crcAcc (s : State) : (zeroizeAll s).crcAcc = s.crcAcc := rfl
@[simp] theorem zeroizeAll_chunkLen (s : State) : (zeroizeAll s).chunkLen = s.chunkLen := rfl
@[simp] theorem zeroizeAll_chunkType (s : State) : (zeroizeAll s).chunkType = s.chunkType := rfl
@[simp] theorem zeroizeAll_chunkCrcStored (s : State) : (zeroizeAll s).chunkCrcStored = s.chunkCrcStored := rfl
@[simp] theorem zeroizeAll_chunkCrcCalc (s : State) : (zeroizeAll s).chunkCrcCalc = s.chunkCrcCalc := rfl
@[simp] theorem zeroizeAll_consumed (s : State) : (zeroizeAll s).consumed = s.consumed := rfl
@[simp] theorem zeroizeAll_kdfCost (s : State) : (zeroizeAll s).kdfCost = s.kdfCost := rfl
@[simp] theorem zeroizeAll_cmdCount (s : State) : (zeroizeAll s).cmdCount = s.cmdCount := rfl
@[simp] theorem zeroizeAll_nonceIn (s : State) : (zeroizeAll s).nonceIn = s.nonceIn := rfl
@[simp] theorem zeroizeAll_nonceOut (s : State) : (zeroizeAll s).nonceOut = s.nonceOut := rfl
@[simp] theorem zeroizeAll_saltIn (s : State) : (zeroizeAll s).saltIn = Vector.replicate 16 0 := rfl
@[simp] theorem zeroizeAll_keyIn (s : State) : (zeroizeAll s).keyIn = Vector.replicate 32 0 := rfl
@[simp] theorem zeroizeAll_keyInt (s : State) : (zeroizeAll s).keyInt = Vector.replicate 32 0 := rfl
@[simp] theorem zeroizeAll_dataIn (s : State) : (zeroizeAll s).dataIn = [] := rfl
@[simp] theorem zeroizeAll_pw (s : State) : (zeroizeAll s).pw = [] := rfl
@[simp] theorem zeroizeAll_out (s : State) : (zeroizeAll s).out = [] := rfl
@[simp] theorem zeroizeAll_resetAsserted (s : State) : (zeroizeAll s).resetAsserted = s.resetAsserted := rfl
@[simp] theorem zeroizeAll_draws (s : State) : (zeroizeAll s).draws = s.draws := rfl
@[simp] theorem zeroizeAll_turns (s : State) : (zeroizeAll s).turns = s.turns := rfl
@[simp] theorem zeroizeAll_program (s : State) : (zeroizeAll s).program = s.program := rfl
@[simp] theorem zeroizeAll_vars (s : State) : (zeroizeAll s).vars = s.vars := rfl
@[simp] theorem zeroizeAll_response (s : State) : (zeroizeAll s).response = s.response := rfl
@[simp] theorem zeroizeAll_expectFailed (s : State) : (zeroizeAll s).expectFailed = s.expectFailed := rfl

/-! ## fatalEnd -/

@[simp] theorem fatalEnd_ctrl (s : State) : (fatalEnd s).ctrl = s.ctrl := rfl
@[simp] theorem fatalEnd_cmd (s : State) : (fatalEnd s).cmd = s.cmd := rfl
@[simp] theorem fatalEnd_busy (s : State) : (fatalEnd s).busy = false := rfl
@[simp] theorem fatalEnd_done (s : State) : (fatalEnd s).done = true := rfl
@[simp] theorem fatalEnd_err (s : State) : (fatalEnd s).err = true := rfl
@[simp] theorem fatalEnd_fatal (s : State) : (fatalEnd s).fatal = true := rfl
@[simp] theorem fatalEnd_wbusy (s : State) : (fatalEnd s).wbusy = s.wbusy := rfl
@[simp] theorem fatalEnd_result (s : State) : (fatalEnd s).result = 0xFF := rfl
@[simp] theorem fatalEnd_dataLen (s : State) : (fatalEnd s).dataLen = s.dataLen := rfl
@[simp] theorem fatalEnd_pwLen (s : State) : (fatalEnd s).pwLen = 0 := rfl
@[simp] theorem fatalEnd_outLen (s : State) : (fatalEnd s).outLen = 0 := rfl
@[simp] theorem fatalEnd_typeCode (s : State) : (fatalEnd s).typeCode = s.typeCode := rfl
@[simp] theorem fatalEnd_typeProps (s : State) : (fatalEnd s).typeProps = s.typeProps := rfl
@[simp] theorem fatalEnd_crcAcc (s : State) : (fatalEnd s).crcAcc = s.crcAcc := rfl
@[simp] theorem fatalEnd_chunkLen (s : State) : (fatalEnd s).chunkLen = s.chunkLen := rfl
@[simp] theorem fatalEnd_chunkType (s : State) : (fatalEnd s).chunkType = s.chunkType := rfl
@[simp] theorem fatalEnd_chunkCrcStored (s : State) : (fatalEnd s).chunkCrcStored = s.chunkCrcStored := rfl
@[simp] theorem fatalEnd_chunkCrcCalc (s : State) : (fatalEnd s).chunkCrcCalc = s.chunkCrcCalc := rfl
@[simp] theorem fatalEnd_consumed (s : State) : (fatalEnd s).consumed = s.consumed := rfl
@[simp] theorem fatalEnd_kdfCost (s : State) : (fatalEnd s).kdfCost = s.kdfCost := rfl
@[simp] theorem fatalEnd_cmdCount (s : State) : (fatalEnd s).cmdCount = s.cmdCount + 1 := rfl
@[simp] theorem fatalEnd_nonceIn (s : State) : (fatalEnd s).nonceIn = s.nonceIn := rfl
@[simp] theorem fatalEnd_nonceOut (s : State) : (fatalEnd s).nonceOut = s.nonceOut := rfl
@[simp] theorem fatalEnd_saltIn (s : State) : (fatalEnd s).saltIn = Vector.replicate 16 0 := rfl
@[simp] theorem fatalEnd_keyIn (s : State) : (fatalEnd s).keyIn = Vector.replicate 32 0 := rfl
@[simp] theorem fatalEnd_keyInt (s : State) : (fatalEnd s).keyInt = Vector.replicate 32 0 := rfl
@[simp] theorem fatalEnd_dataIn (s : State) : (fatalEnd s).dataIn = [] := rfl
@[simp] theorem fatalEnd_pw (s : State) : (fatalEnd s).pw = [] := rfl
@[simp] theorem fatalEnd_out (s : State) : (fatalEnd s).out = [] := rfl
@[simp] theorem fatalEnd_resetAsserted (s : State) : (fatalEnd s).resetAsserted = s.resetAsserted := rfl
@[simp] theorem fatalEnd_draws (s : State) : (fatalEnd s).draws = s.draws := rfl
@[simp] theorem fatalEnd_turns (s : State) : (fatalEnd s).turns = s.turns := rfl
@[simp] theorem fatalEnd_program (s : State) : (fatalEnd s).program = s.program := rfl
@[simp] theorem fatalEnd_vars (s : State) : (fatalEnd s).vars = s.vars := rfl
@[simp] theorem fatalEnd_response (s : State) : (fatalEnd s).response = s.response := rfl
@[simp] theorem fatalEnd_expectFailed (s : State) : (fatalEnd s).expectFailed = s.expectFailed := rfl

/-! ## accept -/

@[simp] theorem accept_ctrl (w : Word) (s : State) : (accept w s).ctrl = s.ctrl := rfl
@[simp] theorem accept_cmd (w : Word) (s : State) : (accept w s).cmd = w := rfl
@[simp] theorem accept_busy (w : Word) (s : State) : (accept w s).busy = true := rfl
@[simp] theorem accept_done (w : Word) (s : State) : (accept w s).done = false := rfl
@[simp] theorem accept_err (w : Word) (s : State) : (accept w s).err = false := rfl
@[simp] theorem accept_fatal (w : Word) (s : State) : (accept w s).fatal = s.fatal := rfl
@[simp] theorem accept_wbusy (w : Word) (s : State) : (accept w s).wbusy = s.wbusy := rfl
@[simp] theorem accept_result (w : Word) (s : State) : (accept w s).result = s.result := rfl
@[simp] theorem accept_dataLen (w : Word) (s : State) : (accept w s).dataLen = s.dataLen := rfl
@[simp] theorem accept_pwLen (w : Word) (s : State) : (accept w s).pwLen = s.pwLen := rfl
@[simp] theorem accept_outLen (w : Word) (s : State) : (accept w s).outLen = s.outLen := rfl
@[simp] theorem accept_typeCode (w : Word) (s : State) : (accept w s).typeCode = s.typeCode := rfl
@[simp] theorem accept_typeProps (w : Word) (s : State) : (accept w s).typeProps = s.typeProps := rfl
@[simp] theorem accept_crcAcc (w : Word) (s : State) : (accept w s).crcAcc = s.crcAcc := rfl
@[simp] theorem accept_chunkLen (w : Word) (s : State) : (accept w s).chunkLen = s.chunkLen := rfl
@[simp] theorem accept_chunkType (w : Word) (s : State) : (accept w s).chunkType = s.chunkType := rfl
@[simp] theorem accept_chunkCrcStored (w : Word) (s : State) : (accept w s).chunkCrcStored = s.chunkCrcStored := rfl
@[simp] theorem accept_chunkCrcCalc (w : Word) (s : State) : (accept w s).chunkCrcCalc = s.chunkCrcCalc := rfl
@[simp] theorem accept_consumed (w : Word) (s : State) : (accept w s).consumed = s.consumed := rfl
@[simp] theorem accept_kdfCost (w : Word) (s : State) : (accept w s).kdfCost = s.kdfCost := rfl
@[simp] theorem accept_cmdCount (w : Word) (s : State) : (accept w s).cmdCount = s.cmdCount := rfl
@[simp] theorem accept_nonceIn (w : Word) (s : State) : (accept w s).nonceIn = s.nonceIn := rfl
@[simp] theorem accept_nonceOut (w : Word) (s : State) : (accept w s).nonceOut = s.nonceOut := rfl
@[simp] theorem accept_saltIn (w : Word) (s : State) : (accept w s).saltIn = s.saltIn := rfl
@[simp] theorem accept_keyIn (w : Word) (s : State) : (accept w s).keyIn = s.keyIn := rfl
@[simp] theorem accept_keyInt (w : Word) (s : State) : (accept w s).keyInt = s.keyInt := rfl
@[simp] theorem accept_dataIn (w : Word) (s : State) : (accept w s).dataIn = s.dataIn := rfl
@[simp] theorem accept_pw (w : Word) (s : State) : (accept w s).pw = s.pw := rfl
@[simp] theorem accept_out (w : Word) (s : State) : (accept w s).out = s.out := rfl
@[simp] theorem accept_resetAsserted (w : Word) (s : State) : (accept w s).resetAsserted = s.resetAsserted := rfl
@[simp] theorem accept_draws (w : Word) (s : State) : (accept w s).draws = s.draws := rfl
@[simp] theorem accept_turns (w : Word) (s : State) : (accept w s).turns = s.turns := rfl
@[simp] theorem accept_program (w : Word) (s : State) : (accept w s).program = s.program := rfl
@[simp] theorem accept_vars (w : Word) (s : State) : (accept w s).vars = s.vars := rfl
@[simp] theorem accept_response (w : Word) (s : State) : (accept w s).response = s.response := rfl
@[simp] theorem accept_expectFailed (w : Word) (s : State) : (accept w s).expectFailed = s.expectFailed := rfl

/-! ## statusWrite -/

@[simp] theorem statusWrite_ctrl (v : Word) (s : State) : (statusWrite v s).ctrl = s.ctrl := rfl
@[simp] theorem statusWrite_cmd (v : Word) (s : State) : (statusWrite v s).cmd = s.cmd := rfl
@[simp] theorem statusWrite_busy (v : Word) (s : State) : (statusWrite v s).busy = s.busy := rfl
@[simp] theorem statusWrite_done (v : Word) (s : State) : (statusWrite v s).done = (s.done && !v.getLsbD 1) := rfl
@[simp] theorem statusWrite_err (v : Word) (s : State) : (statusWrite v s).err = s.err := rfl
@[simp] theorem statusWrite_fatal (v : Word) (s : State) : (statusWrite v s).fatal = s.fatal := rfl
@[simp] theorem statusWrite_wbusy (v : Word) (s : State) : (statusWrite v s).wbusy = (s.wbusy && !v.getLsbD 4) := rfl
@[simp] theorem statusWrite_result (v : Word) (s : State) : (statusWrite v s).result = s.result := rfl
@[simp] theorem statusWrite_dataLen (v : Word) (s : State) : (statusWrite v s).dataLen = s.dataLen := rfl
@[simp] theorem statusWrite_pwLen (v : Word) (s : State) : (statusWrite v s).pwLen = s.pwLen := rfl
@[simp] theorem statusWrite_outLen (v : Word) (s : State) : (statusWrite v s).outLen = s.outLen := rfl
@[simp] theorem statusWrite_typeCode (v : Word) (s : State) : (statusWrite v s).typeCode = s.typeCode := rfl
@[simp] theorem statusWrite_typeProps (v : Word) (s : State) : (statusWrite v s).typeProps = s.typeProps := rfl
@[simp] theorem statusWrite_crcAcc (v : Word) (s : State) : (statusWrite v s).crcAcc = s.crcAcc := rfl
@[simp] theorem statusWrite_chunkLen (v : Word) (s : State) : (statusWrite v s).chunkLen = s.chunkLen := rfl
@[simp] theorem statusWrite_chunkType (v : Word) (s : State) : (statusWrite v s).chunkType = s.chunkType := rfl
@[simp] theorem statusWrite_chunkCrcStored (v : Word) (s : State) : (statusWrite v s).chunkCrcStored = s.chunkCrcStored := rfl
@[simp] theorem statusWrite_chunkCrcCalc (v : Word) (s : State) : (statusWrite v s).chunkCrcCalc = s.chunkCrcCalc := rfl
@[simp] theorem statusWrite_consumed (v : Word) (s : State) : (statusWrite v s).consumed = s.consumed := rfl
@[simp] theorem statusWrite_kdfCost (v : Word) (s : State) : (statusWrite v s).kdfCost = s.kdfCost := rfl
@[simp] theorem statusWrite_cmdCount (v : Word) (s : State) : (statusWrite v s).cmdCount = s.cmdCount := rfl
@[simp] theorem statusWrite_nonceIn (v : Word) (s : State) : (statusWrite v s).nonceIn = s.nonceIn := rfl
@[simp] theorem statusWrite_nonceOut (v : Word) (s : State) : (statusWrite v s).nonceOut = s.nonceOut := rfl
@[simp] theorem statusWrite_saltIn (v : Word) (s : State) : (statusWrite v s).saltIn = s.saltIn := rfl
@[simp] theorem statusWrite_keyIn (v : Word) (s : State) : (statusWrite v s).keyIn = s.keyIn := rfl
@[simp] theorem statusWrite_keyInt (v : Word) (s : State) : (statusWrite v s).keyInt = s.keyInt := rfl
@[simp] theorem statusWrite_dataIn (v : Word) (s : State) : (statusWrite v s).dataIn = s.dataIn := rfl
@[simp] theorem statusWrite_pw (v : Word) (s : State) : (statusWrite v s).pw = s.pw := rfl
@[simp] theorem statusWrite_out (v : Word) (s : State) : (statusWrite v s).out = s.out := rfl
@[simp] theorem statusWrite_resetAsserted (v : Word) (s : State) : (statusWrite v s).resetAsserted = s.resetAsserted := rfl
@[simp] theorem statusWrite_draws (v : Word) (s : State) : (statusWrite v s).draws = s.draws := rfl
@[simp] theorem statusWrite_turns (v : Word) (s : State) : (statusWrite v s).turns = s.turns := rfl
@[simp] theorem statusWrite_program (v : Word) (s : State) : (statusWrite v s).program = s.program := rfl
@[simp] theorem statusWrite_vars (v : Word) (s : State) : (statusWrite v s).vars = s.vars := rfl
@[simp] theorem statusWrite_response (v : Word) (s : State) : (statusWrite v s).response = s.response := rfl
@[simp] theorem statusWrite_expectFailed (v : Word) (s : State) : (statusWrite v s).expectFailed = s.expectFailed := rfl

/-! ## assertReset -/

@[simp] theorem assertReset_ctrl (s : State) : (assertReset s).ctrl = State.reset.ctrl := rfl
@[simp] theorem assertReset_cmd (s : State) : (assertReset s).cmd = State.reset.cmd := rfl
@[simp] theorem assertReset_busy (s : State) : (assertReset s).busy = State.reset.busy := rfl
@[simp] theorem assertReset_done (s : State) : (assertReset s).done = State.reset.done := rfl
@[simp] theorem assertReset_err (s : State) : (assertReset s).err = State.reset.err := rfl
@[simp] theorem assertReset_fatal (s : State) : (assertReset s).fatal = State.reset.fatal := rfl
@[simp] theorem assertReset_wbusy (s : State) : (assertReset s).wbusy = State.reset.wbusy := rfl
@[simp] theorem assertReset_result (s : State) : (assertReset s).result = State.reset.result := rfl
@[simp] theorem assertReset_dataLen (s : State) : (assertReset s).dataLen = State.reset.dataLen := rfl
@[simp] theorem assertReset_pwLen (s : State) : (assertReset s).pwLen = State.reset.pwLen := rfl
@[simp] theorem assertReset_outLen (s : State) : (assertReset s).outLen = State.reset.outLen := rfl
@[simp] theorem assertReset_typeCode (s : State) : (assertReset s).typeCode = State.reset.typeCode := rfl
@[simp] theorem assertReset_typeProps (s : State) : (assertReset s).typeProps = State.reset.typeProps := rfl
@[simp] theorem assertReset_crcAcc (s : State) : (assertReset s).crcAcc = State.reset.crcAcc := rfl
@[simp] theorem assertReset_chunkLen (s : State) : (assertReset s).chunkLen = State.reset.chunkLen := rfl
@[simp] theorem assertReset_chunkType (s : State) : (assertReset s).chunkType = State.reset.chunkType := rfl
@[simp] theorem assertReset_chunkCrcStored (s : State) : (assertReset s).chunkCrcStored = State.reset.chunkCrcStored := rfl
@[simp] theorem assertReset_chunkCrcCalc (s : State) : (assertReset s).chunkCrcCalc = State.reset.chunkCrcCalc := rfl
@[simp] theorem assertReset_consumed (s : State) : (assertReset s).consumed = State.reset.consumed := rfl
@[simp] theorem assertReset_kdfCost (s : State) : (assertReset s).kdfCost = State.reset.kdfCost := rfl
@[simp] theorem assertReset_cmdCount (s : State) : (assertReset s).cmdCount = State.reset.cmdCount := rfl
@[simp] theorem assertReset_nonceIn (s : State) : (assertReset s).nonceIn = State.reset.nonceIn := rfl
@[simp] theorem assertReset_nonceOut (s : State) : (assertReset s).nonceOut = State.reset.nonceOut := rfl
@[simp] theorem assertReset_saltIn (s : State) : (assertReset s).saltIn = State.reset.saltIn := rfl
@[simp] theorem assertReset_keyIn (s : State) : (assertReset s).keyIn = State.reset.keyIn := rfl
@[simp] theorem assertReset_keyInt (s : State) : (assertReset s).keyInt = State.reset.keyInt := rfl
@[simp] theorem assertReset_dataIn (s : State) : (assertReset s).dataIn = State.reset.dataIn := rfl
@[simp] theorem assertReset_pw (s : State) : (assertReset s).pw = State.reset.pw := rfl
@[simp] theorem assertReset_out (s : State) : (assertReset s).out = State.reset.out := rfl
@[simp] theorem assertReset_resetAsserted (s : State) : (assertReset s).resetAsserted = true := rfl
@[simp] theorem assertReset_draws (s : State) : (assertReset s).draws = s.draws := rfl
@[simp] theorem assertReset_turns (s : State) : (assertReset s).turns = s.turns := rfl
@[simp] theorem assertReset_program (s : State) : (assertReset s).program = s.program := rfl
@[simp] theorem assertReset_vars (s : State) : (assertReset s).vars = s.vars := rfl
@[simp] theorem assertReset_response (s : State) : (assertReset s).response = s.response := rfl
@[simp] theorem assertReset_expectFailed (s : State) : (assertReset s).expectFailed = s.expectFailed := rfl

/-! ## releaseReset -/

@[simp] theorem releaseReset_ctrl (s : State) : (releaseReset s).ctrl = s.ctrl := rfl
@[simp] theorem releaseReset_cmd (s : State) : (releaseReset s).cmd = s.cmd := rfl
@[simp] theorem releaseReset_busy (s : State) : (releaseReset s).busy = s.busy := rfl
@[simp] theorem releaseReset_done (s : State) : (releaseReset s).done = s.done := rfl
@[simp] theorem releaseReset_err (s : State) : (releaseReset s).err = s.err := rfl
@[simp] theorem releaseReset_fatal (s : State) : (releaseReset s).fatal = s.fatal := rfl
@[simp] theorem releaseReset_wbusy (s : State) : (releaseReset s).wbusy = s.wbusy := rfl
@[simp] theorem releaseReset_result (s : State) : (releaseReset s).result = s.result := rfl
@[simp] theorem releaseReset_dataLen (s : State) : (releaseReset s).dataLen = s.dataLen := rfl
@[simp] theorem releaseReset_pwLen (s : State) : (releaseReset s).pwLen = s.pwLen := rfl
@[simp] theorem releaseReset_outLen (s : State) : (releaseReset s).outLen = s.outLen := rfl
@[simp] theorem releaseReset_typeCode (s : State) : (releaseReset s).typeCode = s.typeCode := rfl
@[simp] theorem releaseReset_typeProps (s : State) : (releaseReset s).typeProps = s.typeProps := rfl
@[simp] theorem releaseReset_crcAcc (s : State) : (releaseReset s).crcAcc = s.crcAcc := rfl
@[simp] theorem releaseReset_chunkLen (s : State) : (releaseReset s).chunkLen = s.chunkLen := rfl
@[simp] theorem releaseReset_chunkType (s : State) : (releaseReset s).chunkType = s.chunkType := rfl
@[simp] theorem releaseReset_chunkCrcStored (s : State) : (releaseReset s).chunkCrcStored = s.chunkCrcStored := rfl
@[simp] theorem releaseReset_chunkCrcCalc (s : State) : (releaseReset s).chunkCrcCalc = s.chunkCrcCalc := rfl
@[simp] theorem releaseReset_consumed (s : State) : (releaseReset s).consumed = s.consumed := rfl
@[simp] theorem releaseReset_kdfCost (s : State) : (releaseReset s).kdfCost = s.kdfCost := rfl
@[simp] theorem releaseReset_cmdCount (s : State) : (releaseReset s).cmdCount = s.cmdCount := rfl
@[simp] theorem releaseReset_nonceIn (s : State) : (releaseReset s).nonceIn = s.nonceIn := rfl
@[simp] theorem releaseReset_nonceOut (s : State) : (releaseReset s).nonceOut = s.nonceOut := rfl
@[simp] theorem releaseReset_saltIn (s : State) : (releaseReset s).saltIn = s.saltIn := rfl
@[simp] theorem releaseReset_keyIn (s : State) : (releaseReset s).keyIn = s.keyIn := rfl
@[simp] theorem releaseReset_keyInt (s : State) : (releaseReset s).keyInt = s.keyInt := rfl
@[simp] theorem releaseReset_dataIn (s : State) : (releaseReset s).dataIn = s.dataIn := rfl
@[simp] theorem releaseReset_pw (s : State) : (releaseReset s).pw = s.pw := rfl
@[simp] theorem releaseReset_out (s : State) : (releaseReset s).out = s.out := rfl
@[simp] theorem releaseReset_resetAsserted (s : State) : (releaseReset s).resetAsserted = false := rfl
@[simp] theorem releaseReset_draws (s : State) : (releaseReset s).draws = s.draws := rfl
@[simp] theorem releaseReset_turns (s : State) : (releaseReset s).turns = s.turns := rfl
@[simp] theorem releaseReset_program (s : State) : (releaseReset s).program = s.program := rfl
@[simp] theorem releaseReset_vars (s : State) : (releaseReset s).vars = s.vars := rfl
@[simp] theorem releaseReset_response (s : State) : (releaseReset s).response = s.response := rfl
@[simp] theorem releaseReset_expectFailed (s : State) : (releaseReset s).expectFailed = s.expectFailed := rfl

@[simp] theorem clearOut_eq (s : State) : clearOut s = writeOut [] s := rfl

/-! ## The buffers at reset -/

/-- R281, log entry 11: the buffers of the reset state are in canonical form. -/
theorem reset_wf : State.reset.dataIn.wf = true ∧ State.reset.pw.wf = true ∧ State.reset.out.wf = true :=
  ⟨rfl, rfl, rfl⟩

end Sys2Proof.Machine
end

