-- ==== Sys2Proof/Laws/Exec.lean ====
section
/-! SUPPORT. What the commands can do, said once: every meaning ends in `finish`, and what the state it finishes from
can be. Later proofs cite `exec_cases` and the lemma of the one command instead of unfolding the meanings. -/

namespace Sys2Proof.Machine

/-! ## Lengths of the outputs -/

/-- R146: the size of a frame. -/
theorem frame_length (t d : Bytes) : (frame t d).length = 8 + t.length + d.length := by
  simp only [frame, List.length_append, be32_length]; omega

/-- R206: ciphertext and tag together. -/
theorem gcmAE_length (k n p a : Bytes) : ((gcmAE k n p a).1 ++ (gcmAE k n p a).2).length = p.length + 16 := by
  simp only [gcmAE, List.length_append, gctr_length, gcmTag_length]

/-- R207: a released plaintext is as long as the ciphertext. -/
theorem gcmAD_length {k n c a t p : Bytes} (h : gcmAD k n c a t = some p) : p.length = c.length := by
  unfold gcmAD at h
  split at h
  · rw [← Option.some.inj h, gctr_length]
  · cases h

/-! ## The operand selections -/

/-- R209: a draw of the nonce changes the counter of free values only. -/
theorem selectNonce_cases (s : State) :
    (s.nonceSrc = true ∧ selectNonce s = (some s.nonceIn, s)) ∨
    (s.nonceSrc = false ∧ selectNonce s = (Config.rngDraw s.draws, { s with draws := s.draws + 1 })) := by
  unfold selectNonce
  cases h : s.nonceSrc
  · exact .inr ⟨rfl, if_neg (by simp)⟩
  · exact .inl ⟨rfl, if_pos rfl⟩

/-- R182, R208: key selection fails exactly at a malformed work factor that is used. -/
theorem selectKey_eq_none (s : State) :
    selectKey s = none ↔ s.keySrc = false ∧ Config.kdfParamsValid s.kdfCost = false := by
  unfold selectKey kdfKey
  cases s.keySrc <;> cases Config.kdfParamsValid s.kdfCost <;> simp

/-! ## One lemma per command -/

theorem crcInit_eq (s : State) : exec .crcInit s = .next (finish .ok { s with crcAcc := 0xFFFFFFFF }) := rfl

theorem crcUpdate_cases (s : State) :
    (s.dataTooLong = true ∧ exec .crcUpdate s = .next (finish .lenErr s)) ∨
    (s.dataTooLong = false ∧ exec .crcUpdate s = .next (finish .ok { s with crcAcc := crcFold s.crcAcc s.input })) := by
  simp only [exec, execCrcUpdate]
  cases s.dataTooLong
  · exact .inr ⟨rfl, rfl⟩
  · exact .inl ⟨rfl, rfl⟩

theorem typeFromName_cases (s : State) :
    (s.dataTooLong = true ∧ exec .typeFromName s = .next (finish .lenErr s)) ∨
    (s.dataTooLong = false ∧ s.dataLen ≠ 4 ∧ exec .typeFromName s = .next (finish .nameLen s)) ∨
    (s.dataTooLong = false ∧ s.dataLen = 4 ∧ allAlpha (s.dataIn.bytes 4) = false ∧
      exec .typeFromName s = .next (finish .badType s)) ∨
    (s.dataTooLong = false ∧ s.dataLen = 4 ∧ allAlpha (s.dataIn.bytes 4) = true ∧
      exec .typeFromName s = .next (finish .ok
        { s with typeCode := ofBe32 (s.dataIn.bytes 4), typeProps := props (s.dataIn.bytes 4) })) := by
  simp only [exec, execTypeFromName]
  by_cases h1 : s.dataTooLong = true
  · exact .inl ⟨h1, by rw [if_pos h1]⟩
  · rw [if_neg h1]
    have h1 := Bool.eq_false_iff.mpr h1
    by_cases h2 : s.dataLen ≠ 4
    · exact .inr (.inl ⟨h1, h2, by rw [if_pos h2]⟩)
    · rw [if_neg h2]
      have h2 := not_not.mp h2
      cases h3 : allAlpha (s.dataIn.bytes 4)
      · exact .inr (.inr (.inl ⟨h1, h2, rfl, rfl⟩))
      · exact .inr (.inr (.inr ⟨h1, h2, rfl, rfl⟩))

theorem typeCheck_eq (s : State) :
    exec .typeCheck s = .next (finish (if allAlpha (be32 s.typeCode) then .ok else .badType)
      { s with typeProps := props (be32 s.typeCode) }) := rfl

theorem chunkBuild_cases (s : State) :
    (s.dataTooLong = true ∧ exec .chunkBuild s = .next (finish .lenErr s)) ∨
    (s.dataTooLong = false ∧ allAlpha (be32 s.typeCode) = false ∧
      exec .chunkBuild s = .next (finish .badType (clearOut s))) ∨
    (s.dataTooLong = false ∧ allAlpha (be32 s.typeCode) = true ∧
      exec .chunkBuild s = .next (finish .ok
        { writeOut (frame (be32 s.typeCode) s.input) s with
          chunkLen := s.dataLen
          chunkType := s.typeCode
          chunkCrcStored := crc32 (be32 s.typeCode ++ s.input)
          chunkCrcCalc := crc32 (be32 s.typeCode ++ s.input) })) := by
  simp only [exec, execChunkBuild]
  cases h1 : s.dataTooLong
  · cases h2 : allAlpha (be32 s.typeCode)
    · exact .inr (.inl ⟨rfl, rfl, rfl⟩)
    · exact .inr (.inr ⟨rfl, rfl, rfl⟩)
  · exact .inl ⟨rfl, rfl⟩

/-- R148: the frame registers of a whole frame whose length field is `len`. -/
def verifyBody (len : Nat) (s : State) : State :=
  { verifyHeader s with
    chunkCrcStored := ofBe32 (slice s.input (8 + len) (12 + len))
    chunkCrcCalc := crc32 (slice s.input 4 8 ++ slice s.input 8 (8 + len))
    consumed := BitVec.ofNat 32 (12 + len)
    typeProps := props (slice s.input 4 8) }

theorem chunkVerify_cases (s : State) :
    (s.dataTooLong = true ∧ exec .chunkVerify s = .next (finish .lenErr s)) ∨
    (s.dataTooLong = false ∧ ∃ len, len = (ofBe32 (slice s.input 0 4)).toNat ∧
      (((s.dataLen.toNat < 12 ∨ s.dataLen.toNat < 12 + len) ∧
          exec .chunkVerify s = .next (finish .truncated (verifyHeader s))) ∨
        (12 + len ≤ s.dataLen.toNat ∧
          exec .chunkVerify s = .next
            (if (verifyBody len s).chunkCrcStored ≠ (verifyBody len s).chunkCrcCalc then
              finish .crcMismatch (verifyBody len s)
            else if allAlpha (slice s.input 4 8) then
              finish .ok (writeOut (slice s.input 8 (8 + len)) (verifyBody len s))
            else finish .badType (verifyBody len s))))) := by
  simp only [exec, execChunkVerify]
  cases h1 : s.dataTooLong
  · refine .inr ⟨rfl, _, rfl, ?_⟩
    by_cases h2 : s.dataLen.toNat < 12 ∨ s.dataLen.toNat < 12 + (ofBe32 (slice s.input 0 4)).toNat
    · exact .inl ⟨h2, by rw [if_pos h2]; rfl⟩
    · exact .inr ⟨by omega, by rw [if_neg h2]; rfl⟩
  · exact .inl ⟨rfl, rfl⟩

theorem utf8Check_eq (s : State) :
    exec .utf8Check s =
      .next (finish (if s.dataTooLong then .lenErr else if utf8Valid s.input then .ok else .invalidEncoding) s) := by
  simp only [exec, execUtf8Check]
  cases s.dataTooLong <;> cases utf8Valid s.input <;> rfl

theorem kdfDerive_cases (s : State) :
    (s.pwTooLong = true ∧ exec .kdfDerive s = .next (finish .lenErr s)) ∨
    (s.pwTooLong = false ∧ Config.kdfParamsValid s.kdfCost = false ∧
      exec .kdfDerive s = .next (fatalEnd (clearOut s))) ∨
    (s.pwTooLong = false ∧ Config.kdfParamsValid s.kdfCost = true ∧
      exec .kdfDerive s =
        .next (finish .ok (writeOut (Config.kdfFn s.password s.salt s.kdfCost).toList s))) := by
  simp only [exec, execKdfDerive, kdfKey]
  cases s.pwTooLong <;> cases Config.kdfParamsValid s.kdfCost <;> simp

theorem aeadEncrypt_cases (s : State) :
    (s.aeadTooLong = true ∧ exec .aeadEncrypt s = .next (finish .lenErr s)) ∨
    (s.aeadTooLong = false ∧ selectKey s = none ∧ exec .aeadEncrypt s = .next (fatalEnd (clearOut s))) ∨
    (s.aeadTooLong = false ∧ ∃ k, selectKey s = some k ∧ ∃ o d,
      selectNonce s = (o, { s with draws := d }) ∧
      ((o = none ∧ exec .aeadEncrypt s = .next (finish .rngFail { clearOut s with keyInt := k, draws := d })) ∨
        ∃ n, o = some n ∧ exec .aeadEncrypt s = .next (finish .ok
          { writeOut ((gcmAE k.toList n.toList s.input []).1 ++ (gcmAE k.toList n.toList s.input []).2) s with
            keyInt := k, nonceOut := n, draws := d }))) := by
  simp only [exec, execAeadEncrypt]
  cases s.aeadTooLong with
  | true => exact .inl ⟨rfl, rfl⟩
  | false =>
    cases selectKey s with
    | none => exact .inr (.inl ⟨rfl, rfl, rfl⟩)
    | some k =>
      refine .inr (.inr ⟨rfl, k, rfl, ?_⟩)
      rcases selectNonce_cases s with ⟨h, hn⟩ | ⟨h, hn⟩
      · have hs : selectNonce { clearOut s with keyInt := k } = (some s.nonceIn, { clearOut s with keyInt := k }) :=
          if_pos h
        exact ⟨_, s.draws, hn, .inr ⟨_, rfl, by
          dsimp only [Bool.false_eq_true, if_false]; generalize hg : selectNonce _ = r; obtain rfl := hg.symm.trans hs; rfl⟩⟩
      · have hs : selectNonce { clearOut s with keyInt := k } =
            (Config.rngDraw s.draws, { clearOut s with keyInt := k, draws := s.draws + 1 }) :=
          if_neg (Bool.eq_false_iff.mp h)
        refine ⟨_, s.draws + 1, hn, ?_⟩
        dsimp only [Bool.false_eq_true, if_false]; generalize hg : selectNonce _ = r; obtain rfl := hg.symm.trans hs
        cases Config.rngDraw s.draws with
        | none => exact .inl ⟨rfl, rfl⟩
        | some n => exact .inr ⟨n, rfl, rfl⟩

theorem aeadDecrypt_cases (s : State) :
    (s.aeadTooLong = true ∧ exec .aeadDecrypt s = .next (finish .lenErr s)) ∨
    (s.aeadTooLong = false ∧ selectKey s = none ∧ exec .aeadDecrypt s = .next (fatalEnd (clearOut s))) ∨
    (s.aeadTooLong = false ∧ ∃ k, selectKey s = some k ∧ ∃ o,
      o = (if s.dataLen.toNat < 16 then none
        else gcmAD k.toList s.nonceIn.toList (slice s.input 0 (s.dataLen.toNat - 16)) []
          (slice s.input (s.dataLen.toNat - 16) s.dataLen.toNat)) ∧
      ((o = none ∧ exec .aeadDecrypt s = .next (finish .authFail { clearOut s with keyInt := k })) ∨
        ∃ p, o = some p ∧
          ((utf8Valid p = true ∧ exec .aeadDecrypt s = .next (finish .ok { writeOut p s with keyInt := k })) ∨
            (utf8Valid p = false ∧
              exec .aeadDecrypt s = .next (finish .invalidEncoding { clearOut s with keyInt := k }))))) := by
  simp only [exec, execAeadDecrypt, tagBytes]
  cases s.aeadTooLong with
  | true => exact .inl ⟨rfl, rfl⟩
  | false =>
    cases selectKey s with
    | none => exact .inr (.inl ⟨rfl, rfl, rfl⟩)
    | some k =>
      refine .inr (.inr ⟨rfl, k, rfl, _, rfl, ?_⟩)
      by_cases hn : s.dataLen.toNat < 16
      · simp only [hn, if_true]; exact .inl ⟨trivial, rfl⟩
      · simp only [hn, if_false, Bool.false_eq_true]
        cases gcmAD k.toList s.nonceIn.toList (slice s.input 0 (s.dataLen.toNat - 16)) []
          (slice s.input (s.dataLen.toNat - 16) s.dataLen.toNat) with
        | none => exact .inl ⟨rfl, rfl⟩
        | some p =>
          refine .inr ⟨p, rfl, ?_⟩
          cases hu : utf8Valid p
          · refine .inr ⟨rfl, ?_⟩; simp only [hu]; rfl
          · refine .inl ⟨rfl, ?_⟩; simp only [hu]; rfl

theorem zeroize_eq (s : State) : exec .zeroize s = .next (finish .ok (zeroizeAll s)) := rfl


/-! ## All commands at once -/

/-- R100: RESULT tells the result codes apart. -/
theorem code_inj (c c' : ResultCode) : c.code.setWidth 32 = c'.code.setWidth 32 ↔ c = c' := by
  cases c <;> cases c' <;> decide

/-- R244: the state `fatal()` completes from. -/
theorem fatalEnd_eq (s : State) : fatalEnd s = finish .fatal { zeroizeAll s with fatal := true } := rfl

/-- R94: what command `i`, run in `s`, can have done before it completes with `c` from `u`. -/
structure Effect (i : Instr) (s : State) (c : ResultCode) (u : State) : Prop where
  /-- What no command writes. -/
  frame : u =
    { s with
      crcAcc := u.crcAcc, typeCode := u.typeCode, typeProps := u.typeProps, out := u.out, outLen := u.outLen
      chunkLen := u.chunkLen, chunkType := u.chunkType, chunkCrcStored := u.chunkCrcStored
      chunkCrcCalc := u.chunkCrcCalc, consumed := u.consumed, nonceOut := u.nonceOut, keyInt := u.keyInt
      draws := u.draws, fatal := u.fatal, dataIn := u.dataIn, pw := u.pw, pwLen := u.pwLen, keyIn := u.keyIn
      saltIn := u.saltIn }
  /-- R31: the only writers of CRC_ACC. -/
  crcAcc : u.crcAcc = s.crcAcc ∨ i = .crcInit ∨ i = .crcUpdate
  /-- R30: TYPE_PROPS holds the properties of some type. -/
  typeProps : u.typeProps = s.typeProps ∨ ∃ t, u.typeProps = props t
  /-- R28, R42: OUT is as before or was written whole. -/
  out : (u.out = s.out ∧ u.outLen = s.outLen) ∨
    ∃ b : Bytes, b.length ≤ Config.outBytes ∧ u.out = Memory.ofBytes b ∧ u.outLen = BitVec.ofNat 32 b.length
  /-- R251: an error leaves OUT as before or clear. -/
  outError : c ≠ .ok → (u.out = s.out ∧ u.outLen = s.outLen) ∨ (u.out = [] ∧ u.outLen = 0)
  /-- R251: the length errors come before any effect. -/
  lengthError : c = .lenErr ∨ c = .nameLen → u = s
  /-- R37: the only writer of NONCE_OUT. -/
  nonceOut : u.nonceOut = s.nonceOut ∨ (i = .aeadEncrypt ∧ c = .ok)
  /-- R244: FATAL is entered zeroized, and by no other code. -/
  fatal : (c = .fatal ∧ u = { zeroizeAll (clearOut s) with fatal := true } ∧
      (i = .kdfDerive ∨ i = .aeadEncrypt ∨ i = .aeadDecrypt)) ∨
    (c ≠ .fatal ∧ u.fatal = s.fatal)
  /-- R40, R41: the operands are as before or were zeroized. -/
  operands : (u.dataIn = s.dataIn ∧ u.pw = s.pw ∧ u.pwLen = s.pwLen ∧ u.keyIn = s.keyIn ∧ u.saltIn = s.saltIn) ∨
    (u.dataIn = [] ∧ u.pw = [] ∧ (i = .zeroize ∨ c = .fatal))

/-- A command that completes from the state it was given. -/
theorem Effect.refl (i : Instr) (s : State) (c : ResultCode) (h : c ≠ .fatal) : Effect i s c s where
  frame := rfl
  crcAcc := .inl rfl
  typeProps := .inl rfl
  out := .inl ⟨rfl, rfl⟩
  outError := fun _ => .inl ⟨rfl, rfl⟩
  lengthError := fun _ => rfl
  nonceOut := .inl rfl
  fatal := .inr ⟨h, rfl⟩
  operands := .inl ⟨rfl, rfl, rfl, rfl, rfl⟩

/-- R182: a command that ends in `fatal()`. -/
theorem Effect.fatalEnd (i : Instr) (s : State) (h : i = .kdfDerive ∨ i = .aeadEncrypt ∨ i = .aeadDecrypt) :
    Effect i s .fatal { zeroizeAll (clearOut s) with fatal := true } where
  frame := rfl
  crcAcc := .inl rfl
  typeProps := .inl rfl
  out := .inr ⟨[], by simp, rfl, rfl⟩
  outError := fun _ => .inr ⟨rfl, rfl⟩
  lengthError := by simp
  nonceOut := .inl rfl
  fatal := .inl ⟨rfl, rfl, h⟩
  operands := .inr ⟨rfl, rfl, .inr rfl⟩

/-- R27: the length the checks let through. -/
theorem dataLen_le {s : State} (h : s.dataTooLong = false) : s.dataLen.toNat ≤ Config.bufBytes := by
  simpa [State.dataTooLong] using h

theorem aeadTooLong_eq_false {s : State} (h : s.aeadTooLong = false) : s.dataTooLong = false := by
  simp only [State.aeadTooLong, Bool.or_eq_false_iff] at h; exact h.1

@[simp] theorem input_length (s : State) : s.input.length = s.dataLen.toNat := Memory.bytes_length _ _

/-- R94, R51: every command completes, and has done nothing but its effect. -/
theorem exec_effect (i : Instr) (s : State) : ∃ c u, exec i s = .next (finish c u) ∧ Effect i s c u := by
  have hcap := Config.bufBytes_range
  cases i with
  | crcInit =>
    exact ⟨_, _, rfl, { Effect.refl .crcInit s .ok (by decide) with
      frame := rfl, lengthError := by simp, fatal := .inr ⟨by decide, rfl⟩, crcAcc := .inr (.inl rfl) }⟩
  | crcUpdate =>
    rcases crcUpdate_cases s with ⟨_, h⟩ | ⟨_, h⟩
    · exact ⟨_, _, h, Effect.refl _ _ _ (by decide)⟩
    · exact ⟨_, _, h, { Effect.refl .crcUpdate s .ok (by decide) with
        frame := rfl, lengthError := by simp, fatal := .inr ⟨by decide, rfl⟩, crcAcc := .inr (.inr rfl) }⟩
  | typeFromName =>
    rcases typeFromName_cases s with ⟨_, h⟩ | ⟨_, _, h⟩ | ⟨_, _, _, h⟩ | ⟨_, _, _, h⟩
    · exact ⟨_, _, h, Effect.refl _ _ _ (by decide)⟩
    · exact ⟨_, _, h, Effect.refl _ _ _ (by decide)⟩
    · exact ⟨_, _, h, Effect.refl _ _ _ (by decide)⟩
    · exact ⟨_, _, h, { Effect.refl .typeFromName s .ok (by decide) with
        frame := rfl, lengthError := by simp, fatal := .inr ⟨by decide, rfl⟩, typeProps := .inr ⟨_, rfl⟩ }⟩
  | typeCheck =>
    refine ⟨_, _, typeCheck_eq s, ?_⟩
    cases allAlpha (be32 s.typeCode)
    · exact { Effect.refl .typeCheck s .badType (by decide) with
        frame := rfl, lengthError := by simp, fatal := .inr ⟨by decide, rfl⟩, typeProps := .inr ⟨_, rfl⟩ }
    · exact { Effect.refl .typeCheck s .ok (by decide) with
        frame := rfl, lengthError := by simp, fatal := .inr ⟨by decide, rfl⟩, typeProps := .inr ⟨_, rfl⟩ }
  | chunkBuild =>
    rcases chunkBuild_cases s with ⟨_, h⟩ | ⟨_, _, h⟩ | ⟨hl, _, h⟩
    · exact ⟨_, _, h, Effect.refl _ _ _ (by decide)⟩
    · exact ⟨_, _, h, { Effect.refl .chunkBuild s .badType (by decide) with
        frame := rfl, lengthError := by simp, fatal := .inr ⟨by decide, rfl⟩, out := .inr ⟨[], by simp, rfl, rfl⟩
        outError := fun _ => .inr ⟨rfl, rfl⟩ }⟩
    · refine ⟨_, _, h, { Effect.refl .chunkBuild s .ok (by decide) with
        frame := rfl, lengthError := by simp, fatal := .inr ⟨by decide, rfl⟩, out := .inr ⟨_, ?_, rfl, rfl⟩, outError := by simp }⟩
      have := dataLen_le hl
      simp only [frame_length, be32_length, input_length, Config.outBytes]
      omega
  | chunkVerify =>
    rcases chunkVerify_cases s with ⟨_, h⟩ | ⟨hl, len, -, ⟨_, h⟩ | ⟨hn, h⟩⟩
    · exact ⟨_, _, h, Effect.refl _ _ _ (by decide)⟩
    · exact ⟨_, _, h, { Effect.refl .chunkVerify s .truncated (by decide) with
        frame := rfl, lengthError := by simp, fatal := .inr ⟨by decide, rfl⟩, out := .inr ⟨[], by simp, rfl, rfl⟩
        outError := fun _ => .inr ⟨rfl, rfl⟩ }⟩
    · split at h
      · exact ⟨_, _, h, { Effect.refl .chunkVerify s .crcMismatch (by decide) with
          frame := rfl, lengthError := by simp, fatal := .inr ⟨by decide, rfl⟩, out := .inr ⟨[], by simp, rfl, rfl⟩
          typeProps := .inr ⟨_, rfl⟩, outError := fun _ => .inr ⟨rfl, rfl⟩ }⟩
      · split at h
        · refine ⟨_, _, h, { Effect.refl .chunkVerify s .ok (by decide) with
            frame := rfl, lengthError := by simp, fatal := .inr ⟨by decide, rfl⟩, out := .inr ⟨_, ?_, rfl, rfl⟩
            typeProps := .inr ⟨_, rfl⟩, outError := by simp }⟩
          have := dataLen_le hl
          simp only [slice_length, input_length, Config.outBytes]
          omega
        · exact ⟨_, _, h, { Effect.refl .chunkVerify s .badType (by decide) with
            frame := rfl, lengthError := by simp, fatal := .inr ⟨by decide, rfl⟩, out := .inr ⟨[], by simp, rfl, rfl⟩
            typeProps := .inr ⟨_, rfl⟩, outError := fun _ => .inr ⟨rfl, rfl⟩ }⟩
  | utf8Check =>
    refine ⟨_, _, utf8Check_eq s, Effect.refl _ _ _ ?_⟩
    cases s.dataTooLong <;> cases utf8Valid s.input <;> decide
  | kdfDerive =>
    rcases kdfDerive_cases s with ⟨_, h⟩ | ⟨_, _, h⟩ | ⟨_, _, h⟩
    · exact ⟨_, _, h, Effect.refl _ _ _ (by decide)⟩
    · exact ⟨_, _, h, Effect.fatalEnd _ s (.inl rfl)⟩
    · refine ⟨_, _, h, { Effect.refl .kdfDerive s .ok (by decide) with
        frame := rfl, lengthError := by simp, fatal := .inr ⟨by decide, rfl⟩, out := .inr ⟨_, ?_, rfl, rfl⟩, outError := by simp }⟩
      simp only [Vector.length_toList, Config.outBytes]
      omega
  | aeadEncrypt =>
    rcases aeadEncrypt_cases s with ⟨_, h⟩ | ⟨_, _, h⟩ | ⟨hl, k, _, o, d, _, ⟨_, h⟩ | ⟨n, _, h⟩⟩
    · exact ⟨_, _, h, Effect.refl _ _ _ (by decide)⟩
    · exact ⟨_, _, h, Effect.fatalEnd _ s (.inr (.inl rfl))⟩
    · exact ⟨_, _, h, { Effect.refl .aeadEncrypt s .rngFail (by decide) with
        frame := rfl, lengthError := by simp, fatal := .inr ⟨by decide, rfl⟩, out := .inr ⟨[], by simp, rfl, rfl⟩
        outError := fun _ => .inr ⟨rfl, rfl⟩ }⟩
    · refine ⟨_, _, h, { Effect.refl .aeadEncrypt s .ok (by decide) with
        frame := rfl, lengthError := by simp, fatal := .inr ⟨by decide, rfl⟩, out := .inr ⟨_, ?_, rfl, rfl⟩, outError := by simp
        nonceOut := .inr ⟨rfl, rfl⟩ }⟩
      have := dataLen_le (aeadTooLong_eq_false hl)
      simp only [gcmAE_length, input_length, Config.outBytes]
      omega
  | aeadDecrypt =>
    rcases aeadDecrypt_cases s with ⟨_, h⟩ | ⟨_, _, h⟩ | ⟨hl, k, _, o, ho, ⟨_, h⟩ | ⟨p, hp, ⟨_, h⟩ | ⟨_, h⟩⟩⟩
    · exact ⟨_, _, h, Effect.refl _ _ _ (by decide)⟩
    · exact ⟨_, _, h, Effect.fatalEnd _ s (.inr (.inr rfl))⟩
    · exact ⟨_, _, h, { Effect.refl .aeadDecrypt s .authFail (by decide) with
        frame := rfl, lengthError := by simp, fatal := .inr ⟨by decide, rfl⟩, out := .inr ⟨[], by simp, rfl, rfl⟩
        outError := fun _ => .inr ⟨rfl, rfl⟩ }⟩
    · refine ⟨_, _, h, { Effect.refl .aeadDecrypt s .ok (by decide) with
        frame := rfl, lengthError := by simp, fatal := .inr ⟨by decide, rfl⟩, out := .inr ⟨_, ?_, rfl, rfl⟩, outError := by simp }⟩
      have := dataLen_le (aeadTooLong_eq_false hl)
      rw [hp] at ho
      split at ho
      · cases ho
      · rw [gcmAD_length ho.symm]
        simp only [slice_length, input_length, Config.outBytes]
        omega
    · exact ⟨_, _, h, { Effect.refl .aeadDecrypt s .invalidEncoding (by decide) with
        frame := rfl, lengthError := by simp, fatal := .inr ⟨by decide, rfl⟩, out := .inr ⟨[], by simp, rfl, rfl⟩
        outError := fun _ => .inr ⟨rfl, rfl⟩ }⟩
  | zeroize =>
    exact ⟨_, _, rfl, { Effect.refl .zeroize s .ok (by decide) with
      frame := rfl, lengthError := by simp, fatal := .inr ⟨by decide, rfl⟩, out := .inr ⟨[], by simp, rfl, rfl⟩
      outError := by simp, operands := .inr ⟨rfl, rfl, .inl rfl⟩ }⟩

/-- `s` with other values in fields that no command reads: the HOST's own, the order of the agents, and WBUSY. -/
def aside (p : List Stmt) (r : Option Response) (w : Bool) (ts : List Turn) (s : State) : State :=
  { s with program := p, response := r, wbusy := w, turns := ts }

/-- R94: no command reads or writes the fields of `aside`. -/
theorem exec_aside (i : Instr) (s : State) (p : List Stmt) (r : Option Response) (w : Bool) (ts : List Turn)
    {t : State} (h : exec i s = .next t) : exec i (aside p r w ts s) = .next (aside p r w ts t) := by
  cases i with
  | crcInit => cases h; rfl
  | crcUpdate =>
    simp only [exec, execCrcUpdate] at h ⊢; cases h
    rw [show (aside p r w ts s).dataTooLong = s.dataTooLong from rfl]; cases s.dataTooLong <;> rfl
  | typeFromName =>
    rcases typeFromName_cases s with ⟨h1, e⟩ | ⟨h1, h2, e⟩ | ⟨h1, h2, h3, e⟩ | ⟨h1, h2, h3, e⟩ <;> cases e.symm.trans h <;>
      rcases typeFromName_cases (aside p r w ts s) with ⟨g1, e⟩ | ⟨g1, g2, e⟩ | ⟨g1, g2, g3, e⟩ | ⟨g1, g2, g3, e⟩ <;>
      first | exact e | exact absurd (h1.symm.trans g1) (by decide) | exact absurd g2 h2 | exact absurd h2 g2 | exact absurd (h3.symm.trans g3) (by decide)
  | typeCheck => cases h; rfl
  | chunkBuild =>
    rcases chunkBuild_cases s with ⟨h1, e⟩ | ⟨h1, h2, e⟩ | ⟨h1, h2, e⟩ <;> cases e.symm.trans h <;>
      rcases chunkBuild_cases (aside p r w ts s) with ⟨g1, e⟩ | ⟨g1, g2, e⟩ | ⟨g1, g2, e⟩ <;>
      first | exact e | exact absurd (h1.symm.trans g1) (by decide) | exact absurd (h2.symm.trans g2) (by decide)
  | chunkVerify =>
    rcases chunkVerify_cases s with ⟨h1, e⟩ | ⟨h1, n, hn, ⟨h2, e⟩ | ⟨h2, e⟩⟩ <;> cases e.symm.trans h <;>
      rcases chunkVerify_cases (aside p r w ts s) with ⟨g1, f⟩ | ⟨g1, m, gn, ⟨g2, f⟩ | ⟨g2, f⟩⟩ <;>
      first | exact f | exact absurd (h1.symm.trans g1) (by decide) | skip
    all_goals (obtain rfl : m = n := gn.trans hn.symm)
    · change 12 + _ ≤ s.dataLen.toNat at g2; omega
    · change s.dataLen.toNat < 12 ∨ s.dataLen.toNat < 12 + _ at g2; omega
    · rw [f]
      change Host.Outcome.next (if (verifyBody m s).chunkCrcStored ≠ (verifyBody m s).chunkCrcCalc then _ else if allAlpha (slice s.input 4 8) then _ else _) = _
      split
      · rfl
      · split <;> rfl
  | utf8Check =>
    rw [utf8Check_eq] at h ⊢; cases h
    rw [show (aside p r w ts s).dataTooLong = s.dataTooLong from rfl, show (aside p r w ts s).input = s.input from rfl]
    cases s.dataTooLong <;> cases utf8Valid s.input <;> rfl
  | kdfDerive =>
    rcases kdfDerive_cases s with ⟨h1, e⟩ | ⟨h1, h2, e⟩ | ⟨h1, h2, e⟩ <;> cases e.symm.trans h <;>
      rcases kdfDerive_cases (aside p r w ts s) with ⟨g1, e⟩ | ⟨g1, g2, e⟩ | ⟨g1, g2, e⟩ <;>
      first | exact e | exact absurd (h1.symm.trans g1) (by decide) | exact absurd (h2.symm.trans g2) (by decide)
  | aeadEncrypt =>
    simp only [exec, execAeadEncrypt] at h ⊢; cases h
    rw [show (aside p r w ts s).aeadTooLong = s.aeadTooLong from rfl, show selectKey (aside p r w ts s) = selectKey s from rfl]
    cases s.aeadTooLong with
    | true => rfl
    | false =>
      cases selectKey s with
      | none => rfl
      | some k =>
        dsimp only [Bool.false_eq_true, if_false]
        by_cases hn : s.nonceSrc = true
        · have e : ∀ u : State, u.nonceSrc = s.nonceSrc → selectNonce u = (some u.nonceIn, u) := fun u h => if_pos (h.trans hn)
          generalize hg : selectNonce _ = x
          obtain rfl := hg.symm.trans (e _ rfl)
          generalize hg : selectNonce _ = x
          obtain rfl := hg.symm.trans (e _ rfl)
          rfl
        · have e : ∀ u : State, u.nonceSrc = s.nonceSrc → u.draws = s.draws →
              selectNonce u = (Config.rngDraw s.draws, { u with draws := s.draws + 1 }) :=
            fun u h hd => hd ▸ if_neg (h ▸ hn)
          generalize hg : selectNonce _ = x
          obtain rfl := hg.symm.trans (e _ rfl rfl)
          generalize hg : selectNonce _ = x
          obtain rfl := hg.symm.trans (e _ rfl rfl)
          cases Config.rngDraw s.draws <;> rfl
  | aeadDecrypt =>
    simp only [exec, execAeadDecrypt] at h ⊢; cases h
    rw [show (aside p r w ts s).aeadTooLong = s.aeadTooLong from rfl, show selectKey (aside p r w ts s) = selectKey s from rfl]
    cases s.aeadTooLong with
    | true => rfl
    | false =>
      cases selectKey s with
      | none => rfl
      | some k =>
        rw [show (aside p r w ts s).dataLen = s.dataLen from rfl, show (aside p r w ts s).input = s.input from rfl,
          show (aside p r w ts s).nonceIn = s.nonceIn from rfl]
        by_cases hn : s.dataLen.toNat < tagBytes
        · simp only [if_pos hn]; rfl
        · simp only [if_neg hn]
          cases gcmAD k.toList s.nonceIn.toList (slice s.input 0 (s.dataLen.toNat - tagBytes)) []
              (slice s.input (s.dataLen.toNat - tagBytes) s.dataLen.toNat) with
          | none => rfl
          | some q => cases hu : utf8Valid q <;> simp only [hu] <;> rfl
  | zeroize => cases h; rfl

end Sys2Proof.Machine
end

