-- ==== Sys2Proof/Laws/Step.lean ====
section
/-! SUPPORT. What one step can do, said once: `engineStep_cases`, `hostTurn_cases` and `step_cases` are the inversions
that later proofs cite instead of unfolding the step. -/

namespace Sys2Proof.Machine

/-- R50, R92: every ENGINE step completes: with FATAL, with ILLEGAL_CMD, or with the effect of the decoded command. -/
theorem engineStep_cases (s : State) : ∃ c u, engineStep s = .next (finish c u) ∧
    ((s.fatal = true ∧ c = .fatal ∧ u = s) ∨
      (s.fatal = false ∧ (∃ e, decode s.cmd = .error e) ∧ c = .illegalCmd ∧ u = s) ∨
      (s.fatal = false ∧ ∃ i, decode s.cmd = .ok i ∧ exec i s = .next (finish c u) ∧ Effect i s c u)) := by
  unfold engineStep
  cases hf : s.fatal with
  | true => exact ⟨_, _, rfl, .inl ⟨rfl, rfl, rfl⟩⟩
  | false =>
    cases hd : decode s.cmd with
    | error e => exact ⟨_, _, rfl, .inr (.inl ⟨rfl, ⟨e, rfl⟩, rfl, rfl⟩)⟩
    | ok i =>
      obtain ⟨c, u, h, he⟩ := exec_effect i s
      exact ⟨c, u, h, .inr (.inr ⟨rfl, i, rfl, h, he⟩)⟩

/-- R67: a write does not depend on what is left of the HOST's program, and leaves it. -/
theorem writeLoc_program (v : Word) (s : State) (p : List Stmt) (l : Loc) :
    writeLoc v { s with program := p } l = { writeLoc v s l with program := p } := by
  cases l with
  | reg r => cases r <;> first | rfl | (rename_i k; match k with | 0 | 1 | 2 => rfl)
  | pw i => rfl
  | dataIn i => rfl
  | out i => rfl

/-- What one HOST access makes of the block `s`: nothing, a dropped write, or a write of an idle block. -/
inductive Touched (s : State) : State → Prop where
  | same : Touched s s
  | dropped (h : s.busy = true) : Touched s { s with wbusy := true }
  | wrote (l : Loc) (v : Word) (a : Nat) (hb : s.busy = false) (hr : s.resetAsserted = false) (h4 : a % 4 = 0)
      (hl : locate a = some l) : Touched s (writeLoc v s l)

/-- `t` is `u` but for what is the HOST's own and the counter of free values. -/
def HostOf (u t : State) : Prop :=
  t = { u with
    program := t.program, vars := t.vars, response := t.response, expectFailed := t.expectFailed, draws := t.draws }

theorem HostOf.refl (u : State) : HostOf u u := rfl

theorem hostAccess_cases (a : Access) (s : State) (p : List Stmt) :
    ∃ u, Touched s u ∧ HostOf u (hostAccess a { s with program := p }) ∧
      (hostAccess a { s with program := p }).program = p := by
  generalize hs : ({ s with program := p } : State) = s'
  have hc := busAccess_state a s'
  unfold hostAccess
  generalize busAccess a s' = r at hc ⊢
  obtain ⟨r, w⟩ := r
  dsimp only at hc ⊢
  subst hs
  rcases hc with rfl | ⟨_, rfl⟩ | ⟨hb, rfl⟩ | ⟨l, v, hb, hr, h4, hl, rfl⟩
  · exact ⟨s, .same, rfl, rfl⟩
  · exact ⟨s, .same, rfl, rfl⟩
  · exact ⟨_, .dropped hb, rfl, rfl⟩
  · refine ⟨_, .wrote l v _ hb hr h4 hl, ?_⟩
    generalize hw : writeLoc v { s with program := p } l = w
    obtain rfl := hw.symm.trans (writeLoc_program v s p l)
    exact ⟨rfl, rfl⟩

theorem hostOf_keepRead {u t : State} (x : Nat) (h : HostOf u t) : HostOf u (keepRead x t) := by
  unfold HostOf at h
  unfold keepRead
  split <;> (rw [h]; rfl)

/-- R102, R71: a HOST turn makes at most one access, and changes besides only what is the HOST's own. -/
theorem hostTurn_cases {s t : State} (h : hostTurn s = .next t) : ∃ u, Touched s u ∧ HostOf u t := by
  unfold hostTurn at h
  split at h
  · cases h; exact ⟨s, .same, rfl⟩
  · cases h
    obtain ⟨u, hu, ht, _⟩ := hostAccess_cases _ s _
    exact ⟨u, hu, ht⟩
  · split at h
    · cases h
      obtain ⟨u, hu, ht, _⟩ := hostAccess_cases _ s _
      exact ⟨u, hu, ht⟩
    · cases h
  · cases h
    obtain ⟨u, hu, ht, _⟩ := hostAccess_cases _ s _
    exact ⟨u, hu, hostOf_keepRead _ ht⟩
  · rename_i l m v p hp
    cases h
    obtain ⟨u, hu, ht, _⟩ := hostAccess_cases (accessAt .read l) s s.program
    refine ⟨u, hu, ?_⟩
    change HostOf u (hostAccess (accessAt .read l) s) at ht
    unfold HostOf at ht
    split
    · rw [ht]; rfl
    · exact ht
  · rename_i l v p hp
    cases h
    obtain ⟨u, hu, ht, _⟩ := hostAccess_cases (accessAt .read l) s p
    refine ⟨u, hu, ?_⟩
    unfold HostOf at ht
    split
    · exact ht
    · rw [ht]; rfl
  · cases h
    obtain ⟨u, hu, ht, _⟩ := hostAccess_cases _ s _
    exact ⟨u, hu, ht⟩

/-- The order of the agents after a step: its oldest turn is taken. -/
def restTurns (s : State) : List Turn := s.turns.tail

/-- R50, R71, R280: everything a step can do. -/
theorem step_cases {s t : State} (h : step s = .next t) :
    (s.busy = true ∧ engineStep { s with turns := restTurns s } = .next t) ∨
    hostTurn { s with turns := restTurns s } = .next t ∨
    (s.busy = false ∧ t = { s with turns := restTurns s }) ∨
    (s.turns.head? = some .assertReset ∧ t = assertReset { s with turns := restTurns s }) ∨
    (s.turns.head? = some .releaseReset ∧ t = releaseReset { s with turns := restTurns s }) := by
  unfold step nextMove at h
  split at h
  · rename_i m ts hts
    have hr : restTurns s = ts := by rw [restTurns, hts]; rfl
    rw [hr]
    cases m with
    | host => exact .inr (.inl h)
    | engine =>
      simp only [takeTurn, engineTurn] at h
      by_cases hb : s.busy = true
      · rw [if_pos hb] at h; exact .inl ⟨hb, h⟩
      · rw [if_neg hb] at h; exact .inr (.inr (.inl ⟨by simpa using hb, by cases h; rfl⟩))
    | assertReset => cases h; exact .inr (.inr (.inr (.inl ⟨by rw [hts]; rfl, rfl⟩)))
    | releaseReset => cases h; exact .inr (.inr (.inr (.inr ⟨by rw [hts]; rfl, rfl⟩)))
  · rename_i hts
    have hs : { s with turns := restTurns s } = s := by rw [restTurns, hts, List.tail_nil, ← hts]
    rw [hs]
    by_cases hb : s.busy = true
    · rw [if_pos hb] at h; exact .inl ⟨hb, h⟩
    · rw [if_neg hb] at h; exact .inr (.inl h)

/-- The move of an agent when no turn is given. -/
theorem step_default (s : State) (h : s.turns = []) : step s = if s.busy then engineStep s else hostTurn s := by
  unfold step nextMove; rw [h]

/-- Log entry 15: the step after `withFetchWord` runs the command that the decoder reads from the word. -/
theorem step_withFetchWord (s : State) (nbits w : Nat) (i : Instr) (h : decodeTableWord nbits w = some i) :
    step (s.withFetchWord nbits w) =
      exec i { s with
        cmd := BitVec.ofNat 32 (w % 2 ^ nbits), busy := true, done := false, err := false, fatal := false } := by
  unfold decodeTableWord at h
  cases hd : decode (BitVec.ofNat 32 (w % 2 ^ nbits)) with
  | error e => rw [hd] at h; cases h
  | ok j =>
    rw [hd] at h
    cases h
    have e : step (s.withFetchWord nbits w) = engineStep { s with
        cmd := BitVec.ofNat 32 (w % 2 ^ nbits), busy := true, done := false, err := false, fatal := false } := rfl
    rw [e]
    unfold engineStep
    dsimp only
    rw [hd]
    rfl

/-- R51: what every ENGINE step leaves. -/
theorem engineStep_completes {s t : State} (h : engineStep s = .next t) :
    t.busy = false ∧ t.done = true ∧ t.cmdCount = s.cmdCount + 1 ∧ t.program = s.program ∧ t.vars = s.vars ∧
      t.turns = s.turns := by
  obtain ⟨c, u, he, hc⟩ := engineStep_cases s
  rw [he] at h
  cases h
  rcases hc with ⟨_, _, rfl⟩ | ⟨_, _, _, rfl⟩ | ⟨_, i, _, _, hi⟩
  · exact ⟨rfl, rfl, rfl, rfl, rfl, rfl⟩
  · exact ⟨rfl, rfl, rfl, rfl, rfl, rfl⟩
  · rw [hi.frame]; exact ⟨rfl, rfl, rfl, rfl, rfl, rfl⟩

/-- R72, R94: an ENGINE step does not depend on what is the HOST's own, the order of the agents, or WBUSY, and leaves
them. -/
theorem engineStep_aside (s : State) (p : List Stmt) (r : Option Response) (w : Bool) (ts : List Turn) {t : State}
    (h : engineStep s = .next t) : engineStep (aside p r w ts s) = .next (aside p r w ts t) := by
  unfold engineStep at h ⊢
  rw [show (aside p r w ts s).fatal = s.fatal from rfl, show (aside p r w ts s).cmd = s.cmd from rfl]
  cases hf : s.fatal with
  | true => rw [hf] at h; cases h; rfl
  | false =>
    rw [hf] at h
    cases hd : decode s.cmd with
    | error e => rw [hd] at h; cases h; rfl
    | ok i => rw [hd] at h; exact exec_aside i s p r w ts h

/-- A run of `k + 1` steps is a step and a run of `k`. -/
theorem run_step {s t : State} (h : step s = .next t) (k : Nat) :
    Host.Core.run Sys2Proof.core (k + 1) s = Host.Core.run Sys2Proof.core k t := by
  have succ : ∀ (M : Host.Core) (x : M.State), M.run (k + 1) x =
      match M.step x with
      | .next y => M.run k y
      | .fault r => .fault r
      | .refused r => .refused r := fun _ _ => rfl
  have e := succ Sys2Proof.core s
  have h' : Sys2Proof.core.step s = .next t := h
  rw [h'] at e
  exact e

end Sys2Proof.Machine
end

