-- ==== Sys2Proof/Laws/HostProgram.lean ====
section
/-! SUPPORT. Laws of host programs (30_encoding R102): variables, the program check, and what an access leaves of the
HOST's own state. -/

namespace Sys2Proof.Machine

/-- R102: a written variable has a value. -/
theorem varValue_of_mem (vs : List (Nat × Word)) (x : Nat) (h : x ∈ vs.map Prod.fst) : ∃ w, varValue vs x = some w := by
  induction vs with
  | nil => simp at h
  | cons p vs ih =>
    obtain ⟨k, w⟩ := p
    unfold varValue
    by_cases hk : k = x
    · rw [if_pos hk]; exact ⟨w, rfl⟩
    · rw [if_neg hk]
      simp only [List.map_cons, List.mem_cons] at h
      rcases h with h | h
      · exact absurd h.symm hk
      · exact ih h

/-- R102: the variables written after an RD. -/
theorem mem_setVar (vs : List (Nat × Word)) (x : Nat) (w : Word) (y : Nat) :
    y ∈ (setVar vs x w).map Prod.fst ↔ y = x ∨ y ∈ vs.map Prod.fst := by
  induction vs with
  | nil => simp [setVar]
  | cons p vs ih =>
    obtain ⟨k, v⟩ := p
    unfold setVar
    split
    · simp
    · split
      · rename_i h; subst h; simp
      · simp only [List.map_cons, List.mem_cons, ih]
        tauto

/-- R102: an RD leaves its value in its variable. -/
theorem varValue_setVar (vs : List (Nat × Word)) (x : Nat) (w : Word) : varValue (setVar vs x w) x = some w := by
  induction vs with
  | nil => simp [setVar, varValue]
  | cons p vs ih =>
    obtain ⟨k, v⟩ := p
    unfold setVar
    split
    · simp [varValue]
    · split
      · simp [varValue]
      · rename_i h1 h2
        simp only [varValue]
        rw [if_neg (fun h => h2 h.symm), ih]

/-- R102: more written variables keep a program well-formed. -/
theorem programWellFormed_mono (p : List Stmt) (a b : List Nat) (hab : ∀ x ∈ a, x ∈ b)
    (h : programWellFormed a p = true) : programWellFormed b p = true := by
  induction p generalizing a b with
  | nil => rfl
  | cons st p ih =>
    cases st with
    | wr t v =>
      simp only [programWellFormed, Bool.and_eq_true] at h ⊢
      refine ⟨⟨h.1.1, ?_⟩, ih a b hab h.2⟩
      cases v with
      | imm w => rfl
      | var x =>
        simp only [Operand.usable, List.contains_eq_mem, decide_eq_true_eq] at h ⊢
        exact hab _ h.1.2
    | rd t x =>
      simp only [programWellFormed, Bool.and_eq_true] at h ⊢
      refine ⟨h.1, ih _ _ ?_ h.2⟩
      intro y hy
      rcases List.mem_cons.mp hy with rfl | hy
      · exact List.mem_cons_self
      · exact List.mem_cons_of_mem _ (hab y hy)
    | poll t m v => simp only [programWellFormed, Bool.and_eq_true] at h ⊢; exact ⟨h.1, ih a b hab h.2⟩
    | expect t v => simp only [programWellFormed, Bool.and_eq_true] at h ⊢; exact ⟨h.1, ih a b hab h.2⟩
    | access a' => simp only [programWellFormed] at h ⊢; exact ih a b hab h

/-- R71: an access leaves the HOST's program, its variables and the order of the agents. -/
theorem hostAccess_host (a : Access) (s : State) :
    (hostAccess a s).program = s.program ∧ (hostAccess a s).vars = s.vars ∧ (hostAccess a s).turns = s.turns := by
  have hc := busAccess_state a s
  unfold hostAccess
  generalize busAccess a s = r at hc ⊢
  obtain ⟨r, w⟩ := r
  dsimp only at hc ⊢
  rcases hc with rfl | ⟨_, rfl⟩ | ⟨_, rfl⟩ | ⟨l, v, _, _, _, _, rfl⟩
  · exact ⟨rfl, rfl, rfl⟩
  · exact ⟨rfl, rfl, rfl⟩
  · exact ⟨rfl, rfl, rfl⟩
  · have h := writeLoc_frame v s l
    exact ⟨(congrArg State.program h :), (congrArg State.vars h :), (congrArg State.turns h :)⟩

/-- R61, R102: a well-formed target is an aligned offset of the window, and the map finds it there. -/
theorem locate_wellFormed {l : Loc} (h : l.wellFormed = true) :
    locate l.offset = some l ∧ l.offset % 4 = 0 ∧ l.offset < 2 ^ 18 := by
  have hp := Config.pwBytes_range
  have hb := Config.bufBytes_range
  have ho : Config.outBytes = Config.bufBytes + 16 := rfl
  cases l with
  | reg r => exact ⟨locate_reg r, r.offset_lt.2, Nat.lt_of_le_of_lt r.offset_lt.1 (by decide)⟩
  | pw i =>
    simp only [Loc.wellFormed, Bool.and_eq_true, beq_iff_eq, decide_eq_true_eq] at h
    refine ⟨locate_pw rfl h.2, ?_⟩
    simp only [Loc.offset, pwWindow]; omega
  | dataIn i =>
    simp only [Loc.wellFormed, Bool.and_eq_true, beq_iff_eq, decide_eq_true_eq] at h
    refine ⟨locate_dataIn rfl h.2, ?_⟩
    simp only [Loc.offset, dataInWindow]; omega
  | out i =>
    simp only [Loc.wellFormed, Bool.and_eq_true, beq_iff_eq, decide_eq_true_eq] at h
    refine ⟨locate_out rfl h.2, ?_⟩
    simp only [Loc.offset, outWindow]; omega

/-- R53, R67: a write to a well-formed target outside reset: dropped while busy, and otherwise done. -/
theorem memWrite_wellFormed {l : Loc} (h : l.wellFormed = true) (v : Word) {s : State} (hr : s.resetAsserted = false) :
    memWrite (BitVec.ofNat 18 l.offset) v s =
      .ok (if s.busy then { s with wbusy := true } else writeLoc v s l) := by
  obtain ⟨hl, h4, h18⟩ := locate_wellFormed h
  have e : (BitVec.ofNat 18 l.offset).toNat = l.offset := by rw [BitVec.toNat_ofNat, Nat.mod_eq_of_lt h18]
  rw [memWrite, servedAt_eq_some.mpr ⟨hr, by rw [e]; exact h4, by rw [e]; exact hl⟩]
  dsimp only
  cases s.busy <;> rfl

/-- R67: the HOST's access for a write that is served. -/
theorem hostAccess_write {l : Loc} {v : Word} {s u : State} (h : memWrite (BitVec.ofNat 18 l.offset) v s = .ok u) :
    hostAccess (accessAt (.write v) l) s = { u with response := some .accepted } := by
  have e : busAccess (accessAt (.write v) l) s = (.accepted, u) := by
    unfold busAccess
    rw [if_neg (show ¬ (accessAt (.write v) l).width ≠ 4 from fun h => h rfl)]
    dsimp only [accessAt]
    rw [h]
  unfold hostAccess
  rw [e]

/-- R102, R53: the HOST's turn at a WR of an immediate while busy, outside reset. -/
theorem hostTurn_wr_busy {l : Loc} (h : l.wellFormed = true) {v : Word} {s : State} {p : List Stmt} (hb : s.busy = true)
    (hr : s.resetAsserted = false) (hp : s.program = .wr l (.imm v) :: p) :
    hostTurn s = .next { s with wbusy := true, program := p, response := some .accepted } := by
  have hw := memWrite_wellFormed h v (s := { s with program := p }) hr
  rw [if_pos (show ({ s with program := p } : State).busy = true from hb)] at hw
  have e := hostAccess_write hw
  unfold hostTurn
  rw [hp]
  exact congrArg Host.Outcome.next e

/-- R102, R67: the HOST's turn at a WR of an immediate while idle, outside reset. -/
theorem hostTurn_wr_idle {l : Loc} (h : l.wellFormed = true) {v : Word} {s : State} {p : List Stmt} (hb : s.busy = false)
    (hr : s.resetAsserted = false) (hp : s.program = .wr l (.imm v) :: p) :
    hostTurn s = .next { writeLoc v s l with program := p, response := some .accepted } := by
  have hw := memWrite_wellFormed h v (s := { s with program := p }) hr
  rw [if_neg (show ¬ ({ s with program := p } : State).busy = true by simp [hb]), writeLoc_program] at hw
  have e := hostAccess_write hw
  unfold hostTurn
  rw [hp]
  exact congrArg Host.Outcome.next e

/-- R102: what keeping a read leaves. -/
theorem keepRead_host (x : Nat) (s : State) :
    (keepRead x s).program = s.program ∧ (keepRead x s).turns = s.turns ∧
      ∃ w, (keepRead x s).vars = setVar s.vars x w := by
  unfold keepRead
  split <;> exact ⟨rfl, rfl, _, rfl⟩

end Sys2Proof.Machine
end

