-- ==== Sys2Proof/Laws/PerInstr.lean ====
section
/-! SUPPORT. Statements made per command, one lemma per constructor of `Instr`. -/

namespace Sys2Proof.Laws

/-- 30_encoding R90, R93: the command's word is a legal word that decodes to the command, its MBZ field is 0, and no other
operation code of the table is its own. -/
def OwnWord.Statement (i : Instr) : Prop :=
  i.wellFormed = true ∧ decode (encode i) = .ok i ∧ (encode i).toNat < 256 ∧ decodeTableWord 32 (encode i).toNat = some i ∧
    ∀ j ∈ Instr.all, j.opc = i.opc → j = i

theorem OwnWord.crcInit : OwnWord.Statement .crcInit := by unfold OwnWord.Statement; decide
theorem OwnWord.crcUpdate : OwnWord.Statement .crcUpdate := by unfold OwnWord.Statement; decide
theorem OwnWord.typeFromName : OwnWord.Statement .typeFromName := by unfold OwnWord.Statement; decide
theorem OwnWord.typeCheck : OwnWord.Statement .typeCheck := by unfold OwnWord.Statement; decide
theorem OwnWord.chunkBuild : OwnWord.Statement .chunkBuild := by unfold OwnWord.Statement; decide
theorem OwnWord.chunkVerify : OwnWord.Statement .chunkVerify := by unfold OwnWord.Statement; decide
theorem OwnWord.utf8Check : OwnWord.Statement .utf8Check := by unfold OwnWord.Statement; decide
theorem OwnWord.kdfDerive : OwnWord.Statement .kdfDerive := by unfold OwnWord.Statement; decide
theorem OwnWord.aeadEncrypt : OwnWord.Statement .aeadEncrypt := by unfold OwnWord.Statement; decide
theorem OwnWord.aeadDecrypt : OwnWord.Statement .aeadDecrypt := by unfold OwnWord.Statement; decide
theorem OwnWord.zeroize : OwnWord.Statement .zeroize := by unfold OwnWord.Statement; decide

end Sys2Proof.Laws
end

