-- ==== Sys2Proof/Laws/Utf8.lean ====
section
/-! SUPPORT. Laws of the UTF-8 forms (41_crc_frame R160): at most one form fits a byte sequence, so the search of
`utf8ValidUpTo` finds it. -/

namespace Sys2Proof.Machine

theorem hasForm_nil (b : Bytes) : hasForm [] b = true := rfl

/-- A sequence that begins with a form is at least as long. -/
theorem hasForm_length (f : List (Byte × Byte)) (b : Bytes) (h : hasForm f b = true) : f.length ≤ b.length := by
  induction f generalizing b with
  | nil => simp
  | cons r f ih =>
    obtain ⟨lo, hi⟩ := r
    cases b with
    | nil => simp [hasForm] at h
    | cons x b =>
      simp only [hasForm, Bool.and_eq_true] at h
      have := ih b h.2
      simp only [List.length_cons]; omega

theorem utf8Forms_ne_nil : ∀ f ∈ utf8Forms, f ≠ [] := by decide

/-- R160: the first bytes of two rows of the table are never the same. -/
theorem utf8Forms_disjoint : ∀ f ∈ utf8Forms, ∀ g ∈ utf8Forms, ∀ x : Byte,
    hasForm (f.take 1) [x] = true → hasForm (g.take 1) [x] = true → f = g := by
  unfold utf8Forms; decide +kernel

theorem hasForm_head {f : List (Byte × Byte)} {b : Bytes} (hf : f ≠ []) (h : hasForm f b = true) :
    ∃ x b', b = x :: b' ∧ hasForm (f.take 1) [x] = true := by
  match f, hf, b, h with
  | (lo, hi) :: f, _, x :: b, h =>
    simp only [hasForm, Bool.and_eq_true] at h
    exact ⟨x, b, rfl, by simp [hasForm, h.1]⟩

/-- R160: at most one form fits. -/
theorem hasForm_unique {f g : List (Byte × Byte)} (hf : f ∈ utf8Forms) (hg : g ∈ utf8Forms) {b : Bytes}
    (h1 : hasForm f b = true) (h2 : hasForm g b = true) : f = g := by
  obtain ⟨x, b', rfl, hx⟩ := hasForm_head (utf8Forms_ne_nil f hf) h1
  obtain ⟨y, b'', hb, hy⟩ := hasForm_head (utf8Forms_ne_nil g hg) h2
  cases hb
  exact utf8Forms_disjoint f hf g hg x hx hy

/-- R160: the search finds the form that fits. -/
theorem find?_hasForm {f : List (Byte × Byte)} (hf : f ∈ utf8Forms) {b : Bytes} (h : hasForm f b = true) :
    utf8Forms.find? (fun f => hasForm f b) = some f := by
  cases hc : utf8Forms.find? (fun f => hasForm f b) with
  | none => exact absurd h (List.find?_eq_none.mp hc f hf)
  | some g =>
    have h1 := List.find?_some hc
    rw [hasForm_unique hf (List.mem_of_find?_eq_some hc) h h1]

end Sys2Proof.Machine
end

