-- ==== Sys2Proof/Tests/Slice0.lean ====
section
/-! SUPPORT. Tests of single operations and single steps against the vectors of spec/95_test_vectors.md, the smoke tests of
WellFormed, and a witness for the hypotheses of every statement. Expected values are the spec's, never the model's. -/

open Sys2Proof Sys2Proof.Machine Sys2Proof.Safety

/-! ## Small states -/

/-- The reset state with `b` as its input. -/
def Tests.dataState (b : Bytes) : State :=
  { State.reset with dataIn := Memory.ofBytes b, dataLen := BitVec.ofNat 32 b.length }

/-- The reset state with TYPE = `t` and `b` as its input. -/
def Tests.typeState (t : Word) (b : Bytes) : State := { Tests.dataState b with typeCode := t }

/-- K1 of 95_test_vectors: 00 01 .. 1F. -/
def Tests.k1 : Bytes32 :=
  #v[0x00, 0x01, 0x02, 0x03, 0x04, 0x05, 0x06, 0x07, 0x08, 0x09, 0x0A, 0x0B, 0x0C, 0x0D, 0x0E, 0x0F,
    0x10, 0x11, 0x12, 0x13, 0x14, 0x15, 0x16, 0x17, 0x18, 0x19, 0x1A, 0x1B, 0x1C, 0x1D, 0x1E, 0x1F]

/-- N1 of 95_test_vectors: 00 01 .. 0B. -/
def Tests.n1 : Vector Byte 12 := #v[0x00, 0x01, 0x02, 0x03, 0x04, 0x05, 0x06, 0x07, 0x08, 0x09, 0x0A, 0x0B]

/-- The state of the rows of V3: raw key K1, nonce N1. -/
def Tests.rawState (ctrl : Word) (b : Bytes) : State :=
  { Tests.dataState b with ctrl := ctrl, keyIn := Tests.k1, nonceIn := Tests.n1 }

/-- The state a command leaves. -/
def Tests.after (o : Host.Outcome State Fault Refusal) : State :=
  match o with
  | .next s => s
  | _ => State.reset

/-- Inputs of at most 16 bytes fit every block (R10). -/
theorem Tests.fits (b : Bytes) (h : b.length ≤ 16) : (Tests.dataState b).dataTooLong = false := by
  have := Config.bufBytes_range
  simp [State.dataTooLong, Tests.dataState]; omega

theorem Tests.typeFits (t : Word) (b : Bytes) (h : b.length ≤ 16) : (Tests.typeState t b).dataTooLong = false :=
  Tests.fits b h

theorem Tests.rawFits (ctrl : Word) (b : Bytes) (h : b.length ≤ 16) (hc : ctrl.getLsbD 2 = true) :
    (Tests.rawState ctrl b).aeadTooLong = false := by
  have h1 : (Tests.rawState ctrl b).dataTooLong = false := Tests.fits b h
  have h2 : (Tests.rawState ctrl b).keySrc = true := hc
  rw [State.aeadTooLong, h1, h2]; rfl

/-! ## Decoding: a word of each command, bit by bit from R90 and R93 -/

theorem test_decode_crcInit : decode 0b00000000000000000000000000000001 = .ok .crcInit := by decide
theorem test_decode_crcUpdate : decode 0b00000000000000000000000000000010 = .ok .crcUpdate := by decide
theorem test_decode_typeFromName : decode 0b00000000000000000000000000010000 = .ok .typeFromName := by decide
theorem test_decode_typeCheck : decode 0b00000000000000000000000000010001 = .ok .typeCheck := by decide
theorem test_decode_chunkBuild : decode 0b00000000000000000000000000010010 = .ok .chunkBuild := by decide
theorem test_decode_chunkVerify : decode 0b00000000000000000000000000010011 = .ok .chunkVerify := by decide
theorem test_decode_utf8Check : decode 0b00000000000000000000000000010100 = .ok .utf8Check := by decide
theorem test_decode_kdfDerive : decode 0b00000000000000000000000000100000 = .ok .kdfDerive := by decide
theorem test_decode_aeadEncrypt : decode 0b00000000000000000000000000100001 = .ok .aeadEncrypt := by decide
theorem test_decode_aeadDecrypt : decode 0b00000000000000000000000000100010 = .ok .aeadDecrypt := by decide
theorem test_decode_zeroize : decode 0b00000000000000000000000000110000 = .ok .zeroize := by decide

/-- R96: the two kinds of illegal word, each by its name. -/
theorem test_decode_illegal :
    decode 0x00000000 = .error (.unassignedOpc 0x00) ∧ decode 0x00000003 = .error (.unassignedOpc 0x03) ∧
      decode 0x000000FF = .error (.unassignedOpc 0xFF) ∧ decode 0x00000121 = .error (.mbzNonzero 1) ∧
      decode 0x80000001 = .error (.mbzNonzero 0x800000) := by decide

/-- R93: the table's word for CHUNK_BUILD, and the command it makes the next step run. -/
theorem test_withFetchWord : decodeTableWord 32 0x12 = some .chunkBuild ∧
    (Tests.after (step (State.reset.withFetchWord 32 0x01))).cmdCount = 1 := by decide

/-! ## WellFormed: what it refuses -/

theorem test_wellFormed_dataIn_misaligned : (Loc.dataIn 2).wellFormed = false := by decide
theorem test_wellFormed_pw_misaligned : (Loc.pw 1).wellFormed = false := by decide
theorem test_wellFormed_out_misaligned : (Loc.out 3).wellFormed = false := by decide
theorem test_wellFormed_dataIn_past : (Loc.dataIn Config.bufBytes).wellFormed = false := by simp [Loc.wellFormed]
theorem test_wellFormed_pw_past : (Loc.pw Config.pwBytes).wellFormed = false := by simp [Loc.wellFormed]
theorem test_wellFormed_out_past : (Loc.out Config.outBytes).wellFormed = false := by simp [Loc.wellFormed]

/-- R102: WR of a variable that no RD has written is not a program; after the RD it is. -/
theorem test_wellFormed_unwritten :
    programWellFormed [] [.wr (.reg .crcAcc) (.var 7)] = false ∧
      programWellFormed [] [.rd (.reg .crcAcc) 7, .wr (.reg .crcAcc) (.var 7)] = true := by decide

/-! ## The functions behind the commands -/

/-- V1.2: the check string. -/
theorem test_crc32_check : crc32 [0x31, 0x32, 0x33, 0x34, 0x35, 0x36, 0x37, 0x38, 0x39] = 0xCBF43926 := by decide +kernel

/-- V3.1: AES256(K1, 00 11 .. FF). -/
theorem test_aes256 :
    aes256 Tests.k1.toList
      [0x00, 0x11, 0x22, 0x33, 0x44, 0x55, 0x66, 0x77, 0x88, 0x99, 0xAA, 0xBB, 0xCC, 0xDD, 0xEE, 0xFF] =
      [0x8E, 0xA2, 0xB7, 0xCA, 0x51, 0x67, 0x45, 0xBF, 0xEA, 0xFC, 0x49, 0x90, 0x4B, 0x49, 0x60, 0x89] := by
  decide +kernel

/-- V3.2: H of the zero key. -/
theorem test_aes256_zero :
    aes256 (zeros 32) (zeros 16) =
      [0xDC, 0x95, 0xC0, 0x78, 0xA2, 0x40, 0x89, 0x89, 0xAD, 0x48, 0xA2, 0x14, 0x92, 0x84, 0x20, 0x87] := by
  decide +kernel

/-- V3.18: a partial last block. -/
theorem test_gcm_partial_block :
    (gcmAE Tests.k1.toList Tests.n1.toList
      [0x00, 0x01, 0x02, 0x03, 0x04, 0x05, 0x06, 0x07, 0x08, 0x09, 0x0A, 0x0B, 0x0C, 0x0D, 0x0E, 0x0F, 0x10] []) =
      ([0x47, 0x03, 0xD4, 0x18, 0xC1, 0xE0, 0xC4, 0x1C, 0x85, 0x48, 0x9D, 0x80, 0xBD, 0xE4, 0x76, 0x62, 0x93],
        [0x28, 0x70, 0x90, 0xE0, 0xD5, 0x5B, 0x37, 0x2D, 0xAF, 0x44, 0x92, 0x1B, 0xAA, 0xBA, 0x7E, 0xB3]) := by
  decide +kernel

/-- V5.3 to V5.9: the valid boundary sequences. -/
theorem test_utf8_valid :
    [[0xC2, 0xA9], [0xE2, 0x82, 0xAC], [0xF0, 0x9F, 0x98, 0x80], [0xE0, 0xA0, 0x80], [0xED, 0x9F, 0xBF],
      [0xF0, 0x90, 0x80, 0x80], [0xF4, 0x8F, 0xBF, 0xBF]].all utf8Valid = true := by decide +kernel

/-- V5.10 to V5.19: the invalid ones. -/
theorem test_utf8_invalid :
    [[0xC0, 0x80], [0xC1, 0xBF], [0xE0, 0x9F, 0x80], [0xF0, 0x8F, 0x80, 0x80], [0xED, 0xA0, 0x80],
      [0xF4, 0x90, 0x80, 0x80], [0xF5, 0x80, 0x80, 0x80], [0xE2, 0x82], [0xFF], [0x80]].any utf8Valid = false := by
  decide +kernel

/-! ## One or two vectors per command -/

/-- V1.12. -/
theorem test_crcInit :
    (Tests.after (exec .crcInit { State.reset with crcAcc := 0x12345678 })).crcAcc = 0xFFFFFFFF := by decide

/-- V1.2. -/
theorem test_crcUpdate :
    let t := Tests.after (exec .crcUpdate (Tests.dataState [0x31, 0x32, 0x33, 0x34, 0x35, 0x36, 0x37, 0x38, 0x39]))
    (t.result, t.crcAcc, readReg t .crcValue) = (0x00, 0x340BC6D9, 0xCBF43926) := by
  simp only [exec, execCrcUpdate, Tests.fits, List.length_cons, List.length_nil, Nat.reduceAdd, Nat.reduceLeDiff]
  decide +kernel

/-- V2.1: "RuSt". -/
theorem test_typeFromName :
    let t := Tests.after (exec .typeFromName (Tests.dataState [0x52, 0x75, 0x53, 0x74]))
    (t.result, t.typeCode, t.typeProps) = (0x00, 0x52755374, 0x3B) := by
  simp only [exec, execTypeFromName, Tests.fits, List.length_cons, List.length_nil, Nat.reduceAdd, Nat.reduceLeDiff]
  decide +kernel

/-- V2.6: "Ru1t". -/
theorem test_typeFromName_bad :
    let t := Tests.after (exec .typeFromName (Tests.dataState [0x52, 0x75, 0x31, 0x74]))
    (t.result, t.typeCode, t.typeProps) = (0x01, 0, 0) := by
  simp only [exec, execTypeFromName, Tests.fits, List.length_cons, List.length_nil, Nat.reduceAdd, Nat.reduceLeDiff]
  decide +kernel

/-- V2.11 and V2.16: "tEXt" and "ru[t", whose TYPE_PROPS is written on BAD_TYPE too. -/
theorem test_typeCheck :
    (let t := Tests.after (exec .typeCheck (Tests.typeState 0x74455874 [])); (t.result, t.typeProps)) = (0x00, 0x3D) ∧
      (let t := Tests.after (exec .typeCheck (Tests.typeState 0x72755B74 [])); (t.result, t.typeProps)) = (0x01, 0x18) := by
  decide +kernel

/-- V4.19: "tEXt" with "hi!!". -/
theorem test_chunkBuild :
    let t := Tests.after (exec .chunkBuild (Tests.typeState 0x74455874 [0x68, 0x69, 0x21, 0x21]))
    (t.result, t.outLen, t.out.bytes 17, t.chunkLen, t.chunkType, t.chunkCrcStored) =
      (0x00, 16, [0x00, 0x00, 0x00, 0x04, 0x74, 0x45, 0x58, 0x74, 0x68, 0x69, 0x21, 0x21, 0xCE, 0xE6, 0xFC, 0xB6, 0x00],
        4, 0x74455874, 0xCEE6FCB6) := by
  simp only [exec, execChunkBuild, Tests.typeFits, List.length_cons, List.length_nil, Nat.reduceAdd, Nat.reduceLeDiff]
  decide +kernel

/-- V4.16: frame("tEXt", "hi"). -/
theorem test_chunkVerify :
    let t := Tests.after (exec .chunkVerify (Tests.dataState
      [0x00, 0x00, 0x00, 0x02, 0x74, 0x45, 0x58, 0x74, 0x68, 0x69, 0x75, 0x69, 0xE6, 0xDF]))
    (t.result, t.outLen, t.out.bytes 3, t.consumed, t.typeProps) = (0x00, 2, [0x68, 0x69, 0x00], 14, 0x3D) ∧
      (t.chunkLen, t.chunkType, t.chunkCrcStored, t.chunkCrcCalc) = (2, 0x74455874, 0x7569E6DF, 0x7569E6DF) := by
  simp only [exec, execChunkVerify, Tests.fits, List.length_cons, List.length_nil, Nat.reduceAdd, Nat.reduceLeDiff]
  decide +kernel

/-- V4.13: the length field 2^32 - 1 does not wrap. -/
theorem test_chunkVerify_truncated :
    let t := Tests.after (exec .chunkVerify (Tests.dataState
      [0xFF, 0xFF, 0xFF, 0xFF, 0x52, 0x75, 0x53, 0x74, 0x00, 0x00, 0x00, 0x00]))
    (t.result, t.outLen, t.chunkLen, t.chunkType, t.chunkCrcStored, t.chunkCrcCalc, t.consumed) =
      (0x02, 0, 0xFFFFFFFF, 0x52755374, 0, 0, 0) := by
  simp only [exec, execChunkVerify, Tests.fits, List.length_cons, List.length_nil, Nat.reduceAdd, Nat.reduceLeDiff]
  decide +kernel

/-- V5.4 and V5.17. -/
theorem test_utf8Check :
    (Tests.after (exec .utf8Check (Tests.dataState [0xE2, 0x82, 0xAC]))).result = 0x00 ∧
      (Tests.after (exec .utf8Check (Tests.dataState [0xE2, 0x82]))).result = 0x05 := by
  simp only [exec, execUtf8Check, Tests.fits, List.length_cons, List.length_nil, Nat.reduceAdd, Nat.reduceLeDiff]
  decide +kernel

/-- V6.4: the empty password, from reset. -/
theorem test_kdfDerive :
    let t := Tests.after (exec .kdfDerive State.reset)
    t.result = 0x00 ∧ t.outLen = 32 ∧
      t.out = Memory.ofBytes (Config.kdfFn [] Config.kdfFixedSalt Config.kdfCostReset).toList := by
  rcases kdfDerive_cases State.reset with ⟨h, _⟩ | ⟨_, h, _⟩ | ⟨_, _, h⟩
  · simp [State.pwTooLong, State.reset] at h
  · rw [show State.reset.kdfCost = Config.kdfCostReset from rfl, Config.kdfParamsValid_reset] at h; cases h
  · rw [h]
    refine ⟨rfl, ?_, rfl⟩
    show BitVec.ofNat 32 (Vector.toList _).length = 32
    rw [Vector.length_toList]; rfl

/-- V6.6: a malformed work factor, where there is one, is FATAL. -/
theorem test_kdfDerive_fatal (c : Cost) (h : Config.kdfParamsValid c = false) :
    (Tests.after (exec .kdfDerive { State.reset with kdfCost := c })).fatal = true := by
  rcases kdfDerive_cases { State.reset with kdfCost := c } with ⟨h', _⟩ | ⟨_, _, h'⟩ | ⟨_, h', _⟩
  · simp [State.pwTooLong, State.reset] at h'
  · rw [h']; rfl
  · rw [show ({ State.reset with kdfCost := c } : State).kdfCost = c from rfl, h] at h'; cases h'

/-- V3.6: "secret" under K1, N1. -/
theorem test_aeadEncrypt :
    let t := Tests.after (exec .aeadEncrypt (Tests.rawState 0x5 [0x73, 0x65, 0x63, 0x72, 0x65, 0x74]))
    (t.result, t.outLen, t.out.bytes 23, t.nonceOut) =
      (0x00, 22, [0x34, 0x67, 0xB5, 0x69, 0xA0, 0x91, 0xC3, 0x18, 0x1B, 0x50, 0xE5, 0x5C, 0xCB, 0x68, 0xF0, 0x07, 0x78,
        0xD9, 0x6B, 0xB0, 0xFA, 0x88, 0x00], Tests.n1) := by
  have h := Tests.rawFits 0x5 [0x73, 0x65, 0x63, 0x72, 0x65, 0x74] (by decide) (by decide)
  simp only [exec, execAeadEncrypt, h]
  decide +kernel

/-- V3.20: the RNG draw fails. -/
theorem test_aeadEncrypt_rngFail (h : Config.rngDraw 0 = none) :
    (Tests.after (exec .aeadEncrypt (Tests.rawState 0x4 []))).result = 0x08 := by
  rcases aeadEncrypt_cases (Tests.rawState 0x4 []) with ⟨h', _⟩ | ⟨_, h', _⟩ | ⟨_, k, _, o, d, hn, ⟨_, h'⟩ | ⟨n, ho, _⟩⟩
  · rw [Tests.rawFits 0x4 [] (by decide) (by decide)] at h'; cases h'
  · cases h'
  · rw [h']; rfl
  · have := congrArg Prod.fst hn
    rw [ho] at this
    exact absurd (h.symm.trans this) (by simp)

/-- V3.15: the tag of the empty message under K1, N1 (V3.14). -/
theorem test_aeadDecrypt :
    let t := Tests.after (exec .aeadDecrypt (Tests.rawState 0x4
      [0xF4, 0xC2, 0xDB, 0x1D, 0xC3, 0x88, 0x05, 0xA3, 0x7B, 0x92, 0x17, 0x1C, 0x5D, 0x0A, 0x81, 0xCC]))
    (t.result, t.outLen) = (0x00, 0) := by
  have h := Tests.rawFits 0x4 [0xF4, 0xC2, 0xDB, 0x1D, 0xC3, 0x88, 0x05, 0xA3, 0x7B, 0x92, 0x17, 0x1C, 0x5D, 0x0A, 0x81,
    0xCC] (by decide) (by decide)
  simp only [exec, execAeadDecrypt, h]
  decide +kernel

/-- V3.13: 15 bytes have no tag. -/
theorem test_aeadDecrypt_short :
    let t := Tests.after (exec .aeadDecrypt (Tests.rawState 0x4
      [0x34, 0x67, 0xB5, 0x69, 0xA0, 0x91, 0xC3, 0x18, 0x1B, 0x50, 0xE5, 0x5C, 0xCB, 0x68, 0xF0]))
    (t.result, t.outLen) = (0x04, 0) := by
  have h := Tests.rawFits 0x4 [0x34, 0x67, 0xB5, 0x69, 0xA0, 0x91, 0xC3, 0x18, 0x1B, 0x50, 0xE5, 0x5C, 0xCB, 0x68, 0xF0]
    (by decide) (by decide)
  simp only [exec, execAeadDecrypt, h]
  decide +kernel

/-- V7.5. -/
theorem test_zeroize :
    let t := Tests.after (exec .zeroize { Tests.rawState 0x4 [0x61, 0x62, 0x63, 0x64] with pw := [(0, 0x61)], pwLen := 1 })
    (t.result, t.pwLen, t.outLen, t.dataLen) = (0x00, 0, 0, 4) ∧ t.dataIn = [] ∧ t.pw = [] ∧
      t.keyIn = Vector.replicate 32 0 := by decide +kernel

/-! ## Single steps and accesses (V7) -/

/-- V7.1: what software reads at reset. -/
theorem test_reset_reads :
    (readReg State.reset .id, readReg State.reset .version, readReg State.reset .status, readReg State.reset .crcValue) =
      (0x43414348, 0x00000007, 0x00000000, 0x00000000) := by decide

/-- V7.2: the illegal word 0 gives ILLEGAL_CMD and STATUS 0x06. -/
theorem test_step_illegal :
    let t := Tests.after (step { State.reset with busy := true })
    (t.result, t.statusWord, t.cmd) = (0x0E, 0x06, 0) := by decide

/-- V7.10: a 16-bit read of ID, and 32-bit reads at offsets 0x002 and 0x058. -/
theorem test_busError :
    (busAccess ⟨.read, 0x000, 2⟩ State.reset).1 = .error (.busError 0x000) ∧
      (busAccess ⟨.read, 0x002, 4⟩ State.reset).1 = .error (.busError 0x002) ∧
      (busAccess ⟨.read, 0x058, 4⟩ State.reset).1 = .error (.busError 0x058) := by decide

/-- V7.11: 0x12 written to STATUS clears DONE and WBUSY. -/
theorem test_statusWrite :
    let t := (busAccess ⟨.write 0x12, 0x010, 4⟩ { State.reset with done := true, wbusy := true, err := true }).2
    (t.done, t.wbusy, t.err) = (false, false, true) := by decide

/-- V7.13: the reserved bits of CTRL. -/
theorem test_ctrl_reserved : (busAccess ⟨.write 0xFFFFFFFF, 0x008, 4⟩ State.reset).2.ctrl = 0x0000000F := by decide

/-- V7.14: CMD_COUNT wraps. -/
theorem test_cmdCount_wraps : (finish .ok { State.reset with cmdCount := 0xFFFFFFFF }).cmdCount = 0 := by decide

/-- R62: the word "1234" in the DATA_IN window. -/
theorem test_window_bigEndian : (Memory.writeWord [] 0 0x31323334).bytes 5 = [0x31, 0x32, 0x33, 0x34, 0x00] := by decide

/-- The product in GF(2^8), by R201's multiplication by x. -/
def Tests.gfByte (a b : Byte) : Byte :=
  (List.range 8).foldl (fun acc i => if b.getLsbD i then acc ^^^ Nat.repeat xtime i a else acc) 0

/-- R201: each entry of the S-box table is the affine image of the inverse in GF(2^8), as FIPS-197 builds the table (from
general knowledge): undoing the affine map leaves a factor whose product with the input is 1. -/
theorem test_sbox :
    ∀ a : Byte, Tests.gfByte a ((sbox a).rotateLeft 1 ^^^ (sbox a).rotateLeft 3 ^^^ (sbox a).rotateLeft 6 ^^^ 0x05) =
      if a = 0 then 0 else 1 := by decide +kernel

/-! ## Witnesses: a state that meets the hypotheses of each statement, at the ends of each clause's range -/

/-- The reset state with the command of word `w` in progress. -/
def Tests.busyState (w : Word) : State := { State.reset with busy := true, cmd := w }

theorem Tests.ofNat_bufBytes : (BitVec.ofNat 32 Config.bufBytes).toNat = Config.bufBytes := by
  have := Config.bufBytes_range
  rw [BitVec.toNat_ofNat, Nat.mod_eq_of_lt (by omega)]

theorem Tests.ofNat_bufBytes_succ : (BitVec.ofNat 32 (Config.bufBytes + 1)).toNat = Config.bufBytes + 1 := by
  have := Config.bufBytes_range
  rw [BitVec.toNat_ofNat, Nat.mod_eq_of_lt (by omega)]

theorem Tests.ofNat_pwBytes : (BitVec.ofNat 32 Config.pwBytes).toNat = Config.pwBytes := by
  have := Config.pwBytes_range
  rw [BitVec.toNat_ofNat, Nat.mod_eq_of_lt (by omega)]

theorem Tests.ofNat_pwBytes_succ : (BitVec.ofNat 32 (Config.pwBytes + 1)).toNat = Config.pwBytes + 1 := by
  have := Config.pwBytes_range
  rw [BitVec.toNat_ofNat, Nat.mod_eq_of_lt (by omega)]

/-- IllegalWordsComplete: illegal words at the ends of each range of R96, and the legal words beside them. -/
theorem witness_IllegalWordsComplete :
    (∀ w ∈ [0x00000000, 0x00000003, 0x0000000F, 0x00000015, 0x0000001F, 0x00000023, 0x0000002F, 0x00000031, 0x000000FF,
      0x00000100, 0xFFFFFF01], IllegalWord w) ∧
    (∀ w ∈ [0x00000001, 0x00000002, 0x00000010, 0x00000014, 0x00000020, 0x00000022, 0x00000030], ¬ IllegalWord w) ∧
    (Tests.busyState 0x00000003).busy = true ∧ (Tests.busyState 0x00000003).fatal = false := by
  refine ⟨?_, ?_, rfl, rfl⟩ <;> simp only [List.forall_mem_cons, IllegalWord]
  · refine ⟨by decide, by decide, by decide, by decide, by decide, by decide, by decide, by decide, by decide, by decide,
      by decide, by simp⟩
  · refine ⟨by decide, by decide, by decide, by decide, by decide, by decide, by decide, by simp⟩

/-- StepRunsDecodedCommand. -/
theorem witness_StepRunsDecodedCommand :
    ∃ (s : State) (i : Instr), s.busy = true ∧ s.fatal = false ∧ decode s.cmd = .ok i :=
  ⟨Tests.busyState 0x00000030, .zeroize, rfl, rfl, by decide⟩

/-- IdleEngineHasNoStep, CommandAcceptance, RegisterReadValues, ByteStringWordsPackBigEndian (k = 2, 3, 7 are the last
words), StatusWriteOneToClear and StatusReadsItsFlags: an idle block that is not in reset. -/
theorem witness_idle : State.reset.busy = false ∧ State.reset.resetAsserted = false := ⟨rfl, rfl⟩

/-- FatalStateRunsNoCommand: the FATAL state idle, and with a command accepted. -/
theorem witness_FatalStateRunsNoCommand :
    (∃ s : State, s.fatal = true ∧ s.busy = false ∧ s.resetAsserted = false) ∧
    ∃ s : State, s.fatal = true ∧ s.busy = true :=
  ⟨⟨{ State.reset with fatal := true }, rfl, rfl, rfl⟩, ⟨{ Tests.busyState 0 with fatal := true }, rfl, rfl⟩⟩

/-- CrcUpdateResult, Utf8CheckResult, and the length clauses of TypeFromNameResult, ChunkBuildResult, ChunkVerifyResult,
AeadEncryptResult and AeadDecryptResult: DATA_LEN just past the capacity, at it, and 0. -/
theorem witness_dataLen :
    (∃ s : State, s.dataLen.toNat = Config.bufBytes + 1) ∧ (∃ s : State, s.dataLen.toNat = Config.bufBytes) ∧
    ∃ s : State, s.dataLen = 0 :=
  ⟨⟨{ State.reset with dataLen := _ }, Tests.ofNat_bufBytes_succ⟩, ⟨{ State.reset with dataLen := _ }, Tests.ofNat_bufBytes⟩,
    ⟨State.reset, rfl⟩⟩

/-- KdfDeriveResult, and the PW_LEN clause of the AEAD results (KEY_SRC = 0 at reset): PW_LEN past the capacity and at it. -/
theorem witness_pwLen :
    (∃ s : State, s.ctrl.getLsbD 2 = false ∧ s.pwLen.toNat = Config.pwBytes + 1) ∧
    ∃ s : State, s.ctrl.getLsbD 2 = false ∧ s.pwLen.toNat = Config.pwBytes :=
  ⟨⟨{ State.reset with pwLen := _ }, rfl, Tests.ofNat_pwBytes_succ⟩, ⟨{ State.reset with pwLen := _ }, rfl, Tests.ofNat_pwBytes⟩⟩

/-- TypeFromNameResult: four bytes that are no letters and four that are, at the ends of the letter ranges; three bytes. -/
theorem witness_TypeFromNameResult :
    (∃ s : State, s.dataLen.toNat = 4 ∧ ¬ LetterType (s.dataIn.bytes 4)) ∧
    (∃ s : State, s.dataLen.toNat = 4 ∧ LetterType (s.dataIn.bytes 4)) ∧
    ∃ s : State, s.dataLen.toNat = 3 ∧ s.dataLen.toNat ≤ Config.bufBytes :=
  ⟨⟨Tests.dataState [0x5B, 0x40, 0x60, 0x7B], by decide, by decide⟩,
    ⟨Tests.dataState [0x41, 0x5A, 0x61, 0x7A], by decide, by decide⟩,
    ⟨Tests.dataState [0x41, 0x5A, 0x61], by decide, by have := Config.bufBytes_range; show 3 ≤ _; omega⟩⟩

/-- TypeCheckResult and ChunkBuildResult: a letter type and one byte past the letters, with no input. -/
theorem witness_typeCode :
    (∃ s : State, s.dataLen.toNat ≤ Config.bufBytes ∧ LetterType (be32 s.typeCode)) ∧
    ∃ s : State, s.dataLen.toNat ≤ Config.bufBytes ∧ ¬ LetterType (be32 s.typeCode) :=
  ⟨⟨Tests.typeState 0x415A617A [], Nat.zero_le _, by decide⟩, ⟨Tests.typeState 0x415A617B [], Nat.zero_le _, by decide⟩⟩

/-- ChunkVerifyResult: eleven bytes (truncated), and a frame that fits exactly. -/
theorem witness_ChunkVerifyResult :
    (∃ s : State, s.dataLen.toNat ≤ Config.bufBytes ∧ s.dataLen.toNat = 11 ∧
      s.dataLen.toNat < 12 + (frameLength s.dataIn).toNat) ∧
    ∃ s : State, s.dataLen.toNat ≤ Config.bufBytes ∧ 12 + (frameLength s.dataIn).toNat = s.dataLen.toNat := by
  have := Config.bufBytes_range
  exact ⟨⟨{ State.reset with dataLen := 11 }, by show 11 ≤ _; omega, rfl, by decide⟩,
    ⟨{ State.reset with dataLen := 12 }, by show 12 ≤ _; omega, by decide⟩⟩

/-- CommandsWriteOnlyTheirRow and EveryCommandCompletes: every command answers a next state. -/
theorem witness_exec (i : Instr) : ∃ t, exec i State.reset = .next t := by
  obtain ⟨c, u, h, _⟩ := exec_effect i State.reset
  exact ⟨_, h⟩

/-- ErrorsArePrecise: a LEN_ERR, a NAME_LEN, and another error. -/
theorem witness_ErrorsArePrecise :
    (∃ i s t, exec i s = .next t ∧ t.result = 0x06) ∧ (∃ i s t, exec i s = .next t ∧ t.result = 0x07) ∧
    ∃ i s t, exec i s = .next t ∧ t.result = 0x01 := by
  refine ⟨⟨.crcUpdate, { State.reset with dataLen := BitVec.ofNat 32 (Config.bufBytes + 1) }, ?_⟩,
    ⟨.typeFromName, State.reset, ?_⟩, ⟨.typeCheck, State.reset, _, rfl, by decide⟩⟩
  · rcases crcUpdate_cases { State.reset with dataLen := BitVec.ofNat 32 (Config.bufBytes + 1) } with ⟨_, h⟩ | ⟨h, _⟩
    · exact ⟨_, h, rfl⟩
    · simp only [State.dataTooLong, Tests.ofNat_bufBytes_succ, decide_eq_false_iff_not] at h; omega
  · rcases typeFromName_cases State.reset with ⟨h, _⟩ | ⟨_, _, h⟩ | ⟨_, h, _⟩ | ⟨_, h, _⟩
    · rw [show State.reset.dataTooLong = false from Tests.fits [] (by decide)] at h; cases h
    · exact ⟨_, h, rfl⟩
    · exact absurd h (by decide)
    · exact absurd h (by decide)

/-- FatalEntry: a command from a state that is not FATAL; and, where the block has a malformed work factor at all (R12
leaves that open), an entry. -/
theorem witness_FatalEntry :
    (∃ i s t, exec i s = .next t ∧ s.fatal = false ∧ t.fatal = false) ∧
    ∀ c, Config.kdfParamsValid c = false → ∃ s t, exec .kdfDerive s = .next t ∧ s.fatal = false ∧ t.fatal = true := by
  refine ⟨⟨.crcInit, State.reset, _, rfl, rfl, rfl⟩, fun c hc => ⟨{ State.reset with kdfCost := c }, ?_⟩⟩
  rcases kdfDerive_cases { State.reset with kdfCost := c } with ⟨h, _⟩ | ⟨_, _, h⟩ | ⟨_, h, _⟩
  · simp [State.pwTooLong, State.reset] at h
  · exact ⟨_, h, rfl, rfl⟩
  · rw [show ({ State.reset with kdfCost := c } : State).kdfCost = c from rfl, hc] at h; cases h

/-- NonceOutIsTheNonceUsed and AeadRoundTrip: an encryption of the empty message that completes with OK, and the state that
decrypts what it made. -/
theorem witness_aead :
    ∃ s t u : State, exec .aeadEncrypt s = .next t ∧ t.result = 0x00 ∧
      utf8Valid (s.dataIn.bytes s.dataLen.toNat) = true ∧ s.dataLen.toNat ≤ Config.bufBytes - 16 ∧
      (∀ a, a < s.dataLen.toNat + 16 → u.dataIn.read a = t.out.read a) ∧
      u.dataLen.toNat = s.dataLen.toNat + 16 ∧ u.nonceIn = t.nonceOut ∧ u.ctrl.getLsbD 2 = s.ctrl.getLsbD 2 ∧
      u.ctrl.getLsbD 1 = s.ctrl.getLsbD 1 ∧ u.keyIn = s.keyIn ∧ u.pwLen = s.pwLen ∧
      (∀ j, j < s.pwLen.toNat → u.pw.read j = s.pw.read j) ∧ u.saltIn = s.saltIn ∧ u.kdfCost = s.kdfCost := by
  rcases aeadEncrypt_cases (Tests.rawState 0x5 []) with ⟨h, _⟩ | ⟨_, h, _⟩ | ⟨_, k, _, o, d, hn, ⟨ho, _⟩ | ⟨n, _, h⟩⟩
  · rw [Tests.rawFits 0x5 [] (by decide) (by decide)] at h; cases h
  · cases h
  · have := congrArg Prod.fst hn
    rw [ho] at this
    cases this
  · refine ⟨_, _, { Tests.rawState 0x5 [] with
      dataIn := (Tests.after (exec .aeadEncrypt (Tests.rawState 0x5 []))).out
      dataLen := 16
      nonceIn := (Tests.after (exec .aeadEncrypt (Tests.rawState 0x5 []))).nonceOut }, h, rfl, by decide, Nat.zero_le _, ?_,
      rfl, ?_, rfl, rfl, rfl, rfl, fun _ _ => rfl, rfl, rfl⟩
    · intro a _; rw [h]; rfl
    · rw [h]; rfl

/-- DecryptReleasesNothingOnFailure: an input too short for a tag. -/
theorem witness_DecryptReleasesNothingOnFailure : ∃ s t, exec .aeadDecrypt s = .next t ∧ t.result ≠ 0x00 := by
  rcases aeadDecrypt_cases (Tests.rawState 0x4 []) with ⟨h, _⟩ | ⟨_, h, _⟩ | ⟨_, k, _, o, ho, ⟨_, h⟩ | ⟨p, hp, _⟩⟩
  · rw [Tests.rawFits 0x4 [] (by decide) (by decide)] at h; cases h
  · cases h
  · exact ⟨_, _, h, show (ResultCode.authFail.code.setWidth 32 : Word) ≠ 0x00 by decide⟩
  · rw [if_pos (by decide), hp] at ho; cases ho

/-- TypeNameRoundTrip: reset and "RuSt". -/
theorem witness_TypeNameRoundTrip :
    State.reset.busy = false ∧ State.reset.resetAsserted = false ∧ State.reset.fatal = false ∧
      State.reset.dataIn.wf = true ∧ LetterType (be32 0x52755374) := ⟨rfl, rfl, rfl, rfl, by decide⟩

/-- CrcStreamsAcrossCommands: "12" as "1" and "2". -/
theorem witness_CrcStreamsAcrossCommands :
    ∃ (s s1 s2 t1 t2 t : State) (a b : Bytes), a.length + b.length ≤ Config.bufBytes ∧
      s.dataLen.toNat = a.length + b.length ∧ s.dataIn.bytes (a.length + b.length) = a ++ b ∧
      s1.dataLen.toNat = a.length ∧ s1.dataIn.bytes a.length = a ∧ s1.crcAcc = s.crcAcc ∧
      s2.dataLen.toNat = b.length ∧ s2.dataIn.bytes b.length = b ∧
      exec .crcUpdate s = .next t ∧ exec .crcUpdate s1 = .next t1 ∧ s2.crcAcc = t1.crcAcc ∧
      exec .crcUpdate s2 = .next t2 := by
  obtain ⟨_, _, h1, _⟩ := exec_effect .crcUpdate (Tests.dataState [0x31, 0x32])
  obtain ⟨c, u, h2, _⟩ := exec_effect .crcUpdate (Tests.dataState [0x31])
  obtain ⟨_, _, h3, _⟩ := exec_effect .crcUpdate { Tests.dataState [0x32] with crcAcc := (finish c u).crcAcc }
  have := Config.bufBytes_range
  exact ⟨Tests.dataState [0x31, 0x32], Tests.dataState [0x31],
    { Tests.dataState [0x32] with crcAcc := (finish c u).crcAcc }, _, _, _, [0x31], [0x32], by show 2 ≤ _; omega, rfl,
    by decide, rfl, by decide, rfl, rfl, rfl, h1, h2, rfl, h3⟩

/-- The frame of V4.16 and the frame of no data of V4.11, as inputs. -/
def Tests.frameState : State := Tests.dataState
  [0x00, 0x00, 0x00, 0x02, 0x74, 0x45, 0x58, 0x74, 0x68, 0x69, 0x75, 0x69, 0xE6, 0xDF]

/-- SingleBitFlipIsCrcMismatch: the frame of V4.16, with the flips at its first type byte, bit 7, and at its last byte, bit
0. -/
theorem witness_SingleBitFlipIsCrcMismatch :
    ∃ s t : State, exec .chunkVerify s = .next t ∧ t.result = 0x00 ∧ 12 + t.chunkLen.toNat = 14 ∧
      (∃ u : State, u.dataLen = s.dataLen ∧
        ∀ a, u.dataIn.read a = if a = 4 then s.dataIn.read a ^^^ (1#8 <<< 7) else s.dataIn.read a) ∧
      ∃ u : State, u.dataLen = s.dataLen ∧
        ∀ a, u.dataIn.read a = if a = 13 then s.dataIn.read a ^^^ (1#8 <<< 0) else s.dataIn.read a := by
  have wf : Tests.frameState.dataIn.wf = true := Memory.wf_ofBytes _
  have flip : ∀ (m : Memory) (j : Nat) (v : Byte), m.wf = true → ∀ a,
      (m.write j (m.read j ^^^ v)).read a = if a = j then m.read a ^^^ v else m.read a := by
    intro m j v hm a
    rw [Memory.read_write hm]
    by_cases h : a = j
    · subst h; simp
    · rw [if_neg h, if_neg h]
  have h : ∃ t, exec .chunkVerify Tests.frameState = .next t ∧ t.result = 0x00 ∧ t.chunkLen = 2 := by
    refine ⟨_, rfl, ?_⟩
    have hf : Tests.frameState.dataTooLong = false := Tests.fits _ (by decide)
    simp only [hf]
    decide +kernel
  obtain ⟨t, ht, h0, hl⟩ := h
  exact ⟨Tests.frameState, t, ht, h0, by rw [hl]; rfl,
    ⟨{ Tests.frameState with dataIn := Tests.frameState.dataIn.write 4 (Tests.frameState.dataIn.read 4 ^^^ (1#8 <<< 7)) },
      rfl, flip _ 4 _ wf⟩,
    ⟨{ Tests.frameState with dataIn := Tests.frameState.dataIn.write 13 (Tests.frameState.dataIn.read 13 ^^^ (1#8 <<< 0)) },
      rfl, flip _ 13 _ wf⟩⟩

/-- FrameRoundTrip: "tEXt" with no data; and with a full DATA_IN, whose frame does not fit DATA_IN. -/
theorem witness_FrameRoundTrip :
    (∃ s t u : State, LetterType (be32 s.typeCode) ∧ s.dataLen.toNat ≤ Config.bufBytes - 12 ∧
      s.dataLen.toNat ≤ Config.bufBytes ∧ exec .chunkBuild s = .next t ∧ u.dataLen.toNat = 12 + s.dataLen.toNat ∧
      ∀ a, a < 12 + s.dataLen.toNat → u.dataIn.read a = t.out.read a) ∧
    ∃ s t u : State, LetterType (be32 s.typeCode) ∧ Config.bufBytes - 12 < s.dataLen.toNat ∧
      s.dataLen.toNat ≤ Config.bufBytes ∧ exec .chunkBuild s = .next t ∧ u.dataLen.toNat = 12 + s.dataLen.toNat := by
  constructor
  · obtain ⟨c, u, h, _⟩ := exec_effect .chunkBuild (Tests.typeState 0x74455874 [])
    exact ⟨_, _, { State.reset with dataLen := 12, dataIn := (finish c u).out }, by decide, Nat.zero_le _, Nat.zero_le _, h,
      rfl, fun _ _ => rfl⟩
  · have hb := Config.bufBytes_range
    have hn : ∀ n, n ≤ Config.bufBytes + 12 → (BitVec.ofNat 32 n).toNat = n := fun n h => by
      rw [BitVec.toNat_ofNat]; omega
    obtain ⟨_, _, h, _⟩ :=
      exec_effect .chunkBuild { State.reset with typeCode := 0x74455874, dataLen := BitVec.ofNat 32 Config.bufBytes }
    exact ⟨_, _, { State.reset with dataLen := BitVec.ofNat 32 (12 + Config.bufBytes) }, by decide,
      by show _ < (BitVec.ofNat 32 _).toNat; rw [hn _ (by omega)]; omega,
      by show (BitVec.ofNat 32 _).toNat ≤ _; rw [hn _ (by omega)], h,
      by show (BitVec.ofNat 32 _).toNat = 12 + (BitVec.ofNat 32 _).toNat; rw [hn _ (by omega), hn _ (by omega)]⟩

/-- KeyDerivationIsDeterministic: the empty password, from reset, and the same with CTRL.IRQ_EN set. -/
theorem witness_KeyDerivationIsDeterministic :
    ∃ s u t v : State, s.pwLen = u.pwLen ∧ (∀ j, j < s.pwLen.toNat → s.pw.read j = u.pw.read j) ∧
      s.ctrl.getLsbD 1 = u.ctrl.getLsbD 1 ∧ (s.ctrl.getLsbD 1 = true → s.saltIn = u.saltIn) ∧ s.kdfCost = u.kdfCost ∧
      exec .kdfDerive s = .next t ∧ exec .kdfDerive u = .next v ∧ t.result = 0x00 ∧ v.result = 0x00 ∧
      s.ctrl.getLsbD 2 = false ∧ u.ctrl.getLsbD 2 = false := by
  have run : ∀ s : State, s.pwLen = 0 → s.kdfCost = Config.kdfCostReset →
      ∃ t, exec .kdfDerive s = .next t ∧ t.result = 0x00 := by
    intro s hp hc
    rcases kdfDerive_cases s with ⟨h, _⟩ | ⟨_, h, _⟩ | ⟨_, _, h⟩
    · simp [State.pwTooLong, hp] at h
    · rw [hc, Config.kdfParamsValid_reset] at h; cases h
    · exact ⟨_, h, rfl⟩
  obtain ⟨t, ht, h0⟩ := run State.reset rfl rfl
  obtain ⟨v, hv, h1⟩ := run { State.reset with ctrl := 0x8 } rfl rfl
  exact ⟨State.reset, { State.reset with ctrl := 0x8 }, t, v, rfl, fun _ _ => rfl, rfl, fun _ => rfl, rfl, ht, hv, h0, h1, rfl, rfl⟩

/-- AddressMapIsExact: the first and the last word offset of the window, and the ends of each assigned range. -/
theorem witness_AddressMapIsExact :
    Assigned 0x000 ∧ Assigned 0x0BC ∧ ¬ Assigned 0x058 ∧ ¬ Assigned 0x0C0 ∧ ¬ Assigned 0x3FFFC ∧
      Assigned (0x00400 + Config.pwBytes - 4) ∧ ¬ Assigned (0x00400 + Config.pwBytes) ∧
      Assigned (0x10000 + Config.bufBytes - 4) ∧ Assigned (0x20000 + Config.outBytes - 4) ∧
      ¬ Assigned (0x20000 + Config.outBytes) := by
  have hp := Config.pwBytes_range
  have hb := Config.bufBytes_range
  have ho : Config.outBytes = Config.bufBytes + 16 := rfl
  unfold Assigned
  refine ⟨by decide, by decide, ?_, ?_, ?_, ?_, ?_, ?_, ?_, ?_⟩ <;> simp <;> omega

/-- UnservedAccessesGetBusError: a served access, and unserved ones of each kind: too narrow, a fetch, misaligned,
unassigned, in reset. -/
theorem witness_UnservedAccessesGetBusError :
    let served := fun (acc : Access) (s : State) =>
      acc.width = 4 ∧ Assigned acc.offset.toNat ∧ acc.kind ≠ .fetch ∧ s.resetAsserted = false
    served ⟨.read, 0x000, 4⟩ State.reset ∧ ¬ served ⟨.read, 0x000, 2⟩ State.reset ∧
      ¬ served ⟨.fetch, 0x000, 4⟩ State.reset ∧ ¬ served ⟨.read, 0x002, 4⟩ State.reset ∧
      ¬ served ⟨.write 0, 0x0C0, 4⟩ State.reset ∧ ¬ served ⟨.read, 0x000, 4⟩ (assertReset State.reset) := by
  have hp := Config.pwBytes_range
  have hb := Config.bufBytes_range
  refine ⟨⟨rfl, ⟨rfl, .inl ⟨Nat.zero_le _, by decide⟩⟩, by simp, rfl⟩, ?_, ?_, ?_, ?_, ?_⟩
  · rintro ⟨h, _⟩; exact absurd h (by decide)
  · rintro ⟨_, _, h, _⟩; exact absurd rfl h
  · rintro ⟨_, h, _⟩; exact absurd h.1 (by decide)
  · rintro ⟨_, ⟨_, h⟩, _⟩
    simp at h
  · rintro ⟨_, _, _, h⟩; exact absurd h (by decide)

/-- ReadWriteRegistersReadBack: a register of each multi-word kind, and CTRL, in an idle block. -/
theorem witness_ReadWriteRegistersReadBack :
    Reg.ctrl.access = .rw ∧ (Reg.kdfCost 2).access = .rw ∧ (Reg.nonceIn 2).access = .rw ∧ (Reg.saltIn 3).access = .rw ∧
      State.reset.busy = false ∧ State.reset.resetAsserted = false := by decide

/-- ReadOnlyAndWriteOnlyWords: RESULT, KEY_IN7, and the last words of the OUT and PW windows. -/
theorem witness_ReadOnlyAndWriteOnlyWords :
    locate 0x014 = some (.reg .result) ∧ Reg.result.access = .ro ∧ locate 0x0BC = some (.reg (.keyIn 7)) ∧
      (Reg.keyIn 7).access = .wo ∧ locate (0x20000 + (Config.outBytes - 4)) = some (.out (Config.outBytes - 4)) ∧
      locate (0x00400 + (Config.pwBytes - 4)) = some (.pw (Config.pwBytes - 4)) := by
  have hp := Config.pwBytes_range
  have ho : Config.outBytes = Config.bufBytes + 16 := rfl
  exact ⟨locate_reg .result, rfl, locate_reg (.keyIn 7), rfl, locate_out rfl (by omega), locate_pw rfl (by omega)⟩

/-- WindowsPackBigEndian: the first and the last word of each window, from reset. -/
theorem witness_WindowsPackBigEndian :
    State.reset.busy = false ∧ State.reset.resetAsserted = false ∧ State.reset.dataIn.wf = true ∧
      State.reset.pw.wf = true ∧ (0 < Config.pwBytes ∧ 0 < Config.bufBytes) ∧
      (Config.bufBytes - 4) % 4 = 0 ∧ Config.bufBytes - 4 < Config.bufBytes ∧ (Config.pwBytes - 4) % 4 = 0 ∧
      Config.pwBytes - 4 < Config.pwBytes ∧ (Config.outBytes - 4) % 4 = 0 ∧ Config.outBytes - 4 < Config.outBytes := by
  have hp := Config.pwBytes_range
  have hb := Config.bufBytes_range
  have ho : Config.outBytes = Config.bufBytes + 16 := rfl
  refine ⟨rfl, rfl, rfl, rfl, ?_⟩
  omega

/-- WritesWhileBusyAreDropped, ReadsWhileBusyAreDrawn and OperandsAreFrozenWhileBusy: a busy block, with an assigned and an
unassigned offset, and a word of each of the two kinds of read. -/
theorem witness_busy :
    (Tests.busyState 0x1).busy = true ∧ (Tests.busyState 0x1).resetAsserted = false ∧ Assigned 0x014 ∧ ¬ Assigned 0x0C0 ∧
      locate 0x054 = some (.reg .cmdCount) ∧ locate 0x014 = some (.reg .result) := by
  have h := witness_AddressMapIsExact
  exact ⟨rfl, rfl, ⟨rfl, .inl (by decide)⟩, h.2.2.2.1, locate_reg .cmdCount, locate_reg .result⟩

/-- EitherOrderOfHostAndEngine: the case with values, CRC_INIT against a write of CRC_ACC; and a write of the last word of
the OUT window against an illegal word in the FATAL state. -/
theorem witness_EitherOrderOfHostAndEngine :
    (∃ (s : State) (v : Word), s.busy = true ∧ s.fatal = false ∧ s.resetAsserted = false ∧ s.cmd = 0x00000001 ∧
      (Loc.reg .crcAcc).wellFormed = true ∧ s.program = [.wr (.reg .crcAcc) (.imm v)]) ∧
    ∃ (s : State) (l : Loc) (v : Word), s.busy = true ∧ s.fatal = true ∧ s.resetAsserted = false ∧ s.cmd = 0x00000000 ∧
      l = .out (Config.outBytes - 4) ∧ l.wellFormed = true ∧ s.program = [.wr l (.imm v)] := by
  have hb := Config.bufBytes_range
  have ho : Config.outBytes = Config.bufBytes + 16 := rfl
  refine ⟨⟨{ Tests.busyState 0x1 with program := [.wr (.reg .crcAcc) (.imm 5)] }, 5, rfl, rfl, rfl, rfl, rfl, rfl⟩,
    { Tests.busyState 0x0 with fatal := true, program := [.wr (.out (Config.outBytes - 4)) (.imm 5)] },
    .out (Config.outBytes - 4), 5, rfl, rfl, rfl, rfl, rfl, ?_, rfl⟩
  simp only [Loc.wellFormed, Bool.and_eq_true, beq_iff_eq, decide_eq_true_eq]
  omega

/-- OnlyResetLeavesFatal: a step that keeps FATAL, and the assertion of reset, which leaves it. -/
theorem witness_OnlyResetLeavesFatal :
    (∃ s t, step s = .next t ∧ s.fatal = true ∧ t.fatal = true) ∧
    ∃ s t, step s = .next t ∧ s.fatal = true ∧ s.turns.head? = some .assertReset :=
  ⟨⟨{ Tests.busyState 0x30 with fatal := true }, _, rfl, rfl, rfl⟩,
    ⟨{ State.reset with fatal := true, turns := [.assertReset] }, _, rfl, rfl, rfl⟩⟩

/-- CmdCountCountsCompletions: a completion, and a step that is none. -/
theorem witness_CmdCountCountsCompletions :
    (∃ s t, step s = .next t ∧ s.turns.head? ≠ some .assertReset ∧ s.busy = true ∧ t.busy = false) ∧
    ∃ s t, step s = .next t ∧ s.turns.head? ≠ some .assertReset ∧ s.busy = false :=
  ⟨⟨Tests.busyState 0x1, _, rfl, by decide, rfl, rfl⟩, ⟨State.reset, _, rfl, by decide, rfl⟩⟩

/-- ResultWrittenOnlyAtCompletion: an acceptance, which clears ERR. -/
theorem witness_ResultWrittenOnlyAtCompletion :
    ∃ s t, step s = .next t ∧ s.turns.head? ≠ some .assertReset ∧ ¬ (s.busy = true ∧ t.busy = false) ∧ s.err = true ∧
      t.err = false :=
  ⟨{ State.reset with err := true, result := 0x01, program := stmtCmd .crcInit }, _, rfl, by decide, by decide, rfl,
    by decide⟩

/-- OnlyCrcCommandsChangeCrcAcc: CRC_INIT. -/
theorem witness_OnlyCrcCommandsChangeCrcAcc :
    ∃ s t, step s = .next t ∧ s.busy = true ∧ s.turns.head? ≠ some .assertReset ∧ t.crcAcc ≠ s.crcAcc :=
  ⟨{ Tests.busyState 0x1 with crcAcc := 0 }, _, rfl, rfl, by decide, by decide⟩

/-- DataInChangesOnlyByHostOrClearing: ZEROIZE of a nonzero byte. -/
theorem witness_DataInChangesOnlyByHostOrClearing :
    ∃ s t, step s = .next t ∧ s.turns.head? ≠ some .assertReset ∧ s.busy = true ∧ t.dataIn ≠ s.dataIn :=
  ⟨{ Tests.busyState 0x30 with dataIn := [(0, 1)] }, _, rfl, by decide, rfl, by decide⟩

/-- StepsNeverStopTheBlock: the one refused step, of a WR of an unwritten variable. -/
theorem witness_StepsNeverStopTheBlock :
    step { State.reset with program := [.wr (.reg .crcAcc) (.var 0)] } = .refused (.unwrittenVariable 0) := rfl

/-- ProgramsStayWellFormed, and AcceptedCommandCompletes with two HOST turns before the ENGINE's. -/
theorem witness_AcceptedCommandCompletes :
    ∃ s : State, s.busy = true ∧ HostReady s ∧ .assertReset ∉ s.turns ∧ s.turns.length = 2 :=
  ⟨{ Tests.busyState 0x1 with program := stmtWait, turns := [.host, .host] }, rfl, by unfold HostReady; decide,
    by decide, rfl⟩

/-- RunIssuesPerformsAndWaits. -/
theorem witness_RunIssuesPerformsAndWaits :
    ∃ (s : State) (i : Instr) (p : List Stmt), s.busy = false ∧ s.fatal = false ∧ s.resetAsserted = false ∧
      s.turns = [] ∧ s.program = stmtRun i ++ p :=
  ⟨{ State.reset with program := stmtRun .zeroize }, .zeroize, [], rfl, rfl, rfl, rfl, rfl⟩

/-- StepKeepsInvariant: the invariant holds of the reset state, which has a step. -/
theorem witness_StepKeepsInvariant : ∃ s t, Inv s ∧ step s = .next t := by
  refine ⟨State.reset, _, ?_, rfl⟩
  exact { dataIn := ⟨rfl, rfl⟩, pw := ⟨rfl, rfl⟩, out := ⟨rfl, rfl⟩, outLen := Nat.zero_le _, ctrl := by decide
          typeProps := by decide, result := ⟨0, by decide, rfl⟩, keyInt := rfl, busy := by decide, err := by decide
          fatal := by decide, inReset := by decide }
end

section
/-! PROOFS. Facts that the statements on the state share: the result codes, what the effect of a command leaves, and
what an aligned write to the window reaches. -/

namespace Sys2Proof.Machine

open Sys2Proof.Safety

/-- R100: every code a command completes with is one of the table. -/
theorem ResultCode.code_mem_resultCodes (c : ResultCode) : c.code ∈ resultCodes := by cases c <;> decide

/-- R100: OK is the code 0x00, and the only one. -/
theorem ResultCode.code_eq_zero_iff (c : ResultCode) : c.code = 0 ↔ c = .ok := by cases c <;> decide

/-- R26, R100: RESULT reads 0 after a completion with OK, and only then. -/
theorem ResultCode.result_eq_zero_iff (c : ResultCode) : c.code.setWidth 32 = (0 : Word) ↔ c = .ok :=
  code_inj c .ok

section
variable {i : Instr} {s u : State} {c : ResultCode} (he : Effect i s c u)
include he

theorem Effect.ctrl_eq : u.ctrl = s.ctrl := (congrArg State.ctrl he.frame :)

theorem Effect.cmdCount_eq : u.cmdCount = s.cmdCount := (congrArg State.cmdCount he.frame :)

theorem Effect.resetAsserted_eq : u.resetAsserted = s.resetAsserted := (congrArg State.resetAsserted he.frame :)

/-- R40, R41: what a command makes of DATA_IN and PW: nothing, or it clears them both. -/
theorem Effect.inputs_cases :
    (u.dataIn = s.dataIn ∧ u.pw = s.pw) ∨ (u.dataIn = [] ∧ u.pw = [] ∧ (i = .zeroize ∨ c = .fatal)) :=
  he.operands.imp_left fun ⟨hd, hp, _⟩ => ⟨hd, hp⟩

/-- R28: the length register holds the length of the bytes written to OUT: none is too long for it. -/
theorem Effect.out_cases : (u.out = s.out ∧ u.outLen = s.outLen) ∨
    ∃ b : Bytes, u.out = Memory.ofBytes b ∧ u.outLen.toNat = b.length ∧ b.length ≤ Config.outBytes := by
  refine he.out.imp_right fun ⟨b, hb, ho, hl⟩ => ⟨b, ho, ?_, hb⟩
  have hcap : Config.outBytes < 2 ^ 32 := by
    have hrange := Config.bufBytes_range
    rw [Config.outBytes]; omega
  rw [hl, BitVec.toNat_ofNat, Nat.mod_eq_of_lt (Nat.lt_of_le_of_lt hb hcap)]

/-- R244: a command that ends in the FATAL state either began there or has just entered it. -/
theorem Effect.fatal_of_entered (hs : s.fatal = false) (hu : u.fatal = true) : c = .fatal ∧ u.outLen = 0 := by
  rcases he.fatal with ⟨hc, hz, _⟩ | ⟨_, hf⟩
  · exact ⟨hc, by rw [hz]; rfl⟩
  · exact absurd (hf.symm.trans hu) (by simp [hs])

end

/-- R61: an aligned word of the PW window lies inside PW whole. -/
theorem locate_pw_inside {a i : Nat} (h4 : a % 4 = 0) (h : locate a = some (.pw i)) : i + 3 < Config.pwBytes := by
  have hcap := Config.pwBytes_range
  obtain ⟨r, hl, _⟩ | ⟨j, hl, ha, hj⟩ | ⟨j, hl, _⟩ | ⟨j, hl, _⟩ := locate_cases h <;> cases hl
  omega

/-- R61: an aligned word of the DATA_IN window lies inside DATA_IN whole. -/
theorem locate_dataIn_inside {a i : Nat} (h4 : a % 4 = 0) (h : locate a = some (.dataIn i)) :
    i + 3 < Config.bufBytes := by
  have hcap := Config.bufBytes_range
  obtain ⟨r, hl, _⟩ | ⟨j, hl, _⟩ | ⟨j, hl, ha, hj⟩ | ⟨j, hl, _⟩ := locate_cases h <;> cases hl
  omega

/-- R22: CTRL stores no reserved bit. -/
theorem ctrlStored_reserved (v : Word) : ctrlStored v &&& 0xFFFFFFF0 = 0 := by
  have hmask : (0xF : Word) &&& 0xFFFFFFF0 = 0 := by decide
  rw [ctrlStored, BitVec.and_assoc, hmask]
  exact BitVec.and_zero

end Sys2Proof.Machine
end

section
/-! PROOFS. The invariant of the machine is kept by every move: by what is the HOST's own, by a host access, by an
ENGINE step, and by the reset input. -/

namespace Sys2Proof.Safety

open Sys2Proof.Machine

/-- The invariant speaks of the block only: the HOST's own fields, the order of the agents and the counter of free values
may be anything. -/
theorem Inv.hostSide {s : State} (hs : Inv s) (p : List Stmt) (vs : List (Nat × Word)) (r : Option Response) (e : Bool)
    (d : Nat) (ts : List Turn) :
    Inv { s with program := p, vars := vs, response := r, expectFailed := e, draws := d, turns := ts } :=
  { hs with
    inReset := fun h =>
      congrArg
        (fun x : State =>
          { x with program := p, vars := vs, response := r, expectFailed := e, draws := d, turns := ts })
        (hs.inReset h) }

theorem Inv.withTurns {s : State} (hs : Inv s) (ts : List Turn) : Inv { s with turns := ts } :=
  hs.hostSide s.program s.vars s.response s.expectFailed s.draws ts

theorem Inv.hostOf {u t : State} (hu : Inv u) (h : HostOf u t) : Inv t := by
  rw [h]
  exact hu.hostSide _ _ _ _ _ u.turns

/-- Log entry 12: no command is in progress while reset is asserted. -/
theorem Inv.outsideReset_of_busy {s : State} (hs : Inv s) (hb : s.busy = true) : s.resetAsserted = false := by
  cases h : s.resetAsserted with
  | false => rfl
  | true =>
    have hidle : s.busy = false := (congrArg State.busy (hs.inReset h) :)
    exact absurd (hb.symm.trans hidle) (by decide)

/-- The last clause of the invariant says nothing of a state outside reset. -/
theorem inReset_vacuous {s : State} (hr : s.resetAsserted = false) : s.resetAsserted = true → s = assertReset s :=
  fun h => (Bool.false_ne_true (hr.symm.trans h)).elim

/-! ## Host accesses -/

/-- The invariant says nothing of the operands that the HOST writes as registers, outside reset. -/
theorem Inv.withOperands {s : State} (hs : Inv s) (hr : s.resetAsserted = false) (dl pl ty crc : Word) (kc : Cost)
    (ni : Vector Byte 12) (si : Vector Byte 16) (ki : Bytes32) :
    Inv { s with
      dataLen := dl, pwLen := pl, typeCode := ty, crcAcc := crc, kdfCost := kc, nonceIn := ni, saltIn := si
      keyIn := ki } :=
  { hs with inReset := inReset_vacuous hr }

/-- R67: a write to a register of an idle block keeps the invariant. -/
theorem Inv.writeReg_idle {s : State} (hs : Inv s) (hb : s.busy = false) (hr : s.resetAsserted = false) (v : Word)
    (r : Reg) : Inv (writeReg v s r) := by
  cases r with
  | ctrl => exact { hs with ctrl := ctrlStored_reserved v, inReset := inReset_vacuous hr }
  | cmd => exact { hs with busy := fun _ => ⟨rfl, rfl⟩, err := nofun, inReset := inReset_vacuous hr }
  | status =>
    exact { hs with
      busy := fun h => (Bool.false_ne_true (hb.symm.trans h)).elim
      inReset := inReset_vacuous hr }
  | dataLen | pwLen | typeCode | crcAcc | nonceIn | saltIn | keyIn => exact hs.withOperands hr _ _ _ _ _ _ _ _
  | kdfCost k => match k with | 0 | 1 | 2 => exact hs.withOperands hr _ _ _ _ _ _ _ _
  | id | version | result | outLen | typeProps | crcValue | chunkLen | chunkType | chunkCrcStored | chunkCrcCalc
  | consumed | cmdCount | nonceOut => exact hs

/-- R61, R67: a write to an aligned word of the window of an idle block keeps the invariant. -/
theorem Inv.writeLoc_idle {s : State} (hs : Inv s) (hb : s.busy = false) (hr : s.resetAsserted = false) (v : Word)
    {a : Nat} (h4 : a % 4 = 0) {l : Loc} (hl : locate a = some l) : Inv (writeLoc v s l) := by
  cases l with
  | reg r => exact hs.writeReg_idle hb hr v r
  | pw i =>
    obtain ⟨hwf, hin⟩ := hs.pw
    exact { hs with
      pw := ⟨Memory.wf_writeWord hwf i v, Memory.below_writeWord v hin (locate_pw_inside h4 hl)⟩
      inReset := inReset_vacuous hr }
  | dataIn i =>
    obtain ⟨hwf, hin⟩ := hs.dataIn
    exact { hs with
      dataIn := ⟨Memory.wf_writeWord hwf i v, Memory.below_writeWord v hin (locate_dataIn_inside h4 hl)⟩
      inReset := inReset_vacuous hr }
  | out i => exact hs

/-- R65-R69: whatever one host access makes of the block, the invariant holds of it. -/
theorem Inv.touched {s u : State} (hs : Inv s) (h : Touched s u) : Inv u := by
  cases h with
  | same => exact hs
  | dropped hb => exact { hs with inReset := inReset_vacuous (hs.outsideReset_of_busy hb) }
  | wrote l v a hb hr h4 hl => exact hs.writeLoc_idle hb hr v h4 hl

/-! ## ENGINE steps -/

/-- R51, R101: what completion writes meets the clauses on RESULT and ERR. -/
theorem finish_err_eq (c : ResultCode) (u : State) : (finish c u).err = decide ((finish c u).result ≠ 0) :=
  decide_eq_decide.mpr (not_congr c.result_eq_zero_iff.symm)

/-- R245: in the FATAL state the ENGINE completes with FATAL and the invariant stays. -/
theorem Inv.finish_fatal {s : State} (hs : Inv s) (hr : s.resetAsserted = false) (hf : s.fatal = true) :
    Inv (finish .fatal s) :=
  { hs with
    result := ⟨_, ResultCode.fatal.code_mem_resultCodes, rfl⟩
    keyInt := rfl
    busy := nofun
    err := fun _ => finish_err_eq .fatal s
    fatal := fun _ => ⟨rfl, (hs.fatal hf).2⟩
    inReset := inReset_vacuous hr }

/-- R94: a command outside the FATAL state completes with the invariant kept. -/
theorem Inv.finish_effect {i : Instr} {s u : State} {c : ResultCode} (hs : Inv s) (hr : s.resetAsserted = false)
    (hf : s.fatal = false) (he : Effect i s c u) : Inv (finish c u) where
  dataIn := by
    obtain ⟨hd, _⟩ | ⟨hd, _, _⟩ := he.inputs_cases
    · rw [finish_dataIn, hd]; exact hs.dataIn
    · rw [finish_dataIn, hd]; exact ⟨rfl, rfl⟩
  pw := by
    obtain ⟨_, hp⟩ | ⟨_, hp, _⟩ := he.inputs_cases
    · rw [finish_pw, hp]; exact hs.pw
    · rw [finish_pw, hp]; exact ⟨rfl, rfl⟩
  out := by
    obtain ⟨ho, hl⟩ | ⟨b, ho, hl, _⟩ := he.out_cases
    · rw [finish_out, finish_outLen, ho, hl]; exact hs.out
    · rw [finish_out, finish_outLen, ho, hl]; exact ⟨Memory.wf_ofBytes b, Memory.below_ofBytes b⟩
  outLen := by
    obtain ⟨_, hl⟩ | ⟨b, _, hl, hb⟩ := he.out_cases
    · rw [finish_outLen, hl]; exact hs.outLen
    · rw [finish_outLen, hl]; exact hb
  ctrl := by rw [finish_ctrl, he.ctrl_eq]; exact hs.ctrl
  typeProps := by
    obtain ht | ⟨b, ht⟩ := he.typeProps
    · rw [finish_typeProps, ht]; exact hs.typeProps
    · obtain ⟨hAlpha, _, _, hRsvOk, _, hValid, hlt⟩ := props_bits b
      rw [finish_typeProps, ht, hValid, hRsvOk, hAlpha]
      exact ⟨hlt, rfl⟩
  result := ⟨_, c.code_mem_resultCodes, rfl⟩
  keyInt := rfl
  busy := nofun
  err := fun _ => finish_err_eq c u
  fatal := fun h => by
    obtain ⟨rfl, hl⟩ := he.fatal_of_entered hf h
    exact ⟨rfl, hl⟩
  inReset := inReset_vacuous (he.resetAsserted_eq.trans hr)

/-- R50, R92: every ENGINE step keeps the invariant. -/
theorem Inv.engineStep_next {s t : State} (hs : Inv s) (hb : s.busy = true) (h : engineStep s = .next t) : Inv t := by
  have hr := hs.outsideReset_of_busy hb
  obtain ⟨c, u, hcu, hcase⟩ := engineStep_cases s
  cases hcu.symm.trans h
  obtain ⟨hf, rfl, rfl⟩ | ⟨hf, _, rfl, rfl⟩ | ⟨hf, i, _, _, he⟩ := hcase
  · exact hs.finish_fatal hr hf
  · -- An illegal word has the effect that every command has on an error before any write.
    exact hs.finish_effect hr hf (Effect.refl .crcInit _ .illegalCmd (by decide))
  · exact hs.finish_effect hr hf he

/-! ## The reset input -/

/-- R281: the invariant holds of the reset state. -/
theorem inv_reset : Inv State.reset where
  dataIn := ⟨rfl, rfl⟩
  pw := ⟨rfl, rfl⟩
  out := ⟨rfl, rfl⟩
  outLen := Nat.zero_le _
  ctrl := by decide
  typeProps := by decide
  result := ⟨0x00, by decide, rfl⟩
  keyInt := rfl
  busy := nofun
  err := fun _ => by decide
  fatal := nofun
  inReset := nofun

/-- R281: asserting reset establishes the invariant, from any state. -/
theorem inv_assertReset (s : State) : Inv (assertReset s) := { inv_reset with inReset := fun _ => rfl }

/-- R280: releasing reset keeps the invariant. -/
theorem Inv.released {s : State} (hs : Inv s) : Inv (releaseReset s) := { hs with inReset := inReset_vacuous rfl }

end Sys2Proof.Safety

open Sys2Proof Sys2Proof.Machine Sys2Proof.Safety

/-- Settles O60: one case per kind of move, an access of the HOST being a touch of the block and then a change of what is
the HOST's own. -/
theorem stepKeepsInvariant : Obligations.StepKeepsInvariant := by
  intro s t hs h
  have hs' : Inv { s with turns := restTurns s } := hs.withTurns _
  obtain ⟨hb, hstep⟩ | hturn | ⟨_, rfl⟩ | ⟨_, rfl⟩ | ⟨_, rfl⟩ := step_cases h
  · exact hs'.engineStep_next hb hstep
  · obtain ⟨u, hu, ht⟩ := hostTurn_cases hturn
    exact (hs'.touched hu).hostOf ht
  · exact hs'
  · exact inv_assertReset _
  · exact hs'.released
end

section
/-! PROOFS. The commands: completion of each (10_state R51), and the nonce register (R37). -/

namespace Sys2Proof.Machine

/-- R209: a nonce that was selected is NONCE_IN or the RNG draw, as CTRL.NONCE_SRC says. -/
theorem selectNonce_fst (s : State) :
    (selectNonce s).1 = if s.ctrl.getLsbD 0 then some s.nonceIn else Config.rngDraw s.draws := by
  obtain ⟨hsrc, h⟩ | ⟨hsrc, h⟩ := selectNonce_cases s
  · rw [h, if_pos (show s.ctrl.getLsbD 0 = true from hsrc)]
  · rw [h, if_neg (show ¬ s.ctrl.getLsbD 0 = true from Bool.eq_false_iff.mp hsrc)]

/-- R210: the one outcome of AEAD_ENCRYPT with OK leaves in NONCE_OUT the nonce it selected. -/
theorem aeadEncrypt_nonceOut {s t : State} (h : exec .aeadEncrypt s = .next t) (hok : t.result = 0x00) :
    some t.nonceOut = (selectNonce s).1 := by
  have hcode : ∀ {c : ResultCode} {u : State}, exec .aeadEncrypt s = .next (finish c u) → c = .ok := fun e => by
    cases e.symm.trans h
    exact (ResultCode.result_eq_zero_iff _).mp hok
  obtain ⟨_, e⟩ | ⟨_, _, e⟩ | ⟨_, k, _, o, d, hn, ⟨_, e⟩ | ⟨n, rfl, e⟩⟩ := aeadEncrypt_cases s
  · cases hcode e
  · cases hcode e
  · cases hcode e
  · cases e.symm.trans h
    rw [hn]
    rfl

/-- R37: a command other than AEAD_ENCRYPT, or a code other than OK, leaves NONCE_OUT. -/
theorem exec_nonceOut_unchanged {i : Instr} {s t : State} (h : exec i s = .next t)
    (hi : i ≠ .aeadEncrypt ∨ t.result ≠ 0x00) : t.nonceOut = s.nonceOut := by
  obtain ⟨c, u, e, he⟩ := exec_effect i s
  cases e.symm.trans h
  obtain hsame | ⟨rfl, rfl⟩ := he.nonceOut
  · exact hsame
  · exact absurd rfl (hi.resolve_left (not_not_intro rfl))

end Sys2Proof.Machine

open Sys2Proof Sys2Proof.Machine Sys2Proof.Safety

/-- Settles O8: a command answers what `finish` leaves, whatever its effect before that. -/
theorem everyCommandCompletes : Obligations.EveryCommandCompletes := by
  intro i s
  obtain ⟨c, u, h, he⟩ := exec_effect i s
  have herr : (finish c u).err = decide (c.code ≠ 0) := decide_eq_decide.mpr (not_congr c.code_eq_zero_iff.symm)
  have hcount : (finish c u).cmdCount = s.cmdCount + 1 := by rw [finish_cmdCount, he.cmdCount_eq]
  exact ⟨_, c.code, h, c.code_mem_resultCodes, rfl, herr, rfl, rfl, hcount, rfl⟩

/-- Settles O23: of AEAD_ENCRYPT with OK by the nonce it selects, of all else by the frame of the commands. -/
theorem nonceOutIsTheNonceUsed : Obligations.NonceOutIsTheNonceUsed := by
  intro i s t h
  refine ⟨?_, exec_nonceOut_unchanged h⟩
  rintro rfl hok
  rw [← selectNonce_fst]
  exact aeadEncrypt_nonceOut h hok
end

section
/-! PROOFS. Host accesses outside reset (20_memory R65-R69): the answer at a word of the map, then the registers one by
one at their offsets. -/

namespace Sys2Proof.Machine

open Sys2Proof.Safety

/-! ## The answer at a word of the map -/

section
variable {o : BitVec 18} {s : State} {l : Loc} (hserved : servedAt o s = some l)
include hserved

/-- R54, R66: a read while idle, or of a register that is exact while busy, returns the word's value. -/
theorem memRead_exact (h : s.busy = false ∨ l.exactWhileBusy = true) : memRead o s = .ok (readLoc s l, s) := by
  obtain ⟨hnone, _⟩ | ⟨l', hl', ⟨hb, he, _⟩ | ⟨_, hread⟩⟩ := memRead_cases o s
  · cases hnone.symm.trans hserved
  · cases hl'.symm.trans hserved
    simp [hb, he] at h
  · cases hl'.symm.trans hserved
    exact hread

/-- R54: any other read while busy returns the next free value. -/
theorem memRead_drawn (hb : s.busy = true) (he : l.exactWhileBusy = false) :
    memRead o s = .ok (Config.busyRead s.draws, { s with draws := s.draws + 1 }) := by
  obtain ⟨hnone, _⟩ | ⟨l', hl', ⟨_, _, hread⟩ | ⟨h, _⟩⟩ := memRead_cases o s
  · cases hnone.symm.trans hserved
  · exact hread
  · cases hl'.symm.trans hserved
    simp [hb, he] at h

/-- R53: a write while busy is dropped. -/
theorem memWrite_busy (hb : s.busy = true) (v : Word) : memWrite o v s = .ok { s with wbusy := true } := by
  obtain ⟨hnone, _⟩ | ⟨_, _, ⟨_, hwrite⟩ | ⟨hidle, _⟩⟩ := memWrite_cases o v s
  · cases hnone.symm.trans hserved
  · exact hwrite
  · cases hidle.symm.trans hb

/-- R67: a write while idle is done. -/
theorem memWrite_idle (hb : s.busy = false) (v : Word) : memWrite o v s = .ok (writeLoc v s l) := by
  obtain ⟨hnone, _⟩ | ⟨l', hl', ⟨hbusy, _⟩ | ⟨_, hwrite⟩⟩ := memWrite_cases o v s
  · cases hnone.symm.trans hserved
  · cases hbusy.symm.trans hb
  · cases hl'.symm.trans hserved
    exact hwrite

end

/-- R54: the registers read exactly while busy, listed. -/
theorem Loc.exactWhileBusy_iff (l : Loc) :
    l.exactWhileBusy = true ↔ l = .reg .id ∨ l = .reg .version ∨ l = .reg .ctrl ∨ l = .reg .cmd ∨ l = .reg .status ∨
      l = .reg .cmdCount := by
  cases l with
  | reg r => cases r <;> simp [Loc.exactWhileBusy]
  | pw i | dataIn i | out i => simp [Loc.exactWhileBusy]

/-- R65, R68: the bus answers a write as `memWrite` does. -/
theorem busAccess_write_ok {o : BitVec 18} {v : Word} {s t : State} (h : memWrite o v s = .ok t) :
    busAccess ⟨.write v, o, 4⟩ s = (.accepted, t) := by
  simp [busAccess, h]

/-- R68: the bus answers an unserved write with the error, and leaves the state. -/
theorem busAccess_write_error {o : BitVec 18} {v : Word} {s : State} {f : Fault} (h : memWrite o v s = .error f) :
    busAccess ⟨.write v, o, 4⟩ s = (.error f, s) := by
  simp [busAccess, h]

/-! ## The assigned offsets -/

/-- R21, R61: the register area, as the gaps that no register fills. -/
theorem exists_reg_offset_iff (a : Nat) :
    (∃ r : Reg, r.offset = a) ↔
      a % 4 = 0 ∧ a ≤ 0x0BC ∧ a ∉ [0x058, 0x05C, 0x06C, 0x07C, 0x090, 0x094, 0x098, 0x09C] := by
  constructor
  · rintro ⟨r, rfl⟩
    refine ⟨r.offset_lt.2, r.offset_lt.1, ?_⟩
    cases r with
    | kdfCost k | nonceIn k | nonceOut k | saltIn k | keyIn k => revert k; decide
    | _ => decide
  · rintro ⟨h4, hle, hgap⟩
    have hwords : ∀ k < 48, 4 * k ∉ [0x058, 0x05C, 0x06C, 0x07C, 0x090, 0x094, 0x098, 0x09C] →
        ∃ r ∈ Reg.all, r.offset = 4 * k := by decide
    have ha : a = 4 * (a / 4) := by omega
    obtain ⟨r, _, hr⟩ := hwords (a / 4) (by omega) (ha ▸ hgap)
    exact ⟨r, hr.trans ha.symm⟩

/-- R61, R69: the assigned offsets are the aligned ones at which the map has a word. -/
theorem assigned_iff_locate (a : Nat) : Assigned a ↔ a % 4 = 0 ∧ ∃ l, locate a = some l := by
  constructor
  · rintro ⟨h4, ⟨hle, hgap⟩ | ⟨hlo, hhi⟩ | ⟨hlo, hhi⟩ | ⟨hlo, hhi⟩⟩
    · obtain ⟨r, rfl⟩ := (exists_reg_offset_iff a).mpr ⟨h4, hle, hgap⟩
      exact ⟨h4, _, locate_reg r⟩
    · exact ⟨h4, _, locate_pw (i := a - 0x00400) (by rw [pwWindow]; omega) (by omega)⟩
    · exact ⟨h4, _, locate_dataIn (i := a - 0x10000) (by rw [dataInWindow]; omega) (by omega)⟩
    · exact ⟨h4, _, locate_out (i := a - 0x20000) (by rw [outWindow]; omega) (by omega)⟩
  · rintro ⟨h4, l, hl⟩
    refine ⟨h4, ?_⟩
    obtain ⟨r, _, hr⟩ | ⟨i, _, ha, hi⟩ | ⟨i, _, ha, hi⟩ | ⟨i, _, ha, hi⟩ := locate_cases hl
    · exact .inl ((exists_reg_offset_iff a).mp ⟨r, hr.symm⟩).2
    · exact .inr (.inl ⟨by omega, by omega⟩)
    · exact .inr (.inr (.inl ⟨by omega, by omega⟩))
    · exact .inr (.inr (.inr ⟨by omega, by omega⟩))

/-- R69, R280: outside reset the block serves the assigned offsets and no others. -/
theorem exists_servedAt_iff {s : State} (hr : s.resetAsserted = false) (o : BitVec 18) :
    (∃ l, servedAt o s = some l) ↔ Assigned o.toNat := by
  simp [servedAt_eq_some, assigned_iff_locate, hr]

/-! ## The registers at their offsets -/

/-- R21: outside reset every register is served at its offset. -/
theorem servedAt_reg {s : State} (hr : s.resetAsserted = false) (r : Reg) :
    servedAt (BitVec.ofNat 18 r.offset) s = some (.reg r) := by
  obtain ⟨hle, h4⟩ := r.offset_lt
  have hoff : (BitVec.ofNat 18 r.offset).toNat = r.offset := by rw [BitVec.toNat_ofNat]; omega
  rw [servedAt_eq_some, hoff]
  exact ⟨hr, h4, locate_reg r⟩

/-- R62: a word of a byte-string register is its four bytes, the first most significant. -/
theorem wordAt_eq_packWord {n : Nat} (v : Vector Byte n) (k : Nat) (h : 4 * k + 3 < n) :
    wordAt v k = packWord v[4 * k] v[4 * k + 1] v[4 * k + 2] v[4 * k + 3] := by
  have h0 : 4 * k < n := by omega
  have h1 : 4 * k + 1 < n := by omega
  have h2 : 4 * k + 2 < n := by omega
  simp [wordAt, h0, h1, h2, h]

section
variable {s : State} (hb : s.busy = false) (hr : s.resetAsserted = false)
include hb hr

/-- R66: what a register reads as while idle, at its offset. -/
theorem memRead_reg (r : Reg) : memRead (BitVec.ofNat 18 r.offset) s = .ok (readReg s r, s) :=
  memRead_exact (servedAt_reg hr r) (.inl hb)

/-- R62, R66: what a register that is word `k` of the byte string `v` reads as while idle, at its offset. -/
theorem memRead_reg_word {n : Nat} (v : Vector Byte n) (k : Nat) (h : 4 * k + 3 < n) {r : Reg}
    (hv : readReg s r = wordAt v k) :
    memRead (BitVec.ofNat 18 r.offset) s =
      .ok (packWord v[4 * k] v[4 * k + 1] v[4 * k + 2] v[4 * k + 3], s) := by
  rw [memRead_reg hb hr, hv, wordAt_eq_packWord v k h]

/-- R67: what a write to a register does while idle, at its offset. -/
theorem memWrite_reg (r : Reg) (v : Word) : memWrite (BitVec.ofNat 18 r.offset) v s = .ok (writeReg v s r) :=
  memWrite_idle (servedAt_reg hr r) hb v

end

/-- R21, R67: a write to a read-only register is ignored. -/
theorem writeReg_of_ro (v : Word) (s : State) {r : Reg} (h : r.access = .ro) : writeReg v s r = s := by
  cases r with
  | id | version | result | outLen | typeProps | crcValue | chunkLen | chunkType | chunkCrcStored | chunkCrcCalc
  | consumed | cmdCount | nonceOut => rfl
  | _ => cases h

/-- R21, R67: a write-only register reads 0. -/
theorem readReg_of_wo (s : State) {r : Reg} (h : r.access = .wo) : readReg s r = 0 := by
  cases r with
  | keyIn => rfl
  | _ => cases h

/-- R21, R67: a write to a read-write register starts no command and is no reset. -/
theorem writeReg_of_rw (v : Word) (s : State) {r : Reg} (h : r.access = .rw) :
    (writeReg v s r).busy = s.busy ∧ (writeReg v s r).resetAsserted = s.resetAsserted := by
  have hreset : (writeReg v s r).resetAsserted = s.resetAsserted :=
    (congrArg State.resetAsserted (writeLoc_frame v s (.reg r)) :)
  refine ⟨?_, hreset⟩
  cases r with
  | ctrl | dataLen | pwLen | typeCode | crcAcc | nonceIn | saltIn => simp only [writeReg]
  | kdfCost k => match k with | 0 | 1 | 2 => rfl
  | _ => cases h

/-- R21, R22, R62, R67: a read-write register reads what was written to it, CTRL without its reserved bits. -/
theorem readReg_writeReg_of_rw (v : Word) (s : State) {r : Reg} (h : r.access = .rw) :
    readReg (writeReg v s r) r = if r = .ctrl then v &&& 0x0000000F else v := by
  cases r with
  | kdfCost k => match k with | 0 | 1 | 2 => rfl
  | nonceIn k => exact wordAt_setWordAt s.nonceIn k.val v (by omega)
  | saltIn k => exact wordAt_setWordAt s.saltIn k.val v (by omega)
  | ctrl | dataLen | pwLen | typeCode | crcAcc => rfl
  | _ => cases h

/-- R25: the flags of STATUS, bit by bit, and that bits 31:6 are 0. -/
theorem State.statusWord_bits (s : State) :
    s.statusWord.getLsbD 0 = s.busy ∧ s.statusWord.getLsbD 1 = s.done ∧ s.statusWord.getLsbD 2 = s.err ∧
      s.statusWord.getLsbD 3 = s.fatal ∧ s.statusWord.getLsbD 4 = s.wbusy ∧ s.statusWord.getLsbD 5 = s.irq ∧
      s.statusWord.toNat < 64 := by
  unfold State.statusWord
  generalize s.busy = b0
  generalize s.done = b1
  generalize s.err = b2
  generalize s.fatal = b3
  generalize s.wbusy = b4
  generalize s.irq = b5
  revert b0 b1 b2 b3 b4 b5
  decide

end Sys2Proof.Machine

open Sys2Proof Sys2Proof.Machine Sys2Proof.Safety

/-- Settles O36: each write and each read is the register's own, at its offset. -/
theorem readWriteRegistersReadBack : Obligations.ReadWriteRegistersReadBack := by
  intro s hb hr
  have hread := memRead_reg hb hr
  have hnonce := fun k : Fin 3 => memRead_reg_word hb hr s.nonceIn k.val (by omega) (r := .nonceIn k) rfl
  have hsalt := fun k : Fin 4 => memRead_reg_word hb hr s.saltIn k.val (by omega) (r := .saltIn k) rfl
  refine ⟨fun v => ?_, ?_, fun r v hrw => ?_⟩
  · have hwrite := fun r => memWrite_reg hb hr r v
    exact ⟨hwrite .ctrl, hwrite .dataLen, hwrite .pwLen, hwrite .typeCode, hwrite .crcAcc, hwrite (.kdfCost 0),
      hwrite (.kdfCost 1), hwrite (.kdfCost 2)⟩
  · exact ⟨hread .ctrl, hread .dataLen, hread .pwLen, hread .typeCode, hread .crcAcc, hread (.kdfCost 0),
      hread (.kdfCost 1), hread (.kdfCost 2), hnonce 0, hnonce 1, hnonce 2, hsalt 0, hsalt 1, hsalt 2, hsalt 3⟩
  · obtain ⟨hbusy, hreset⟩ := writeReg_of_rw v s hrw
    refine ⟨_, memWrite_reg hb hr r v, hbusy.trans hb, ?_⟩
    rw [memRead_reg (hbusy.trans hb) (hreset.trans hr), readReg_writeReg_of_rw v s hrw]

/-- Settles O37: each read is the register's own, at its offset. -/
theorem registerReadValues : Obligations.RegisterReadValues := by
  intro s hb hr
  have hread := memRead_reg hb hr
  have hcrc : ~~~s.crcAcc = s.crcAcc ^^^ 0xFFFFFFFF := by rw [BitVec.not_def, BitVec.xor_comm]; rfl
  have hnonce := fun k : Fin 3 => memRead_reg_word hb hr s.nonceOut k.val (by omega) (r := .nonceOut k) rfl
  exact ⟨hread .id, hread .version, hread .cmd, hread .result, hread .outLen, hread .typeProps,
    hcrc ▸ hread .crcValue, hread .chunkLen, hread .chunkType, hread .chunkCrcStored, hread .chunkCrcCalc,
    hread .consumed, hread .cmdCount, hnonce 0, hnonce 1, hnonce 2⟩

/-- Settles O39: the word at an assigned offset is the target's own, by its access type. -/
theorem readOnlyAndWriteOnlyWords : Obligations.ReadOnlyAndWriteOnlyWords := by
  intro s o l hb hr h4 hl
  have hserved : servedAt o s = some l := servedAt_eq_some.mpr ⟨hr, h4, hl⟩
  refine ⟨fun h v => ?_, fun h => ?_⟩
  · rw [memWrite_idle hserved hb]
    obtain ⟨r, rfl, hro⟩ | ⟨i, rfl⟩ := h
    · exact congrArg _ (writeReg_of_ro v s hro)
    · rfl
  · rw [memRead_exact hserved (.inl hb)]
    obtain ⟨r, rfl, hwo⟩ | ⟨i, rfl⟩ := h
    · exact congrArg (fun w => Except.ok (w, s)) (readReg_of_wo s hwo)
    · rfl

/-- Settles O43: outside reset an offset is served exactly if it is assigned. -/
theorem writesWhileBusyAreDropped : Obligations.WritesWhileBusyAreDropped := by
  intro s o v hr
  refine ⟨fun ha hb => ?_, fun ha => ?_⟩
  · obtain ⟨l, hserved⟩ := (exists_servedAt_iff hr o).mpr ha
    exact busAccess_write_ok (memWrite_busy hserved hb v)
  · obtain ⟨_, herr⟩ | ⟨l, hserved, _⟩ := memWrite_cases o v s
    · exact busAccess_write_error herr
    · exact absurd ((exists_servedAt_iff hr o).mp ⟨l, hserved⟩) ha

/-- Settles O44: a read is exact while idle or at one of the six registers, and drawn otherwise. -/
theorem readsWhileBusyAreDrawn : Obligations.ReadsWhileBusyAreDrawn := by
  intro s o l hr h4 hl
  have hserved : servedAt o s = some l := servedAt_eq_some.mpr ⟨hr, h4, hl⟩
  rw [← Loc.exactWhileBusy_iff]
  exact ⟨fun hb => ⟨fun he => memRead_exact hserved (.inr he),
      fun he => memRead_drawn hserved hb (Bool.eq_false_iff.mpr he)⟩,
    fun hb => memRead_exact hserved (.inl hb)⟩

/-- Settles O7: an idle block accepts the word written to CMD. -/
theorem commandAcceptance : Obligations.CommandAcceptance := fun _ v hb hr => memWrite_reg hb hr .cmd v

/-- Settles O41: a write to STATUS is `statusWrite`. -/
theorem statusWriteOneToClear : Obligations.StatusWriteOneToClear := by
  intro s v hb hr
  exact ⟨statusWrite v s, memWrite_reg hb hr .status v, by simp, by simp, rfl⟩

/-- Settles O42: STATUS is one of the registers read exactly while busy. -/
theorem statusReadsItsFlags : Obligations.StatusReadsItsFlags := by
  intro s
  refine ⟨rfl, fun hr => ⟨s.statusWord, ?_, s.statusWord_bits⟩⟩
  exact memRead_exact (servedAt_reg hr .status) (.inr rfl)
end

section
/-! PROOFS. What a step changes (10_state R26, R35, R40, R50): an ENGINE step completes; every other step but the
assertion of reset is at most one host access as far as the block is concerned. -/

namespace Sys2Proof.Machine

/-! ## The ENGINE's step -/

/-- R92: outside the FATAL state the ENGINE step is the decoded command. -/
theorem engineStep_of_decode {s : State} {i : Instr} (hf : s.fatal = false) (hd : decode s.cmd = .ok i) :
    engineStep s = exec i s := by
  simp [engineStep, hf, hd]

/-- R50: an ENGINE turn that is next is taken. -/
theorem step_engine (s : State) (ts : List Turn) :
    step { s with turns := .engine :: ts } = engineTurn { s with turns := ts } := rfl

/-- R93: a word that decodes to a command is the command's. -/
theorem eq_encode_of_decode {w : Word} {i : Instr} (h : decode w = .ok i) : w = encode i := by
  obtain ⟨hmbz, hopc⟩ := (decode_iff w i).mp h
  rw [← fields_append w, hmbz, hopc, encode]
  rfl

/-- R229, R244: an ENGINE step that changes DATA_IN has cleared it, by ZEROIZE or on entry to the FATAL state. -/
theorem engineStep_dataIn {s t : State} (h : engineStep s = .next t) (hne : t.dataIn ≠ s.dataIn) :
    t.dataIn = [] ∧ (s.cmd = encode .zeroize ∨ (s.fatal = false ∧ t.fatal = true)) := by
  obtain ⟨c, u, hcu, hcase⟩ := engineStep_cases s
  cases hcu.symm.trans h
  obtain ⟨_, _, rfl⟩ | ⟨_, _, _, rfl⟩ | ⟨hf, i, hd, _, he⟩ := hcase
  · exact absurd rfl hne
  · exact absurd rfl hne
  · obtain ⟨hsame, _⟩ | ⟨hclear, _, rfl | rfl⟩ := he.inputs_cases
    · exact absurd hsame hne
    · exact ⟨hclear, .inl (eq_encode_of_decode hd)⟩
    · obtain ⟨_, hz, _⟩ | ⟨hc, _⟩ := he.fatal
      · exact ⟨hclear, .inr ⟨hf, by rw [hz]; rfl⟩⟩
      · exact absurd rfl hc

/-! ## The other steps -/

/-- `t` is `u` but for what is the HOST's own, the counter of free values and the level of the reset input. -/
def BlockOf (u t : State) : Prop :=
  t = { u with
    program := t.program, vars := t.vars, response := t.response, expectFailed := t.expectFailed, draws := t.draws
    resetAsserted := t.resetAsserted }

theorem BlockOf.of_hostOf {u t : State} (h : HostOf u t) : BlockOf u t := by
  unfold HostOf at h
  unfold BlockOf
  rw [h]

/-- R50, R71, R280: a step other than the assertion of reset is an ENGINE step or at most one host access. -/
theorem step_cases_of_not_assertReset {s t : State} (h : step s = .next t) (hn : s.turns.head? ≠ some .assertReset) :
    (s.busy = true ∧ engineStep { s with turns := restTurns s } = .next t) ∨
      ∃ u, Touched { s with turns := restTurns s } u ∧ BlockOf u t := by
  obtain hengine | hturn | ⟨_, rfl⟩ | ⟨hassert, _⟩ | ⟨_, rfl⟩ := step_cases h
  · exact .inl hengine
  · obtain ⟨u, hu, ht⟩ := hostTurn_cases hturn
    exact .inr ⟨u, hu, .of_hostOf ht⟩
  · exact .inr ⟨_, .same, rfl⟩
  · exact absurd hassert hn
  · exact .inr ⟨_, .same, rfl⟩

/-- R52, R67: of the results of commands a write changes ERR alone, and that by accepting a command. -/
theorem writeLoc_err (v : Word) (s : State) (l : Loc) :
    ((writeLoc v s l).busy = s.busy ∧ (writeLoc v s l).err = s.err) ∨
      ((writeLoc v s l).busy = true ∧ (writeLoc v s l).err = false) := by
  cases l with
  | reg r =>
    cases r with
    | cmd => exact .inr ⟨rfl, rfl⟩
    | kdfCost k => match k with | 0 | 1 | 2 => exact .inl ⟨rfl, rfl⟩
    | _ => exact .inl (by simp only [writeLoc, writeReg, statusWrite, and_self])
  | pw i | dataIn i | out i => exact .inl ⟨rfl, rfl⟩

section
variable {s u : State} (h : Touched s u)
include h

/-- R26, R35: no host access writes CMD_COUNT, RESULT or FATAL. -/
theorem Touched.results : u.cmdCount = s.cmdCount ∧ u.result = s.result ∧ u.fatal = s.fatal := by
  cases h with
  | same => exact ⟨rfl, rfl, rfl⟩
  | dropped hb => exact ⟨rfl, rfl, rfl⟩
  | wrote l v a hb hr h4 hl =>
    have hframe := writeLoc_frame v s l
    exact ⟨(congrArg State.cmdCount hframe :), (congrArg State.result hframe :), (congrArg State.fatal hframe :)⟩

/-- R52: a host access leaves BUSY and ERR, or accepts a command in an idle block. -/
theorem Touched.accepts : (u.busy = s.busy ∧ u.err = s.err) ∨ (s.busy = false ∧ u.busy = true ∧ u.err = false) := by
  cases h with
  | same => exact .inl ⟨rfl, rfl⟩
  | dropped hb => exact .inl ⟨rfl, rfl⟩
  | wrote l v a hb hr h4 hl => exact (writeLoc_err v s l).imp_right fun h => ⟨hb, h⟩

/-- R53: a host access to a busy block leaves it busy. -/
theorem Touched.busy_of_busy (hb : s.busy = true) : u.busy = true := by
  obtain ⟨hsame, _⟩ | ⟨_, hbusy, _⟩ := h.accepts
  · exact hsame.trans hb
  · exact hbusy

/-- R53: a host access to a busy block leaves DATA_IN. -/
theorem Touched.dataIn_of_busy (hb : s.busy = true) : u.dataIn = s.dataIn := by
  cases h with
  | same => rfl
  | dropped _ => rfl
  | wrote l v a hidle hr h4 hl => cases hidle.symm.trans hb

end

end Sys2Proof.Machine

open Sys2Proof Sys2Proof.Machine Sys2Proof.Safety

/-- Settles O49: an ENGINE step is a completion, and no host access is one. -/
theorem cmdCountCountsCompletions : Obligations.CmdCountCountsCompletions := by
  intro s t h hn
  obtain ⟨hb, hengine⟩ | ⟨u, hu, ht⟩ := step_cases_of_not_assertReset h hn
  · obtain ⟨hbusy, _, hcount, _⟩ := engineStep_completes hengine
    exact .inl ⟨hb, hbusy, hcount⟩
  · obtain ⟨hcount, _, _⟩ := hu.results
    rw [ht]
    exact .inr ⟨hu.busy_of_busy, hcount⟩

/-- Settles O50: a step that does not complete a command is at most one host access. -/
theorem resultWrittenOnlyAtCompletion : Obligations.ResultWrittenOnlyAtCompletion := by
  intro s t h hn hnot
  obtain ⟨hb, hengine⟩ | ⟨u, hu, ht⟩ := step_cases_of_not_assertReset h hn
  · obtain ⟨hbusy, _⟩ := engineStep_completes hengine
    exact absurd ⟨hb, hbusy⟩ hnot
  · obtain ⟨_, hresult, hfatal⟩ := hu.results
    rw [ht]
    exact ⟨hresult, hfatal, hu.accepts.imp_left And.right⟩

/-- Settles O52: while busy only the ENGINE step changes DATA_IN. -/
theorem dataInChangesOnlyByHostOrClearing : Obligations.DataInChangesOnlyByHostOrClearing := by
  intro s t h hn hb hne
  obtain ⟨_, hengine⟩ | ⟨u, hu, ht⟩ := step_cases_of_not_assertReset h hn
  · obtain ⟨hbusy, _⟩ := engineStep_completes hengine
    obtain ⟨hclear, hwhy⟩ := engineStep_dataIn hengine hne
    exact ⟨hbusy, fun j => by rw [hclear]; rfl, hwhy⟩
  · have hsame : t.dataIn = u.dataIn := by rw [ht]
    exact absurd (hsame.trans (hu.dataIn_of_busy hb)) hne

/-- Settles O4: the ENGINE moves next when its turn is given, and when a busy block is given none. -/
theorem stepRunsDecodedCommand : Obligations.StepRunsDecodedCommand := by
  intro s i ts hb hf hd
  refine ⟨?_, ?_⟩
  · rw [step_engine, engineTurn, if_pos hb]
    exact engineStep_of_decode hf hd
  · rw [step_default _ rfl, if_pos hb]
    exact engineStep_of_decode hf hd

/-- Settles O5: an ENGINE turn runs the ENGINE step only while busy. -/
theorem idleEngineHasNoStep : Obligations.IdleEngineHasNoStep := by
  intro s ts hb
  rw [step_engine, engineTurn, if_neg (Bool.eq_false_iff.mp hb)]
end

section
/-! PROOFS. The address map of the window and its host accesses (20_memory R60-R69): which of them are served, where the
bytes of a word written go (R62), and what an access leaves unchanged (R53, R66, R76). -/

namespace Sys2Proof.Machine

open Sys2Proof.Safety

/-! ## Served and unserved accesses -/

/-- R68: a read that is not served gets the bus error. -/
theorem memRead_unserved {o : BitVec 18} {s : State} (h : servedAt o s = none) :
    memRead o s = .error (.busError o) := by
  simp [memRead, h]

/-- R68: a write that is not served gets the bus error. -/
theorem memWrite_unserved {o : BitVec 18} {s : State} (h : servedAt o s = none) (v : Word) :
    memWrite o v s = .error (.busError o) := by
  simp [memWrite, h]

/-- R66: a read that is served returns a word, and changes at most the counter of free values (log entry 9). -/
theorem memRead_served {o : BitVec 18} {s : State} {l : Loc} (h : servedAt o s = some l) :
    ∃ w d, memRead o s = .ok (w, { s with draws := d }) := by
  obtain ⟨hnone, _⟩ | ⟨_, _, ⟨_, _, hread⟩ | ⟨_, hread⟩⟩ := memRead_cases o s
  · cases hnone.symm.trans h
  · exact ⟨_, _, hread⟩
  · exact ⟨_, s.draws, hread⟩

/-- R53, R67: a write that is served is answered without error (log entry 13). -/
theorem memWrite_served {o : BitVec 18} {s : State} {l : Loc} (h : servedAt o s = some l) (v : Word) :
    ∃ t, memWrite o v s = .ok t := by
  obtain ⟨hnone, _⟩ | ⟨_, _, ⟨_, hwrite⟩ | ⟨_, hwrite⟩⟩ := memWrite_cases o v s
  · cases hnone.symm.trans h
  · exact ⟨_, hwrite⟩
  · exact ⟨_, hwrite⟩

/-- R65-R68: the one inversion of `busAccess`, its answer included: the bus error, a served read, or a served write. -/
theorem busAccess_cases (a : Access) (s : State) :
    ((a.width ≠ 4 ∨ a.kind = .fetch ∨ servedAt a.offset s = none) ∧
      busAccess a s = (.error (.busError a.offset), s)) ∨
    ∃ l, a.width = 4 ∧ servedAt a.offset s = some l ∧
      ((a.kind = .read ∧ ∃ w d, busAccess a s = (.data w, { s with draws := d })) ∨
        ∃ v t, a.kind = .write v ∧ busAccess a s = (.accepted, t)) := by
  obtain ⟨kind, o, width⟩ := a
  by_cases hwidth : width = 4
  · subst hwidth
    cases hserved : servedAt o s with
    | none =>
      refine .inl ⟨.inr (.inr rfl), ?_⟩
      cases kind with
      | fetch => rfl
      | read => simp [busAccess, memRead_unserved hserved]
      | write v => exact busAccess_write_error (memWrite_unserved hserved v)
    | some l =>
      cases kind with
      | fetch => exact .inl ⟨.inr (.inl rfl), rfl⟩
      | read =>
        obtain ⟨w, d, hread⟩ := memRead_served hserved
        exact .inr ⟨l, rfl, rfl, .inl ⟨rfl, w, d, by simp [busAccess, hread]⟩⟩
      | write v =>
        obtain ⟨t, hwrite⟩ := memWrite_served hserved v
        exact .inr ⟨l, rfl, rfl, .inr ⟨v, t, rfl, busAccess_write_ok hwrite⟩⟩
  · exact .inl ⟨.inl hwidth, if_pos hwidth⟩

/-- R69, R280: an offset is served exactly if it is assigned and the block is outside reset. -/
theorem exists_servedAt_iff_assigned (o : BitVec 18) (s : State) :
    (∃ l, servedAt o s = some l) ↔ Assigned o.toNat ∧ s.resetAsserted = false := by
  simp [servedAt_eq_some, assigned_iff_locate, and_comm]

/-! ## The words of the windows -/

/-- R60, R61: what the map assigns lies inside the window. -/
theorem locate_lt {a : Nat} {l : Loc} (h : locate a = some l) : a < 0x40000 := by
  have hbuf := Config.bufBytes_range
  have hpw := Config.pwBytes_range
  have hout : Config.outBytes = Config.bufBytes + 16 := rfl
  obtain ⟨r, _, ha⟩ | ⟨i, _, ha, hi⟩ | ⟨i, _, ha, hi⟩ | ⟨i, _, ha, hi⟩ := locate_cases h
  · have hreg := r.offset_lt
    omega
  · omega
  · omega
  · omega

section
variable {s : State} (hb : s.busy = false) (hr : s.resetAsserted = false) {a : Nat} {l : Loc} (h4 : a % 4 = 0)
  (hl : locate a = some l)

include hr h4 hl in
/-- R61: outside reset the word at an aligned offset of the map is served. -/
theorem servedAt_ofNat : servedAt (BitVec.ofNat 18 a) s = some l := by
  have hoff : (BitVec.ofNat 18 a).toNat = a := Nat.mod_eq_of_lt (locate_lt hl)
  rw [servedAt_eq_some, hoff]
  exact ⟨hr, h4, hl⟩

include hb hr h4 hl

/-- R66: what the word at an aligned offset reads as while idle. -/
theorem memRead_ofNat : memRead (BitVec.ofNat 18 a) s = .ok (readLoc s l, s) :=
  memRead_exact (servedAt_ofNat hr h4 hl) (.inl hb)

/-- R67: what a write to the word at an aligned offset does while idle. -/
theorem memWrite_ofNat (v : Word) : memWrite (BitVec.ofNat 18 a) v s = .ok (writeLoc v s l) :=
  memWrite_idle (servedAt_ofNat hr h4 hl) hb v

end

end Sys2Proof.Machine

open Sys2Proof Sys2Proof.Machine Sys2Proof.Safety

/-- Settles O34: an aligned offset is assigned exactly if the map has a word there. -/
theorem addressMapIsExact : Obligations.AddressMapIsExact := by
  intro a h4 _
  rw [assigned_iff_locate, Option.isSome_iff_exists]
  exact (and_iff_right h4).symm

/-- Settles O35: a 32-bit read or write is served exactly at an assigned offset outside reset. -/
theorem unservedAccessesGetBusError : Obligations.UnservedAccessesGetBusError := by
  intro a s served
  have hserved := exists_servedAt_iff_assigned a.offset s
  obtain ⟨hnot, herr⟩ | ⟨l, hwidth, hl, hanswer⟩ := busAccess_cases a s
  · refine ⟨fun _ => herr, fun ⟨hwidth, ha, hkind, hr⟩ => ?_⟩
    obtain ⟨l, hl⟩ := hserved.mpr ⟨ha, hr⟩
    obtain h | h | h := hnot
    · exact absurd hwidth h
    · exact absurd h hkind
    · cases h.symm.trans hl
  · obtain ⟨ha, hr⟩ := hserved.mp ⟨l, hl⟩
    obtain ⟨hkind, hok⟩ : a.kind ≠ .fetch ∧ ∀ f, (busAccess a s).1 ≠ .error f := by
      obtain ⟨hkind, w, d, h⟩ | ⟨v, t, hkind, h⟩ := hanswer
      · simp [hkind, h]
      · simp [hkind, h]
    exact ⟨fun hnot => absurd ⟨hwidth, ha, hkind, hr⟩ hnot, fun _ => hok⟩

/-- Settles O38: word `k` of the register is written at its own offset, by `setWordAt`. -/
theorem byteStringWordsPackBigEndian : Obligations.ByteStringWordsPackBigEndian := by
  intro s k v hb hr
  refine ⟨fun hk => ?_, fun hk => ?_, fun hk => ?_⟩
  · exact ⟨_, memWrite_reg hb hr (.nonceIn ⟨k, hk⟩) v, rfl, fun j => getElem_setWordAt s.nonceIn k v j j.isLt⟩
  · exact ⟨_, memWrite_reg hb hr (.saltIn ⟨k, hk⟩) v, rfl, fun j => getElem_setWordAt s.saltIn k v j j.isLt⟩
  · exact ⟨_, memWrite_reg hb hr (.keyIn ⟨k, hk⟩) v, rfl, fun j => getElem_setWordAt s.keyIn k v j j.isLt⟩

/-- Settles O40: the word at byte index `i` of a window is word `i` of its buffer. -/
theorem windowsPackBigEndian : Obligations.WindowsPackBigEndian := by
  intro s i v hb hr h4
  refine ⟨fun hi hwf => ?_, fun hi hwf => ?_, fun hi => ?_⟩
  · have ha : (0x10000 + i) % 4 = 0 := by omega
    have hl : locate (0x10000 + i) = some (.dataIn i) := locate_dataIn rfl hi
    have hback := memRead_ofNat (s := writeLoc v s (.dataIn i)) hb hr ha hl
    rw [show readLoc (writeLoc v s (.dataIn i)) (.dataIn i) = v from Memory.readWord_writeWord hwf i v] at hback
    exact ⟨_, memWrite_ofNat hb hr ha hl v, rfl, Memory.read_writeWord hwf i v, hback⟩
  · have ha : (0x00400 + i) % 4 = 0 := by omega
    exact ⟨_, memWrite_ofNat hb hr ha (locate_pw rfl hi) v, rfl, Memory.read_writeWord hwf i v⟩
  · have ha : (0x20000 + i) % 4 = 0 := by omega
    exact memRead_ofNat hb hr ha (locate_out rfl hi)

/-- Settles O45: a busy block drops every write, and a read of any block counts at most a free value. -/
theorem operandsAreFrozenWhileBusy : Obligations.OperandsAreFrozenWhileBusy := by
  intro a s
  refine ⟨fun hb => ?_, fun hkind => ?_⟩
  · obtain h | ⟨_, h⟩ | ⟨_, h⟩ | ⟨_, _, hidle, _⟩ := busAccess_state a s
    · rw [h]
    · rw [h]
    · rw [h]
    · cases hidle.symm.trans hb
  · obtain ⟨_, h⟩ | ⟨_, _, _, ⟨_, _, _, h⟩ | ⟨_, _, hwrite, _⟩⟩ := busAccess_cases a s
    · rw [h]
    · rw [h]
    · cases hwrite.symm.trans hkind
end

section
/-! PROOFS. The decoder (30_encoding R90-R96): it inverts the encoder on the whole word, and the words it rejects are
those of R96. -/

namespace Sys2Proof

/-- R93: a command's own word decodes to it. -/
theorem decode_encode (i : Instr) : decode (encode i) = .ok i :=
  (decode_iff (encode i) i).mpr (fields_encode i)

/-- R93: a word decodes to a command exactly when it is the command's, in all of its 32 bits. -/
theorem decode_eq_ok_iff (w : Word) (i : Instr) : decode w = .ok i ↔ w = encode i :=
  ⟨Machine.eq_encode_of_decode, fun h => h ▸ decode_encode i⟩

/-- R93: the operation codes as numbers. -/
theorem exists_opc_toNat_eq_iff (n : Nat) :
    (∃ i : Instr, n = i.opc.toNat) ↔
      n ∈ [0x01, 0x02, 0x10, 0x11, 0x12, 0x13, 0x14, 0x20, 0x21, 0x22, 0x30] := by
  have hrows : Instr.all.map (fun i => i.opc.toNat) =
      [0x01, 0x02, 0x10, 0x11, 0x12, 0x13, 0x14, 0x20, 0x21, 0x22, 0x30] := by decide
  simp [← hrows, Instr.mem_all, eq_comm]

/-- R92: the legal words as numbers: MBZ is 0 and OPC is an operation code. -/
theorem exists_decode_eq_ok_iff (w : Word) :
    (∃ i, decode w = .ok i) ↔ w.toNat / 256 = 0 ∧ ∃ i : Instr, w.toNat % 256 = i.opc.toNat := by
  simp only [decode_iff, exists_and_left, mbzField_eq_zero, ← opcField_toNat, BitVec.toNat_inj]

/-- R96: the words of the rule's list are those that no row of R93 has. -/
theorem illegalWord_iff (w : Word) : Safety.IllegalWord w ↔ ¬ ∃ i, decode w = .ok i := by
  rw [exists_decode_eq_ok_iff, exists_opc_toNat_eq_iff, Safety.IllegalWord]
  simp only [List.mem_cons, List.not_mem_nil, or_false]
  omega

/-- R92: decoding is total: what does not decode is rejected. -/
theorem exists_decode_eq_error_iff (w : Word) : (∃ e, decode w = .error e) ↔ ¬ ∃ i, decode w = .ok i := by
  cases decode w with
  | ok i => simp
  | error e => simp

end Sys2Proof

namespace Sys2Proof.Machine

/-- R51: what the machine does to complete is what the claims call completion. -/
theorem finish_eq_completion (c : ResultCode) (s : State) : finish c s = Safety.completion c.code s := by
  have herr : decide (c ≠ .ok) = decide (c.code ≠ 0) := decide_eq_decide.mpr (not_congr c.code_eq_zero_iff.symm)
  rw [finish, Safety.completion, herr]

/-- R231: outside the FATAL state an illegal word completes with ILLEGAL_CMD. -/
theorem engineStep_of_illegalWord {s : State} (hf : s.fatal = false) (hw : Safety.IllegalWord s.cmd) :
    engineStep s = .next (Safety.completion 0x0E s) := by
  obtain ⟨e, he⟩ := (exists_decode_eq_error_iff s.cmd).mpr ((illegalWord_iff s.cmd).mp hw)
  have hstep : engineStep s = .next (finish .illegalCmd s) := by simp [engineStep, hf, he]
  rw [hstep, finish_eq_completion]
  rfl

end Sys2Proof.Machine

open Sys2Proof Sys2Proof.Machine Sys2Proof.Safety

/-- Settles O1: the eleven words by evaluation of the encoder, all other words by its being the decoder's inverse. -/
theorem decodeMatchesWholeWord : Obligations.DecodeMatchesWholeWord :=
  ⟨by decide, decode_eq_ok_iff⟩

/-- Settles O2: R96 lists the words that have no row in R93, and the ENGINE step at such a word is the completion. -/
theorem illegalWordsComplete : Obligations.IllegalWordsComplete := by
  refine ⟨fun w => (exists_decode_eq_error_iff w).trans (illegalWord_iff w).symm, fun s ts hb hf hw => ?_⟩
  rw [step_engine, engineTurn, if_pos hb]
  exact engineStep_of_illegalWord hf hw

/-- Settles O3: six words are those of their commands; the other two fail at one field each. -/
theorem sampleWordsDecode : Obligations.SampleWordsDecode :=
  ⟨decode_encode .crcUpdate, decode_encode .typeFromName, decode_encode .chunkVerify, decode_encode .kdfDerive,
    decode_encode .aeadEncrypt, decode_encode .zeroize, by decide, by decide⟩
end

section
/-! PROOFS. What each command leaves unchanged (30_encoding R94): its frame, over all of its outcomes. -/

namespace Sys2Proof.Machine

open Sys2Proof.Safety

/-- R244: `fatal()` writes what R244 names, whatever OUT was before it. -/
theorem fatalEnd_clearOut_frame (s : State) :
    (fatalEnd (clearOut s)).fatal = true ∧ fatalEnd (clearOut s) = fatalFrom (fatalEnd (clearOut s)) s :=
  ⟨rfl, rfl⟩

variable {s t : State}

/-- R94: CRC_INIT. -/
theorem crcInit_frame (h : exec .crcInit s = .next t) : t = { completionFrom t s with crcAcc := t.crcAcc } := by
  cases h; rfl

/-- R94: CRC_UPDATE. -/
theorem crcUpdate_frame (h : exec .crcUpdate s = .next t) : t = { completionFrom t s with crcAcc := t.crcAcc } := by
  obtain ⟨_, e⟩ | ⟨_, e⟩ := crcUpdate_cases s
  · cases e.symm.trans h; rfl
  · cases e.symm.trans h; rfl

/-- R94: TYPE_FROM_NAME. -/
theorem typeFromName_frame (h : exec .typeFromName s = .next t) :
    t = { completionFrom t s with typeCode := t.typeCode, typeProps := t.typeProps } := by
  obtain ⟨_, e⟩ | ⟨_, _, e⟩ | ⟨_, _, _, e⟩ | ⟨_, _, _, e⟩ := typeFromName_cases s
  all_goals cases e.symm.trans h; rfl

/-- R94: TYPE_CHECK. -/
theorem typeCheck_frame (h : exec .typeCheck s = .next t) :
    t = { completionFrom t s with typeProps := t.typeProps } := by
  cases (typeCheck_eq s).symm.trans h; rfl

/-- R94: CHUNK_BUILD. -/
theorem chunkBuild_frame (h : exec .chunkBuild s = .next t) :
    t = { completionFrom t s with
          out := t.out, outLen := t.outLen, chunkLen := t.chunkLen, chunkType := t.chunkType
          chunkCrcStored := t.chunkCrcStored, chunkCrcCalc := t.chunkCrcCalc } := by
  obtain ⟨_, e⟩ | ⟨_, _, e⟩ | ⟨_, _, e⟩ := chunkBuild_cases s
  all_goals cases e.symm.trans h; rfl

/-- R94: CHUNK_VERIFY. -/
theorem chunkVerify_frame (h : exec .chunkVerify s = .next t) :
    t = { completionFrom t s with
          out := t.out, outLen := t.outLen, chunkLen := t.chunkLen, chunkType := t.chunkType
          chunkCrcStored := t.chunkCrcStored, chunkCrcCalc := t.chunkCrcCalc, consumed := t.consumed
          typeProps := t.typeProps } := by
  obtain ⟨_, e⟩ | ⟨_, len, _, ⟨_, e⟩ | ⟨_, e⟩⟩ := chunkVerify_cases s
  · cases e.symm.trans h; rfl
  · cases e.symm.trans h; rfl
  · split at e
    · cases e.symm.trans h; rfl
    · split at e
      · cases e.symm.trans h; rfl
      · cases e.symm.trans h; rfl

/-- R94: UTF8_CHECK. -/
theorem utf8Check_frame (h : exec .utf8Check s = .next t) : t = completionFrom t s := by
  cases (utf8Check_eq s).symm.trans h; rfl

/-- R94, R244: KDF_DERIVE. -/
theorem kdfDerive_frame (h : exec .kdfDerive s = .next t) :
    t = { completionFrom t s with out := t.out, outLen := t.outLen } ∨ (t.fatal = true ∧ t = fatalFrom t s) := by
  obtain ⟨_, e⟩ | ⟨_, _, e⟩ | ⟨_, _, e⟩ := kdfDerive_cases s
  · cases e.symm.trans h; exact .inl rfl
  · cases e.symm.trans h; exact .inr (fatalEnd_clearOut_frame s)
  · cases e.symm.trans h; exact .inl rfl

/-- R94, R244: AEAD_ENCRYPT, with the counter of free values (log entry 8). -/
theorem aeadEncrypt_frame (h : exec .aeadEncrypt s = .next t) :
    t = { completionFrom t s with out := t.out, outLen := t.outLen, nonceOut := t.nonceOut, draws := t.draws } ∨
      (t.fatal = true ∧ t = fatalFrom t s) := by
  obtain ⟨_, e⟩ | ⟨_, _, e⟩ | ⟨_, k, _, o, d, _, ⟨_, e⟩ | ⟨n, _, e⟩⟩ := aeadEncrypt_cases s
  · cases e.symm.trans h; exact .inl rfl
  · cases e.symm.trans h; exact .inr (fatalEnd_clearOut_frame s)
  · cases e.symm.trans h; exact .inl rfl
  · cases e.symm.trans h; exact .inl rfl

/-- R94, R244: AEAD_DECRYPT. -/
theorem aeadDecrypt_frame (h : exec .aeadDecrypt s = .next t) :
    t = { completionFrom t s with out := t.out, outLen := t.outLen } ∨ (t.fatal = true ∧ t = fatalFrom t s) := by
  obtain ⟨_, e⟩ | ⟨_, _, e⟩ | ⟨_, k, _, o, _, ⟨_, e⟩ | ⟨p, _, ⟨_, e⟩ | ⟨_, e⟩⟩⟩ := aeadDecrypt_cases s
  · cases e.symm.trans h; exact .inl rfl
  · cases e.symm.trans h; exact .inr (fatalEnd_clearOut_frame s)
  · cases e.symm.trans h; exact .inl rfl
  · cases e.symm.trans h; exact .inl rfl
  · cases e.symm.trans h; exact .inl rfl

/-- R94, R229: ZEROIZE. -/
theorem zeroize_frame (h : exec .zeroize s = .next t) : t = { fatalFrom t s with fatal := s.fatal } := by
  cases h; rfl

end Sys2Proof.Machine

open Sys2Proof Sys2Proof.Machine Sys2Proof.Safety

/-- Settles O20: the frame of each command. -/
theorem commandsWriteOnlyTheirRow : Obligations.CommandsWriteOnlyTheirRow := fun _ _ =>
  ⟨crcInit_frame, crcUpdate_frame, typeFromName_frame, typeCheck_frame, chunkBuild_frame, chunkVerify_frame,
    utf8Check_frame, kdfDerive_frame, aeadEncrypt_frame, aeadDecrypt_frame, zeroize_frame⟩
end

section
/-! PROOFS. The HOST's program (30_encoding R102, R103): its check is kept by every step, and RUN. -/

namespace Sys2Proof.Machine

open Sys2Proof.Safety

/-! ## The program check -/

/-- R102: the check looks at the rest of the program and at which variables hold a value. -/
theorem hostReady_of_same {s t : State} (hs : HostReady s) (hp : t.program = s.program) (hv : t.vars = s.vars) :
    HostReady t := by
  rwa [HostReady, hp, hv]

/-- R71, R102: after an access the check is that of the program left. -/
theorem hostReady_hostAccess (a : Access) (s : State) (p : List Stmt) :
    HostReady (hostAccess a { s with program := p }) ↔ programWellFormed (s.vars.map Prod.fst) p = true := by
  obtain ⟨hp, hv, _⟩ := hostAccess_host a { s with program := p }
  rw [HostReady, hp, hv]

/-- R102: an RD adds its variable to those that hold a value. -/
theorem hostReady_keepRead {x : Nat} {s : State} (h : programWellFormed (x :: s.vars.map Prod.fst) s.program = true) :
    HostReady (keepRead x s) := by
  obtain ⟨hp, _, w, hv⟩ := keepRead_host x s
  rw [HostReady, hp, hv]
  refine programWellFormed_mono _ _ _ (fun y hy => (mem_setVar s.vars x w y).mpr ?_) h
  exact List.mem_cons.mp hy

/-- R102: the HOST's turn at a well-formed program is not refused, and leaves a well-formed one. -/
theorem hostTurn_ready {s : State} (hs : HostReady s) : ∃ t, hostTurn s = .next t ∧ HostReady t := by
  have hcheck : programWellFormed (s.vars.map Prod.fst) s.program = true := hs
  cases hprog : s.program with
  | nil => exact ⟨s, by rw [hostTurn, hprog], hs⟩
  | cons st p =>
    rw [hprog] at hcheck
    rw [hostTurn, hprog]
    cases st with
    | wr l v =>
      obtain ⟨htarget, hp⟩ := Bool.and_eq_true_iff.mp hcheck
      obtain ⟨_, hv⟩ := Bool.and_eq_true_iff.mp htarget
      cases v with
      | imm w => exact ⟨_, rfl, (hostReady_hostAccess _ s p).mpr hp⟩
      | var x =>
        obtain ⟨w, hw⟩ := varValue_of_mem s.vars x (List.contains_iff_mem.mp hv)
        simp only [hw]
        exact ⟨_, rfl, (hostReady_hostAccess _ s p).mpr hp⟩
    | rd l x =>
      obtain ⟨_, hp⟩ := Bool.and_eq_true_iff.mp hcheck
      obtain ⟨hprog', hvars', _⟩ := hostAccess_host (accessAt .read l) { s with program := p }
      exact ⟨_, rfl, hostReady_keepRead (by rwa [hprog', hvars'])⟩
    | poll l m v =>
      obtain ⟨_, hp⟩ := Bool.and_eq_true_iff.mp hcheck
      obtain ⟨hprog', hvars', _⟩ := hostAccess_host (accessAt .read l) s
      refine ⟨_, rfl, ?_⟩
      split
      · rwa [HostReady, hvars']
      · exact hostReady_of_same hs hprog' hvars'
    | expect l v =>
      obtain ⟨_, hp⟩ := Bool.and_eq_true_iff.mp hcheck
      have hafter := (hostReady_hostAccess (accessAt .read l) s p).mpr hp
      refine ⟨_, rfl, ?_⟩
      split
      · exact hafter
      · exact hostReady_of_same hafter rfl rfl
    | access a => exact ⟨_, rfl, (hostReady_hostAccess a s p).mpr hcheck⟩

/-- R50, R102: an ENGINE step leaves the HOST's program and variables. -/
theorem engineStep_ready {s : State} (hs : HostReady s) : ∃ t, engineStep s = .next t ∧ HostReady t := by
  obtain ⟨c, u, h, _⟩ := engineStep_cases s
  obtain ⟨_, _, _, hp, hv, _⟩ := engineStep_completes h
  exact ⟨_, h, hostReady_of_same hs hp hv⟩

/-- R8, R280: a turn that is given keeps the check, whoever's it is. -/
theorem takeTurn_ready (m : Turn) {s : State} (hs : HostReady s) : ∃ t, takeTurn m s = .next t ∧ HostReady t := by
  cases m with
  | host => exact hostTurn_ready hs
  | engine =>
    rw [takeTurn, engineTurn]
    split
    · exact engineStep_ready hs
    · exact ⟨s, rfl, hs⟩
  | assertReset => exact ⟨_, rfl, hs⟩
  | releaseReset => exact ⟨_, rfl, hs⟩

/-! ## RUN -/

/-- R66: the HOST's access for a read that is served. -/
theorem hostAccess_read {l : Loc} {w : Word} {s u : State} (h : memRead (BitVec.ofNat 18 l.offset) s = .ok (w, u)) :
    hostAccess (accessAt .read l) s = { u with response := some (.data w) } := by
  simp [hostAccess, busAccess, accessAt, h]

/-- R25, R103: masked with 1, as WAIT reads it, STATUS of an idle block is 0. -/
theorem statusWord_and_one_of_idle {s : State} (hb : s.busy = false) : s.statusWord &&& 1#32 = 0#32 := by
  obtain ⟨hbit, _⟩ := s.statusWord_bits
  rw [BitVec.and_one_eq_setWidth_ofBool_getLsbD, hbit, hb]
  rfl

/-- R103: the HOST's turn at a WAIT while idle, outside reset, ends it. -/
theorem hostTurn_wait_idle {s : State} {p : List Stmt} (hb : s.busy = false) (hr : s.resetAsserted = false)
    (hp : s.program = stmtWait ++ p) :
    hostTurn s = .next { s with program := p, response := some (.data s.statusWord) } := by
  have hread := hostAccess_read (l := .reg .status) (memRead_reg hb hr .status)
  simp [hostTurn, hp, stmtWait, hread, State.readData, readReg, statusWord_and_one_of_idle hb]

/-- R50, R103: after a step that accepts a command with its WAIT next in the program, the ENGINE performs the command
and the HOST's next read of STATUS ends the WAIT. -/
theorem run_of_accepted {s a : State} {i : Instr} {p : List Stmt} (hissue : step s = .next a) (hcmd : a.cmd = encode i)
    (hb : a.busy = true) (hf : a.fatal = false) (hr : a.resetAsserted = false) (hturns : a.turns = [])
    (hp : a.program = stmtWait ++ p) :
    ∃ t, exec i a = .next t ∧
      Host.Core.run Sys2Proof.core 3 s = .next { t with program := p, response := some (.data t.statusWord) } := by
  obtain ⟨c, u, hexec, he⟩ := exec_effect i a
  have hengine : engineStep a = .next (finish c u) :=
    (engineStep_of_decode hf (hcmd ▸ decode_encode i)).trans hexec
  have hperform : step a = .next (finish c u) := by rw [step_default a hturns, if_pos hb, hengine]
  obtain ⟨hidle, _, _, hprog, _, hts⟩ := engineStep_completes hengine
  have hsee := step_default (finish c u) (hts.trans hturns)
  rw [if_neg (Bool.eq_false_iff.mp hidle),
    hostTurn_wait_idle hidle (he.resetAsserted_eq.trans hr) (hprog.trans hp)] at hsee
  exact ⟨_, hexec, (run_step hissue 2).trans ((run_step hperform 1).trans (run_step hsee 0))⟩

end Sys2Proof.Machine

open Sys2Proof Sys2Proof.Machine Sys2Proof.Safety

/-- Settles O54: by who moves next: the turn that is given, or by default the ENGINE or the HOST. -/
theorem programsStayWellFormed : Obligations.ProgramsStayWellFormed := by
  intro s hs
  cases hturns : s.turns with
  | nil =>
    rw [step_default s hturns]
    split
    · exact engineStep_ready hs
    · exact hostTurn_ready hs
  | cons m ts =>
    rw [step, nextMove, hturns]
    exact takeTurn_ready m hs

/-- Settles O55: the acceptance of the command, the ENGINE's step, and the read of STATUS that ends the WAIT. -/
theorem runIssuesPerformsAndWaits : Obligations.RunIssuesPerformsAndWaits := by
  intro s i p hb hf hr hturns hp
  have hissue := step_default s hturns
  rw [if_neg (Bool.eq_false_iff.mp hb), hostTurn_wr_idle (l := .reg .cmd) rfl hb hr hp] at hissue
  obtain ⟨t, hexec, hrun⟩ := run_of_accepted hissue (i := i) rfl rfl hf hr hturns rfl
  exact ⟨t, _, hexec, hrun, rfl⟩
end

section
/-! PROOFS. The chunk type commands (40_chunk_type R120-R123): the property bits of a type, the outcomes of TYPE_FROM_NAME
and TYPE_CHECK, and the way of a letter type through the bus. -/

namespace Sys2Proof.Machine

open Sys2Proof.Safety

/-! ## Four bytes as a type -/

/-- R120: ALPHA of four bytes, letter by letter. -/
theorem allAlpha_four_iff (t0 t1 t2 t3 : Byte) :
    allAlpha [t0, t1, t2, t3] = true ↔ Letter t0 ∧ Letter t1 ∧ Letter t2 ∧ Letter t3 := by
  simp only [allAlpha_four, Bool.and_eq_true, isAlpha_iff, and_assoc]

/-- R120, R121: ALPHA of a type is what the claims call a letter type. -/
theorem allAlpha_iff_letterType {t : Bytes} (h : t.length = 4) : allAlpha t = true ↔ LetterType t := by
  obtain ⟨t0, t1, t2, t3, rfl⟩ := List.length_eq_four.mp h
  simp [allAlpha_four_iff, LetterType]

/-- R15: `BE32` undoes `BE32^-1` on a 4-byte sequence. -/
theorem be32_ofBe32 {t : Bytes} (h : t.length = 4) : be32 (ofBe32 t) = t := by
  obtain ⟨t0, t1, t2, t3, rfl⟩ := List.length_eq_four.mp h
  exact be32_packWord t0 t1 t2 t3

/-- R62: a word written at the start of a buffer is its first four bytes, the most significant first. -/
theorem Memory.bytes_writeWord_zero {m : Memory} (hm : m.wf = true) (w : Word) :
    (m.writeWord 0 w).bytes 4 = be32 w := by
  have hread := Memory.read_writeWord hm 0 w
  simp [Memory.bytes, List.range_succ, hread, be32]

/-- R120: the bit that makes a letter lower case, as the mask 0x20 finds it. -/
theorem getLsbD_five_iff (c : Byte) : c.getLsbD 5 = true ↔ c &&& 0x20 ≠ 0 := by
  have hmask : c &&& 0x20 = if c.getLsbD 5 then 0x20 else 0 := BitVec.and_twoPow c 5
  rw [hmask]
  cases c.getLsbD 5 <;> decide

/-- R120: bit 5 of a byte is clear. -/
theorem not_getLsbD_five_iff (c : Byte) : (!c.getLsbD 5) = true ↔ c &&& 0x20 = 0 := by
  rw [Bool.not_eq_true', ← Bool.not_eq_true, getLsbD_five_iff, not_not]

/-! ## The commands -/

/-- R121: TYPE_FROM_NAME, its checks in order. -/
theorem typeFromName_eq (s : State) :
    exec .typeFromName s = .next
      (if Config.bufBytes < s.dataLen.toNat then completion 0x06 s
      else if s.dataLen.toNat ≠ 4 then completion 0x07 s
      else if LetterType (s.dataIn.bytes 4) then
        completion 0x00 { s with typeCode := ofBe32 (s.dataIn.bytes 4), typeProps := props (s.dataIn.bytes 4) }
      else completion 0x01 s) := by
  have hlong : s.dataTooLong = true ↔ Config.bufBytes < s.dataLen.toNat := decide_eq_true_iff
  have hfour : s.dataLen = 4 ↔ s.dataLen.toNat = 4 := BitVec.toNat_inj.symm
  have halpha := allAlpha_iff_letterType (s.dataIn.bytes_length 4)
  simp only [← hlong, ← hfour, ← halpha, ne_eq]
  obtain ⟨h1, h⟩ | ⟨h1, h2, h⟩ | ⟨h1, h2, h3, h⟩ | ⟨h1, h2, h3, h⟩ := typeFromName_cases s
  · rw [h, if_pos h1, finish_eq_completion]; rfl
  · rw [h, h1, if_neg Bool.false_ne_true, if_pos h2, finish_eq_completion]; rfl
  · rw [h, h1, if_neg Bool.false_ne_true, if_neg (not_not_intro h2), h3, finish_eq_completion]; rfl
  · rw [h, h1, if_neg Bool.false_ne_true, if_neg (not_not_intro h2), if_pos h3, finish_eq_completion]; rfl

/-- R121, R123: the ENGINE's turn when TYPE_FROM_NAME was accepted with the four letters of a word as its input. -/
theorem engineTurn_typeFromName_of_letters {s : State} {w : Word} (hb : s.busy = true) (hf : s.fatal = false)
    (hcmd : s.cmd = encode .typeFromName) (hlen : s.dataLen = 4) (hin : s.dataIn.bytes 4 = be32 w)
    (hw : LetterType (be32 w)) :
    engineTurn s = .next (completion 0x00 { s with typeCode := w, typeProps := props (be32 w) }) := by
  have hcap := Config.bufBytes_range
  have hfour : s.dataLen.toNat = 4 := congrArg BitVec.toNat hlen
  rw [engineTurn, if_pos hb, engineStep_of_decode hf (hcmd ▸ decode_encode .typeFromName), typeFromName_eq,
    if_neg (by omega), if_neg (not_not_intro hfour), hin, if_pos hw, ofBe32_be32]

end Sys2Proof.Machine

open Sys2Proof Sys2Proof.Machine Sys2Proof.Safety

/-- Settles O11: one clause per branch of TYPE_FROM_NAME; four bytes fit every DATA_IN. -/
theorem typeFromNameResult : Obligations.TypeFromNameResult := by
  refine ⟨decode_encode .typeFromName, fun s => ⟨_, typeFromName_eq s, fun hlong => if_pos hlong, ?_⟩⟩
  have hcap := Config.bufBytes_range
  have hfits : s.dataLen.toNat = 4 → ¬ Config.bufBytes < s.dataLen.toNat := by omega
  refine ⟨fun hle hlen => ?_, fun hlen htype => ?_, fun hlen htype => ?_⟩
  · rw [if_neg (Nat.not_lt.mpr hle), if_pos hlen]
  · rw [if_neg (hfits hlen), if_neg (not_not_intro hlen), if_neg htype]
  · rw [if_neg (hfits hlen), if_neg (not_not_intro hlen), if_pos htype]
    exact ⟨rfl, be32_ofBe32 (s.dataIn.bytes_length 4)⟩

/-- Settles O25: ALPHA letter by letter, the other bits by the mask 0x20. -/
theorem typePropertyBits : Obligations.TypePropertyBits := by
  intro t0 t1 t2 t3
  obtain ⟨halpha, hcritical, hpublic, hrsv, hsafe, hvalid, hreserved⟩ := props_bits [t0, t1, t2, t3]
  dsimp only
  rw [halpha, hcritical, hpublic, hrsv, hsafe, hvalid, Bool.and_eq_true, allAlpha_four_iff]
  exact ⟨Iff.rfl, not_getLsbD_five_iff t0, not_getLsbD_five_iff t1, not_getLsbD_five_iff t2, getLsbD_five_iff t3,
    and_congr_left' (not_getLsbD_five_iff t2), hreserved⟩

/-- Settles O26: the three writes load the word's bytes and its length and issue TYPE_FROM_NAME, whose OK clause
applies. -/
theorem typeNameRoundTrip : Obligations.TypeNameRoundTrip := by
  intro s w hb hr hf hwf hw
  have hcap := Config.bufBytes_range
  have hloc : locate 0x10000 = some (.dataIn 0) := locate_dataIn rfl (by omega)
  have hin : (s.dataIn.writeWord 0 w).bytes 4 = be32 w := Memory.bytes_writeWord_zero hwf w
  refine ⟨_, _, _, _, memWrite_ofNat hb hr rfl hloc w, memWrite_reg ?idle ?noReset .dataLen 4,
    memWrite_reg ?idle' ?noReset' .cmd (encode .typeFromName),
    engineTurn_typeFromName_of_letters rfl ?noFatal rfl rfl ?input hw, rfl, memRead_reg rfl ?noReset'' .typeCode⟩
  case input => exact hin
  case noFatal => exact hf
  case idle | idle' => exact hb
  case noReset | noReset' | noReset'' => exact hr

/-- Settles O12: TYPE_CHECK finishes by ALPHA of the bytes of TYPE. -/
theorem typeCheckResult : Obligations.TypeCheckResult := by
  refine ⟨decode_encode .typeCheck, fun s => ⟨_, typeCheck_eq s, ?_⟩⟩
  rw [← allAlpha_iff_letterType (be32_length s.typeCode), finish_eq_completion]
  exact ⟨fun h => by rw [if_pos h]; rfl, fun h => by rw [if_neg h]; rfl⟩
end

section
/-! PROOFS. The CRC commands and UTF8_CHECK (41_crc_frame R143-R145, R160, R161): their outcomes as completions, and the
well-formed UTF-8 sequences as the forms of the table. -/

namespace Sys2Proof.Machine

open Sys2Proof.Safety

/-- R27, R248: the length check of the commands that read DATA_IN. -/
theorem dataTooLong_iff (s : State) : s.dataTooLong = true ↔ Config.bufBytes < s.dataLen.toNat := decide_eq_true_iff

/-- R27, R248: an input that fits DATA_IN. -/
theorem dataTooLong_eq_false_iff (s : State) : s.dataTooLong = false ↔ s.dataLen.toNat ≤ Config.bufBytes :=
  decide_eq_false_iff_not.trans Nat.not_lt

/-- R145: CRC_UPDATE with an input that does not fit. -/
theorem crcUpdate_of_long {s : State} (h : Config.bufBytes < s.dataLen.toNat) :
    exec .crcUpdate s = .next (completion 0x06 s) := by
  obtain ⟨_, e⟩ | ⟨hfits, _⟩ := crcUpdate_cases s
  · rw [e, finish_eq_completion]; rfl
  · exact absurd (dataLen_le hfits) (Nat.not_le.mpr h)

/-- R145: CRC_UPDATE with an input that fits. -/
theorem crcUpdate_of_fits {s : State} (h : s.dataLen.toNat ≤ Config.bufBytes) :
    exec .crcUpdate s =
      .next (completion 0x00 { s with crcAcc := crcFold s.crcAcc (s.dataIn.bytes s.dataLen.toNat) }) := by
  obtain ⟨hlong, _⟩ | ⟨_, e⟩ := crcUpdate_cases s
  · exact absurd h (Nat.not_le.mpr ((dataTooLong_iff s).mp hlong))
  · rw [e, finish_eq_completion]; rfl

/-- R145: CRC_ACC after a CRC_UPDATE whose input is the bytes `b`. -/
theorem crcUpdate_crcAcc {s t : State} {b : Bytes} (hlen : s.dataLen.toNat = b.length)
    (hin : s.dataIn.bytes b.length = b) (hb : b.length ≤ Config.bufBytes) (h : exec .crcUpdate s = .next t) :
    t.crcAcc = crcFold s.crcAcc b := by
  cases (crcUpdate_of_fits (by rwa [hlen])).symm.trans h
  rw [hlen, hin]
  rfl

/-! ## UTF-8 sequences -/

/-- R160: whether the first bytes have a form does not depend on those after them. -/
theorem hasForm_append {f : List (Byte × Byte)} {q : Bytes} (h : f.length = q.length) (r : Bytes) :
    hasForm f (q ++ r) = hasForm f q := by
  induction f generalizing q with
  | nil => rfl
  | cons p f ih =>
    cases q with
    | nil => cases h
    | cons x q =>
      have htail := ih (Nat.succ.inj h)
      simp only [List.cons_append, hasForm, htail]

/-- R160: the rows of the table, as the claims write them, are the forms of the model, each with its length. -/
theorem utf8Sequence_iff (q : Bytes) :
    Utf8Sequence (q.map BitVec.toNat) ↔ ∃ f ∈ utf8Forms, f.length = q.length ∧ hasForm f q = true := by
  match q with
  | [] => simp [Utf8Sequence, utf8Forms]
  | [a] => simp [Utf8Sequence, utf8Forms, hasForm, BitVec.le_def]
  | [a, b] => simp [Utf8Sequence, utf8Forms, hasForm, BitVec.le_def]; omega
  | [a, b, c] => simp [Utf8Sequence, utf8Forms, hasForm, BitVec.le_def]; omega
  | [a, b, c, d] => simp [Utf8Sequence, utf8Forms, hasForm, BitVec.le_def]; omega
  | a :: b :: c :: d :: e :: q => simp [Utf8Sequence, utf8Forms]

/-- R160: a well-formed sequence at the front is taken off whole. -/
theorem utf8ValidUpTo_append {q : Bytes} (hq : Utf8Sequence (q.map BitVec.toNat)) (n : Nat) (r : Bytes) :
    utf8ValidUpTo (n + 1) (q ++ r) = utf8ValidUpTo n r := by
  obtain ⟨f, hf, hlen, hform⟩ := (utf8Sequence_iff q).mp hq
  have hfind := find?_hasForm hf ((hasForm_append hlen r).trans hform)
  cases q with
  | nil => exact absurd (List.length_eq_zero_iff.mp hlen) (utf8Forms_ne_nil f hf)
  | cons x q =>
    rw [List.cons_append] at hfind ⊢
    simp only [utf8ValidUpTo, hfind]
    rw [← List.cons_append, hlen, List.drop_left]

/-- R160: what the check accepts splits into well-formed sequences. -/
theorem exists_sequences_of_utf8ValidUpTo {n : Nat} {b : Bytes} (h : utf8ValidUpTo n b = true) :
    ∃ qs : List Bytes, b = qs.flatten ∧ ∀ q ∈ qs, Utf8Sequence (q.map BitVec.toNat) := by
  induction n generalizing b with
  | zero =>
    cases b with
    | nil => exact ⟨[], rfl, by simp⟩
    | cons x b => cases h
  | succ n ih =>
    cases b with
    | nil => exact ⟨[], rfl, by simp⟩
    | cons x b =>
      rw [utf8ValidUpTo] at h
      split at h
      next f hfind =>
        have hform := List.find?_some (p := fun f => hasForm f (x :: b)) hfind
        have hlen : f.length = ((x :: b).take f.length).length := by
          rw [List.length_take, Nat.min_eq_left (hasForm_length f _ hform)]
        have hfirst : hasForm f ((x :: b).take f.length) = true := by
          rw [← hasForm_append hlen ((x :: b).drop f.length), List.take_append_drop, hform]
        obtain ⟨qs, hrest, hqs⟩ := ih h
        refine ⟨(x :: b).take f.length :: qs, ?_, List.forall_mem_cons.mpr ⟨?_, hqs⟩⟩
        · rw [List.flatten_cons, ← hrest, List.take_append_drop]
        · exact (utf8Sequence_iff _).mpr ⟨f, List.mem_of_find?_eq_some hfind, hlen, hfirst⟩
      next => cases h

/-- R160: a concatenation of well-formed sequences is accepted by the check with a bound that covers its bytes. -/
theorem utf8ValidUpTo_flatten {qs : List Bytes} (hqs : ∀ q ∈ qs, Utf8Sequence (q.map BitVec.toNat)) {n : Nat}
    (hn : qs.flatten.length ≤ n) : utf8ValidUpTo n qs.flatten = true := by
  induction qs generalizing n with
  | nil => cases n <;> rfl
  | cons q qs ih =>
    obtain ⟨hq, hqs⟩ := List.forall_mem_cons.mp hqs
    obtain ⟨f, hf, hlen, _⟩ := (utf8Sequence_iff q).mp hq
    have hpos : 0 < f.length := List.length_pos_of_ne_nil (utf8Forms_ne_nil f hf)
    rw [List.flatten_cons, List.length_append] at hn
    obtain ⟨m, rfl⟩ : ∃ m, n = m + 1 := ⟨n - 1, by omega⟩
    rw [List.flatten_cons, utf8ValidUpTo_append hq]
    exact ih hqs (by omega)

end Sys2Proof.Machine

open Sys2Proof Sys2Proof.Machine Sys2Proof.Safety

/-- Settles O30: the check takes one well-formed sequence off at a time, and its bound covers every byte. -/
theorem utf8ValidIsConcatenation : Obligations.Utf8ValidIsConcatenation := by
  refine fun b => ⟨exists_sequences_of_utf8ValidUpTo, ?_⟩
  rintro ⟨qs, rfl, hqs⟩
  exact utf8ValidUpTo_flatten hqs le_rfl

/-- Settles O27: the fold runs on over the second part from where the first left CRC_ACC. -/
theorem crcStreamsAcrossCommands : Obligations.CrcStreamsAcrossCommands := by
  refine ⟨crcFold_append, ?_⟩
  intro s s1 s2 t1 t2 t a b hcap hlen hin hlen1 hin1 hacc1 hlen2 hin2 h h1 hacc2 h2
  rw [← List.length_append] at hcap hlen hin
  have hab := List.length_append (as := a) (bs := b)
  rw [crcUpdate_crcAcc hlen2 hin2 (by omega) h2, hacc2, crcUpdate_crcAcc hlen1 hin1 (by omega) h1, hacc1,
    crcUpdate_crcAcc hlen hin hcap h, crcFold_append]

/-- Settles O9: CRC_INIT has one outcome, and the complement of its CRC_ACC is 0. -/
theorem crcInitResult : Obligations.CrcInitResult := by
  refine ⟨decode_encode .crcInit, fun s => ⟨_, crcInit_eq s, finish_eq_completion .ok _, ?_⟩⟩
  have hnot : ~~~(0xFFFFFFFF : Word) = 0 := by decide
  exact hnot

/-- Settles O10: by whether the input fits; the input of no bytes fits, and folding over it changes nothing. -/
theorem crcUpdateResult : Obligations.CrcUpdateResult := by
  refine ⟨decode_encode .crcUpdate, fun s => ?_⟩
  by_cases hfits : s.dataLen.toNat ≤ Config.bufBytes
  · refine ⟨_, crcUpdate_of_fits hfits, fun hlong => absurd hfits (Nat.not_le.mpr hlong), fun _ => rfl, fun h0 => ?_⟩
    rw [h0]
    rfl
  · exact ⟨_, crcUpdate_of_long (Nat.not_le.mp hfits), fun _ => rfl, fun hle => absurd hle hfits, fun _ => rfl⟩

/-- Settles O15: by whether the input fits and by the check of its bytes. -/
theorem utf8CheckResult : Obligations.Utf8CheckResult := by
  refine ⟨decode_encode .utf8Check, fun s => ⟨_, utf8Check_eq s, fun hlong => ?_, fun hfits => ?_⟩⟩
  · rw [if_pos ((dataTooLong_iff s).mpr hlong), finish_eq_completion]; rfl
  · rw [(dataTooLong_eq_false_iff s).mpr hfits, if_neg Bool.false_ne_true, finish_eq_completion, apply_ite
      ResultCode.code]
    rfl
end

section
/-! PROOFS. Chunk frames (41_crc_frame R146-R150): the fields of the frame in a buffer, the outcomes of CHUNK_BUILD and
CHUNK_VERIFY over them, the round trip, and the flips that CHUNK_VERIFY finds. -/

namespace Sys2Proof.Machine

open Sys2Proof.Safety

/-! ## The fields of a frame -/

/-- R148: the four bytes of the input from byte `i` on. -/
theorem Memory.slice_four (m : Memory) {n i : Nat} (h : i + 4 ≤ n) :
    slice (m.bytes n) i (i + 4) = [m.read i, m.read (i + 1), m.read (i + 2), m.read (i + 3)] := by
  rw [Memory.slice_bytes m n i (i + 4) h, Nat.add_sub_cancel_left]
  rfl

/-- R148: the length field of an input that has it. -/
theorem ofBe32_slice_length (m : Memory) {n : Nat} (h : 4 ≤ n) : ofBe32 (slice (m.bytes n) 0 4) = frameLength m := by
  rw [m.slice_four (i := 0) h]
  rfl

/-- R148: the type of an input that has it. -/
theorem slice_type (m : Memory) {n : Nat} (h : 8 ≤ n) : slice (m.bytes n) 4 8 = frameType m :=
  m.slice_four (i := 4) h

/-- R148: the data is as long as the length field says. -/
theorem frameData_length (m : Memory) : (frameData m).length = (frameLength m).toNat := by simp [frameData]

/-- R148: the data of an input that has it. -/
theorem slice_data (m : Memory) {n : Nat} (h : 8 + (frameLength m).toNat ≤ n) :
    slice (m.bytes n) 8 (8 + (frameLength m).toNat) = frameData m := by
  rw [Memory.slice_bytes m n 8 _ h, Nat.add_sub_cancel_left]
  rfl

/-- R148: the stored CRC of an input that has it. -/
theorem ofBe32_slice_crc (m : Memory) {n : Nat} (h : 12 + (frameLength m).toNat ≤ n) :
    ofBe32 (slice (m.bytes n) (8 + (frameLength m).toNat) (12 + (frameLength m).toNat)) = frameCrc m := by
  have hend : 12 + (frameLength m).toNat = 8 + (frameLength m).toNat + 4 := by omega
  rw [hend, m.slice_four (by omega), frameCrc]
  simp only [Nat.add_right_comm 8, Nat.reduceAdd]
  rfl

/-- R14: the middle one of three sequences, as a slice of them all. -/
theorem slice_append_middle (a b c : Bytes) : slice (a ++ b ++ c) a.length (a.length + b.length) = b := by
  rw [slice, Nat.add_sub_cancel_left, List.append_assoc, List.drop_left, List.take_left]

/-- R16: the buffer written with `b` begins with `b`. -/
theorem Memory.bytes_ofBytes (b : Bytes) : (Memory.ofBytes b).bytes b.length = b := by
  apply List.ext_getElem (Memory.bytes_length _ _)
  intro i hi hb
  simp [Memory.bytes, hb]

/-- R146: the frame of an input has DATA_LEN as its length field. -/
theorem frame_input (t : Bytes) (s : State) :
    frame t s.input = be32 s.dataLen ++ t ++ s.input ++ be32 (crc32 (t ++ s.input)) := by
  rw [frame, State.input, Memory.bytes_length, BitVec.ofNat_toNat, BitVec.setWidth_eq]

/-- R146: the fields of a buffer that begins with a frame are what the frame was made of. -/
theorem fields_of_frame {m : Memory} {len ty c : Word} {d : Bytes} (hlen : len.toNat = d.length)
    (hm : m.bytes (12 + d.length) = be32 len ++ be32 ty ++ d ++ be32 c) :
    frameLength m = len ∧ frameType m = be32 ty ∧ frameData m = d ∧ frameCrc m = c := by
  have hlength : frameLength m = len := by
    rw [← ofBe32_slice_length m (n := 12 + d.length) (by omega), hm, List.append_assoc, List.append_assoc]
    exact (congrArg ofBe32 (slice_append_middle [] (be32 len) _)).trans (ofBe32_be32 len)
  have htype : frameType m = be32 ty := by
    rw [← slice_type m (n := 12 + d.length) (by omega), hm, List.append_assoc]
    exact slice_append_middle (be32 len) (be32 ty) _
  have hdata : frameData m = d := by
    rw [← slice_data m (n := 12 + d.length) (by rw [hlength]; omega), hm, hlength, hlen]
    exact slice_append_middle (be32 len ++ be32 ty) d _
  refine ⟨hlength, htype, hdata, ?_⟩
  have hcrc := slice_append_middle (be32 len ++ be32 ty ++ d) (be32 c) []
  have hstart : (be32 len ++ be32 ty ++ d).length = 8 + d.length := by simp; omega
  have hend : 8 + d.length + (be32 c).length = 12 + d.length := by rw [be32_length]; omega
  rw [List.append_nil, hstart, hend] at hcrc
  rw [← ofBe32_slice_crc m (n := 12 + d.length) (by rw [hlength]; omega), hm, hlength, hlen, hcrc, ofBe32_be32]

/-! ## The commands -/

/-- R16: what `OUT <- b` leaves, as the claims say it. -/
theorem outHolds_writeOut {b : Bytes} (h : b.length < 2 ^ 32) (s : State) : OutHolds b (writeOut b s) :=
  ⟨by rw [writeOut_outLen, BitVec.toNat_ofNat, Nat.mod_eq_of_lt h], fun j => Memory.read_ofBytes b j⟩

/-- R146, R10: the length of the frame of an input that fits DATA_IN fits OUT_LEN. -/
theorem frame_length_lt {s : State} (h : s.dataLen.toNat ≤ Config.bufBytes) :
    (frame (be32 s.typeCode) s.input).length < 2 ^ 32 := by
  have hcap := Config.bufBytes_range
  rw [frame_length, be32_length, State.input, Memory.bytes_length]
  omega

/-- R147: CHUNK_BUILD with an input that does not fit. -/
theorem chunkBuild_of_long {s : State} (h : Config.bufBytes < s.dataLen.toNat) :
    exec .chunkBuild s = .next (completion 0x06 s) := by
  obtain ⟨_, e⟩ | ⟨hfits, _⟩ | ⟨hfits, _⟩ := chunkBuild_cases s
  · rw [e, finish_eq_completion]; rfl
  · exact absurd (dataLen_le hfits) (Nat.not_le.mpr h)
  · exact absurd (dataLen_le hfits) (Nat.not_le.mpr h)

/-- R147: CHUNK_BUILD with an input that fits, and a type with a byte that is no letter. -/
theorem chunkBuild_of_badType {s : State} (hfits : s.dataLen.toNat ≤ Config.bufBytes)
    (htype : ¬ LetterType (be32 s.typeCode)) :
    exec .chunkBuild s = .next (completion 0x01 (clearOut s)) := by
  rw [← allAlpha_iff_letterType (be32_length s.typeCode)] at htype
  obtain ⟨hlong, _⟩ | ⟨_, _, e⟩ | ⟨_, halpha, _⟩ := chunkBuild_cases s
  · exact absurd hfits (Nat.not_le.mpr ((dataTooLong_iff s).mp hlong))
  · rw [e, finish_eq_completion]; rfl
  · exact absurd halpha htype

/-- R147: CHUNK_BUILD with an input that fits, and a letter type. -/
theorem chunkBuild_of_letterType {s : State} (hfits : s.dataLen.toNat ≤ Config.bufBytes)
    (htype : LetterType (be32 s.typeCode)) :
    exec .chunkBuild s = .next (completion 0x00
      { writeOut (frame (be32 s.typeCode) s.input) s with
        chunkLen := s.dataLen
        chunkType := s.typeCode
        chunkCrcStored := crc32 (be32 s.typeCode ++ s.input)
        chunkCrcCalc := crc32 (be32 s.typeCode ++ s.input) }) := by
  rw [← allAlpha_iff_letterType (be32_length s.typeCode)] at htype
  obtain ⟨hlong, _⟩ | ⟨_, halpha, _⟩ | ⟨_, _, e⟩ := chunkBuild_cases s
  · exact absurd hfits (Nat.not_le.mpr ((dataTooLong_iff s).mp hlong))
  · exact absurd htype (Bool.eq_false_iff.mp halpha)
  · rw [e, finish_eq_completion]; rfl

/-- R148: CHUNK_VERIFY with an input that does not fit. -/
theorem chunkVerify_of_long {s : State} (h : Config.bufBytes < s.dataLen.toNat) :
    exec .chunkVerify s = .next (completion 0x06 s) := by
  obtain ⟨_, e⟩ | ⟨hfits, _⟩ := chunkVerify_cases s
  · rw [e, finish_eq_completion]; rfl
  · exact absurd (dataLen_le hfits) (Nat.not_le.mpr h)

/-- R148: an input too short for a frame or for its own length field, by the field as CHUNK_VERIFY reads it. -/
theorem truncated_iff (s : State) :
    (s.dataLen.toNat < 12 ∨ s.dataLen.toNat < 12 + (ofBe32 (slice s.input 0 4)).toNat) ↔
      (s.dataLen.toNat < 12 + (frameLength s.dataIn).toNat ∨ s.dataLen.toNat < 12) := by
  by_cases h : s.dataLen.toNat < 12
  · exact ⟨fun _ => .inr h, fun _ => .inl h⟩
  · rw [State.input, ofBe32_slice_length s.dataIn (by omega), or_comm]

/-- R148: CHUNK_VERIFY with fewer bytes than a frame or than its length field asks for. -/
theorem chunkVerify_of_truncated {s : State} (hfits : s.dataLen.toNat ≤ Config.bufBytes)
    (hshort : s.dataLen.toNat < 12 + (frameLength s.dataIn).toNat ∨ s.dataLen.toNat < 12) :
    exec .chunkVerify s = .next (completion 0x02 (verifyHeader s)) := by
  obtain ⟨hlong, _⟩ | ⟨_, len, rfl, ⟨_, e⟩ | ⟨hwhole, _⟩⟩ := chunkVerify_cases s
  · exact absurd hfits (Nat.not_le.mpr ((dataTooLong_iff s).mp hlong))
  · rw [e, finish_eq_completion]; rfl
  · obtain h | h := (truncated_iff s).mpr hshort <;> omega

/-- R148: what CHUNK_VERIFY leaves in CHUNK_LEN and CHUNK_TYPE of an input too short for a frame. -/
theorem verifyHeader_eq (s : State) :
    verifyHeader s =
      { clearOut s with
        chunkLen := if 4 ≤ s.dataLen.toNat then frameLength s.dataIn else 0
        chunkType := if 8 ≤ s.dataLen.toNat then ofBe32 (frameType s.dataIn) else 0
        chunkCrcStored := 0
        chunkCrcCalc := 0
        consumed := 0 } := by
  have hlen : (if 4 ≤ s.dataLen.toNat then ofBe32 (slice s.input 0 4) else 0) =
      if 4 ≤ s.dataLen.toNat then frameLength s.dataIn else 0 :=
    if_ctx_congr Iff.rfl (ofBe32_slice_length s.dataIn) fun _ => rfl
  have htype : (if 8 ≤ s.dataLen.toNat then ofBe32 (slice s.input 4 8) else 0) =
      if 8 ≤ s.dataLen.toNat then ofBe32 (frameType s.dataIn) else 0 :=
    if_ctx_congr Iff.rfl (fun h => congrArg ofBe32 (slice_type s.dataIn h)) fun _ => rfl
  rw [verifyHeader, hlen, htype]

/-- R148, 90_conflicts C3: how CHUNK_VERIFY judges the whole frame in a buffer: the CRC first, then the type. -/
def frameVerdict (m : Memory) : ResultCode :=
  if frameCrc m ≠ crc32 (frameType m ++ frameData m) then .crcMismatch
  else if LetterType (frameType m) then .ok
  else .badType

/-- R148, R100: the verdict as a result code. -/
theorem frameVerdict_code (m : Memory) :
    (frameVerdict m).code =
      if frameCrc m ≠ crc32 (frameType m ++ frameData m) then 0x03
      else if LetterType (frameType m) then 0x00 else 0x01 := by
  rw [frameVerdict, apply_ite ResultCode.code, apply_ite ResultCode.code]
  rfl

/-- R148: the verdict OK means that the stored CRC is the one of type and data. -/
theorem frameCrc_eq_of_verdict_ok {m : Memory} (h : frameVerdict m = .ok) :
    frameCrc m = crc32 (frameType m ++ frameData m) := by
  by_contra hne
  rw [frameVerdict, if_pos hne] at h
  cases h

/-- R148: the frame registers that CHUNK_VERIFY leaves of a whole frame, with OUT cleared. -/
def verifiedFrame (s : State) : State :=
  { clearOut s with
    chunkLen := frameLength s.dataIn
    chunkType := ofBe32 (frameType s.dataIn)
    chunkCrcStored := frameCrc s.dataIn
    chunkCrcCalc := crc32 (frameType s.dataIn ++ frameData s.dataIn)
    consumed := BitVec.ofNat 32 (12 + (frameLength s.dataIn).toNat)
    typeProps := props (frameType s.dataIn) }

/-- R148: CONSUMED is the size of the frame: a frame inside DATA_IN is short enough for the register. -/
theorem verifiedFrame_consumed {s : State} (hfits : s.dataLen.toNat ≤ Config.bufBytes)
    (hwhole : 12 + (frameLength s.dataIn).toNat ≤ s.dataLen.toNat) :
    (verifiedFrame s).consumed.toNat = 12 + (frameLength s.dataIn).toNat := by
  have hcap := Config.bufBytes_range
  exact (BitVec.toNat_ofNat _ _).trans (Nat.mod_eq_of_lt (by omega))

/-- R148: of a whole frame CHUNK_VERIFY reads the fields. -/
theorem verifyBody_of_whole {s : State} (hwhole : 12 + (frameLength s.dataIn).toNat ≤ s.dataLen.toNat) :
    verifyBody (frameLength s.dataIn).toNat s = verifiedFrame s := by
  rw [verifyBody, verifyHeader_eq, if_pos (by omega), if_pos (by omega), State.input, slice_type s.dataIn (by omega),
    slice_data s.dataIn (by omega), ofBe32_slice_crc s.dataIn hwhole]
  rfl

/-- R148: CHUNK_VERIFY with a whole frame. -/
theorem chunkVerify_of_whole {s : State} (hfits : s.dataLen.toNat ≤ Config.bufBytes)
    (hwhole : 12 + (frameLength s.dataIn).toNat ≤ s.dataLen.toNat) :
    exec .chunkVerify s = .next (finish (frameVerdict s.dataIn)
      (writeOut (if frameVerdict s.dataIn = .ok then frameData s.dataIn else []) (verifiedFrame s))) := by
  have hlen : ofBe32 (slice s.input 0 4) = frameLength s.dataIn := ofBe32_slice_length s.dataIn (by omega)
  have hdata : slice s.input 8 (8 + (frameLength s.dataIn).toNat) = frameData s.dataIn :=
    slice_data s.dataIn (by omega)
  have htype : slice s.input 4 8 = frameType s.dataIn := slice_type s.dataIn (by omega)
  have halpha : allAlpha (frameType s.dataIn) = true ↔ LetterType (frameType s.dataIn) := allAlpha_iff_letterType rfl
  obtain ⟨hlong, _⟩ | ⟨_, _, rfl, ⟨hshort, _⟩ | ⟨_, e⟩⟩ := chunkVerify_cases s
  · exact absurd hfits (Nat.not_le.mpr ((dataTooLong_iff s).mp hlong))
  · obtain h | h := (truncated_iff s).mp hshort <;> omega
  · rw [e, hlen, hdata, htype, verifyBody_of_whole hwhole, frameVerdict]
    simp only [halpha, verifiedFrame]
    split
    · rfl
    · split <;> rfl

/-- R148: CHUNK_VERIFY completes with OK only with a whole frame, which it judged so. -/
theorem whole_of_chunkVerify_ok {s t : State} (h : exec .chunkVerify s = .next t) (hok : t.result = 0x00) :
    s.dataLen.toNat ≤ Config.bufBytes ∧ 12 + (frameLength s.dataIn).toNat ≤ s.dataLen.toNat ∧
      frameVerdict s.dataIn = .ok ∧ t.chunkLen = frameLength s.dataIn := by
  by_cases hfits : s.dataLen.toNat ≤ Config.bufBytes
  · by_cases hwhole : 12 + (frameLength s.dataIn).toNat ≤ s.dataLen.toNat
    · cases (chunkVerify_of_whole hfits hwhole).symm.trans h
      exact ⟨hfits, hwhole, (ResultCode.result_eq_zero_iff _).mp hok, rfl⟩
    · cases (chunkVerify_of_truncated hfits (.inl (Nat.not_le.mp hwhole))).symm.trans h
      cases hok
  · cases (chunkVerify_of_long (Nat.not_le.mp hfits)).symm.trans h
    cases hok

/-! ## One changed byte -/

/-- R142: two sequences of one length that differ at one index only have different CRCs. -/
theorem crc32_ne_of_map {f g : Nat → Byte} {n i : Nat} (hi : i < n) (hne : f i ≠ g i)
    (hsame : ∀ k, k ≠ i → f k = g k) : crc32 ((List.range n).map f) ≠ crc32 ((List.range n).map g) := by
  obtain ⟨k, rfl⟩ : ∃ k, n = i + (1 + k) := ⟨n - i - 1, by omega⟩
  have hsplit : ∀ e : Nat → Byte, (List.range (i + (1 + k))).map e =
      (List.range i).map e ++ e i :: (List.range k).map fun a => e (i + (1 + a)) := by
    intro e
    simp [List.range_add, Function.comp_def]
  have hbefore : (List.range i).map f = (List.range i).map g :=
    List.map_congr_left fun a ha => hsame a (Nat.ne_of_lt (List.mem_range.mp ha))
  have hafter : (fun a => f (i + (1 + a))) = fun a => g (i + (1 + a)) := funext fun a => hsame _ (by omega)
  rw [hsplit f, hsplit g, hbefore, hafter]
  exact crc32_ne_of_byte _ _ hne

/-- R146: type and data, the bytes that the CRC covers, stand one after the other from byte 4 on. -/
theorem frameType_append_frameData (m : Memory) :
    frameType m ++ frameData m = (List.range (4 + (frameLength m).toNat)).map fun i => m.read (4 + i) := by
  rw [List.range_add, List.map_append, List.map_map]
  exact congrArg₂ (· ++ ·) rfl (List.map_congr_left fun j _ => congrArg m.read (Nat.add_assoc 4 4 j))

/-- R62: words packed from bytes that differ are different. -/
theorem packWord_inj {a0 a1 a2 a3 b0 b1 b2 b3 : Byte} (h : packWord a0 a1 a2 a3 = packWord b0 b1 b2 b3) :
    a0 = b0 ∧ a1 = b1 ∧ a2 = b2 ∧ a3 = b3 := by
  have hbytes := congrArg be32 h
  simpa using hbytes

/-- R148: buffers with the same length field and stored CRC have the same bytes there. -/
theorem read_eq_of_frameCrc_eq {m m' : Memory} (hlen : frameLength m' = frameLength m) (h : frameCrc m' = frameCrc m)
    {j : Nat} (hlo : 8 + (frameLength m).toNat ≤ j) (hhi : j < 12 + (frameLength m).toNat) : m'.read j = m.read j := by
  rw [frameCrc, frameCrc, hlen] at h
  obtain ⟨h0, h1, h2, h3⟩ := packWord_inj h
  obtain rfl | rfl | rfl | rfl : j = 8 + (frameLength m).toNat ∨ j = 9 + (frameLength m).toNat ∨
      j = 10 + (frameLength m).toNat ∨ j = 11 + (frameLength m).toNat := by omega
  · exact h0
  · exact h1
  · exact h2
  · exact h3

section
variable {m m' : Memory} {j : Nat} (hsame : ∀ a, a ≠ j → m'.read a = m.read a)
include hsame

/-- R148: the length field is bytes 0 to 3. -/
theorem frameLength_of_same (h : 4 ≤ j) : frameLength m' = frameLength m := by
  rw [frameLength, frameLength, hsame 0 (by omega), hsame 1 (by omega), hsame 2 (by omega), hsame 3 (by omega)]

/-- R150: with one byte changed in type, data or stored CRC, a frame that was judged OK has a CRC mismatch: the change is
in the bytes that the CRC covers, or in the stored CRC, and never in both. -/
theorem frameVerdict_of_changed (hok : frameVerdict m = .ok) (h4 : 4 ≤ j) (hj : j < 12 + (frameLength m).toNat)
    (hne : m'.read j ≠ m.read j) : frameVerdict m' = .crcMismatch := by
  have hcrc := frameCrc_eq_of_verdict_ok hok
  have hlen := frameLength_of_same hsame h4
  refine if_pos ?_
  rw [frameType_append_frameData] at hcrc ⊢
  rw [hlen]
  by_cases hin : j < 8 + (frameLength m).toNat
  · have hstored : frameCrc m' = frameCrc m := by
      simp only [frameCrc, hlen]
      rw [hsame _ (by omega), hsame _ (by omega), hsame _ (by omega), hsame _ (by omega)]
    rw [hstored, hcrc]
    refine crc32_ne_of_map (i := j - 4) (by omega) ?_ fun k hk => (hsame _ (by omega)).symm
    rw [Nat.add_sub_cancel' h4]
    exact hne.symm
  · have hcovered : ((List.range (4 + (frameLength m).toNat)).map fun i => m'.read (4 + i)) =
        (List.range (4 + (frameLength m).toNat)).map fun i => m.read (4 + i) :=
      List.map_congr_left fun i hi => hsame _ (by have := List.mem_range.mp hi; omega)
    rw [hcovered, ← hcrc]
    exact fun h => hne (read_eq_of_frameCrc_eq hlen h (Nat.not_lt.mp hin) hj)

end

/-- R150: a byte with one bit flipped is another byte. -/
theorem xor_bit_ne (x : Byte) {k : Nat} (hk : k < 8) : x ^^^ (1#8 <<< k) ≠ x := by
  intro h
  have hbit := congrArg (BitVec.getLsbD · k) h
  simp [hk] at hbit

end Sys2Proof.Machine

open Sys2Proof Sys2Proof.Machine Sys2Proof.Safety

/-- Settles O13: one clause per outcome of CHUNK_BUILD; the frame of an input that fits is short enough for OUT_LEN. -/
theorem chunkBuildResult : Obligations.ChunkBuildResult := by
  refine ⟨decode_encode .chunkBuild, fun s => ?_⟩
  by_cases hfits : s.dataLen.toNat ≤ Config.bufBytes
  · have hnot : ¬ Config.bufBytes < s.dataLen.toNat := Nat.not_lt.mpr hfits
    by_cases htype : LetterType (be32 s.typeCode)
    · refine ⟨_, chunkBuild_of_letterType hfits htype, fun h => absurd h hnot, fun _ h => absurd htype h,
        fun _ _ => ⟨rfl, ?_⟩⟩
      have hout := outHolds_writeOut (frame_length_lt hfits) s
      rw [frame_input] at hout ⊢
      exact hout
    · exact ⟨_, chunkBuild_of_badType hfits htype, fun h => absurd h hnot,
        fun _ _ => ⟨rfl, outHolds_writeOut (by decide) s⟩, fun _ h => absurd h htype⟩
  · exact ⟨_, chunkBuild_of_long (Nat.not_le.mp hfits), fun _ => rfl, fun h => absurd h hfits, fun h => absurd h hfits⟩

/-- Settles O14: one clause per outcome of CHUNK_VERIFY, with the three of a whole frame told apart by its verdict. -/
theorem chunkVerifyResult : Obligations.ChunkVerifyResult := by
  refine ⟨decode_encode .chunkVerify, fun s => ?_⟩
  by_cases hfits : s.dataLen.toNat ≤ Config.bufBytes
  · have hnot : ¬ Config.bufBytes < s.dataLen.toNat := Nat.not_lt.mpr hfits
    by_cases hwhole : 12 + (frameLength s.dataIn).toNat ≤ s.dataLen.toNat
    · refine ⟨_, chunkVerify_of_whole hfits hwhole, fun h => absurd h hnot, fun _ hshort => by omega, fun _ _ => ?_⟩
      dsimp only
      rw [← frameVerdict_code, finish_eq_completion]
      simp only [ResultCode.code_eq_zero_iff]
      refine ⟨outHolds_writeOut ?_ (verifiedFrame s), verifiedFrame_consumed hfits hwhole, rfl⟩
      split
      · rw [frameData_length]; exact BitVec.isLt _
      · decide
    · refine ⟨_, chunkVerify_of_truncated hfits (.inl (Nat.not_le.mp hwhole)), fun h => absurd h hnot,
        fun _ _ => ⟨outHolds_writeOut (by decide) s, ?_⟩, fun _ h => absurd h hwhole⟩
      rw [verifyHeader_eq]
      rfl
  · exact ⟨_, chunkVerify_of_long (Nat.not_le.mp hfits), fun _ => rfl, fun h => absurd h hfits, fun h => absurd h hfits⟩

/-- Settles O28: the flip changes one byte of an accepted frame behind its length field. -/
theorem singleBitFlipIsCrcMismatch : Obligations.SingleBitFlipIsCrcMismatch := by
  intro s t u j k h hok h4 hj hk hlen hflip
  obtain ⟨hfits, hwhole, hverdict, hchunk⟩ := whole_of_chunkVerify_ok h hok
  have hsame : ∀ a, a ≠ j → u.dataIn.read a = s.dataIn.read a := fun a ha => by rw [hflip, if_neg ha]
  have hne : u.dataIn.read j ≠ s.dataIn.read j := by rw [hflip, if_pos rfl]; exact xor_bit_ne _ hk
  have hmismatch := frameVerdict_of_changed hsame hverdict h4 (hchunk ▸ hj) hne
  refine ⟨_, chunkVerify_of_whole (hlen ▸ hfits) (by rwa [frameLength_of_same hsame h4, hlen]), ?_⟩
  rw [hmismatch]
  rfl

/-- Settles O29: the frame read back has the fields it was built of, so its verdict is OK. -/
theorem frameRoundTrip : Obligations.FrameRoundTrip := by
  intro s t u htype hfits h hlen
  have hcap := Config.bufBytes_range
  cases (chunkBuild_of_letterType hfits htype).symm.trans h
  refine ⟨fun hlong => chunkVerify_of_long (by omega), fun hsmall hcopy => ?_⟩
  have hinput : s.input.length = s.dataLen.toNat := Memory.bytes_length _ _
  have hframe : (frame (be32 s.typeCode) s.input).length = 12 + s.dataLen.toNat := by
    rw [frame_length, be32_length, hinput]
  have hbytes : u.dataIn.bytes (12 + s.dataLen.toNat) = frame (be32 s.typeCode) s.input := by
    rw [Memory.bytes_congr hcopy, ← hframe]
    exact Memory.bytes_ofBytes _
  rw [frame_input, ← hinput] at hbytes
  obtain ⟨hl, hty, hd, hc⟩ := fields_of_frame hinput.symm hbytes
  have hok : frameVerdict u.dataIn = .ok := by
    rw [frameVerdict, hty, hd, hc, if_neg (not_not_intro rfl), if_pos htype]
  have hfitsFrame : u.dataLen.toNat ≤ Config.bufBytes := by omega
  have hwhole : 12 + (frameLength u.dataIn).toNat ≤ u.dataLen.toNat := by rw [hl, hlen]
  have hsize := verifiedFrame_consumed hfitsFrame hwhole
  rw [hl] at hsize
  refine ⟨_, chunkVerify_of_whole hfitsFrame hwhole, ?_⟩
  rw [hok, if_pos rfl, hd]
  exact ⟨rfl, outHolds_writeOut (b := s.input) (by omega) (verifiedFrame u), hl,
    (congrArg ofBe32 hty).trans (ofBe32_be32 s.typeCode), hsize⟩
end

section
/-! PROOFS. KDF_DERIVE (42_kdf R181-R186): its outcomes as completions, and what the derived key depends on. -/

namespace Sys2Proof.Machine

open Sys2Proof.Safety

variable {s t u : State}

/-! ## The outcomes -/

/-- R27, R248: the length check of the commands that read PW. -/
theorem pwTooLong_iff (s : State) : s.pwTooLong = true ↔ Config.pwBytes < s.pwLen.toNat := decide_eq_true_iff

/-- R27, R248: a password that fits PW. -/
theorem pwTooLong_eq_false_iff (s : State) : s.pwTooLong = false ↔ s.pwLen.toNat ≤ Config.pwBytes :=
  decide_eq_false_iff_not.trans Nat.not_lt

/-- R229, R244: `fatal()` leaves no secret. -/
theorem zeroized_fatalEnd (s : State) : Zeroized (fatalEnd s) :=
  ⟨fun _ => rfl, fun _ => rfl, rfl, outHolds_writeOut (by decide) s, rfl, rfl, rfl⟩

/-- R185: KDF_DERIVE with a password that does not fit. -/
theorem kdfDerive_of_long (h : Config.pwBytes < s.pwLen.toNat) : exec .kdfDerive s = .next (completion 0x06 s) := by
  obtain ⟨_, e⟩ | ⟨hfits, _⟩ | ⟨hfits, _⟩ := kdfDerive_cases s
  · rw [e, finish_eq_completion]; rfl
  · exact absurd ((pwTooLong_eq_false_iff s).mp hfits) (Nat.not_le.mpr h)
  · exact absurd ((pwTooLong_eq_false_iff s).mp hfits) (Nat.not_le.mpr h)

/-- R185: KDF_DERIVE with a password that fits, by what `kdf_key()` answers. -/
theorem kdfDerive_of_fits (h : s.pwLen.toNat ≤ Config.pwBytes) :
    exec .kdfDerive s = .next
      (if Config.kdfParamsValid s.kdfCost then
        completion 0x00 (writeOut (Config.kdfFn s.password s.salt s.kdfCost).toList s)
      else fatalEnd (clearOut s)) := by
  obtain ⟨hlong, _⟩ | ⟨_, hcost, e⟩ | ⟨_, hcost, e⟩ := kdfDerive_cases s
  · exact absurd h (Nat.not_le.mpr ((pwTooLong_iff s).mp hlong))
  · rw [e, hcost, if_neg Bool.false_ne_true]
  · rw [e, if_pos hcost, finish_eq_completion]; rfl

/-- R184, R185: KDF_DERIVE with OK leaves in OUT the key of `kdf_key()`. -/
theorem kdfDerive_out_of_ok (h : exec .kdfDerive s = .next t) (hok : t.result = 0x00) :
    ∃ k, kdfKey s = some k ∧ t.out = Memory.ofBytes k.toList := by
  obtain ⟨_, e⟩ | ⟨_, _, e⟩ | ⟨_, hcost, e⟩ := kdfDerive_cases s
  · cases e.symm.trans h; cases hok
  · cases e.symm.trans h; cases hok
  · cases e.symm.trans h; exact ⟨_, if_pos hcost, rfl⟩

/-! ## What the key depends on -/

/-- R183: the password is the first PW_LEN bytes of PW. -/
theorem password_congr (hlen : s.pwLen = u.pwLen) (hpw : ∀ j, j < s.pwLen.toNat → s.pw.read j = u.pw.read j) :
    s.password = u.password := by
  rw [State.password, State.password, ← hlen]
  exact Memory.bytes_congr hpw

/-- R181: the salt depends on CTRL.SALT_SRC, and on SALT_IN only where that selects it. -/
theorem salt_congr (hsrc : s.saltSrc = u.saltSrc) (hsalt : s.saltSrc = true → s.saltIn = u.saltIn) :
    s.salt = u.salt := by
  rw [State.salt, State.salt, ← hsrc]
  exact if_ctx_congr Iff.rfl (fun h => congrArg Vector.toList (hsalt h)) fun _ => rfl

/-- R184: `kdf_key()` depends on password, salt and work factor. -/
theorem kdfKey_congr (hpw : s.password = u.password) (hsalt : s.salt = u.salt) (hcost : s.kdfCost = u.kdfCost) :
    kdfKey s = kdfKey u := by
  rw [kdfKey, kdfKey, hpw, hsalt, hcost]

/-- R208: with KEY_SRC = 0 the internal key is that of `kdf_key()`. -/
theorem selectKey_of_derived (h : s.keySrc = false) : selectKey s = kdfKey s := if_neg (Bool.eq_false_iff.mp h)

end Sys2Proof.Machine

open Sys2Proof Sys2Proof.Machine Sys2Proof.Safety

/-- Settles O16: by whether the password fits and whether the work factor is valid. -/
theorem kdfDeriveResult : Obligations.KdfDeriveResult := by
  refine ⟨decode_encode .kdfDerive, fun s => ?_⟩
  by_cases hfits : s.pwLen.toNat ≤ Config.pwBytes
  · refine ⟨_, kdfDerive_of_fits hfits, fun hlong => absurd hfits (Nat.not_le.mpr hlong), fun _ => ?_⟩
    dsimp only
    split
    next => exact ⟨rfl, outHolds_writeOut (by rw [Vector.length_toList]; decide) s⟩
    next => exact ⟨zeroized_fatalEnd (clearOut s), rfl⟩
  · exact ⟨_, kdfDerive_of_long (Nat.not_le.mp hfits), fun _ => rfl, fun hle => absurd hle hfits⟩

/-- Settles O31: both commands take the key of `kdf_key()`, which is equal in the two states. -/
theorem keyDerivationIsDeterministic : Obligations.KeyDerivationIsDeterministic := by
  intro s u hlen hpw hsrc hsalt hcost
  have hkey : kdfKey s = kdfKey u := kdfKey_congr (password_congr hlen hpw) (salt_congr hsrc hsalt) hcost
  refine ⟨fun t v ht hv htok hvok j _ => ?_, fun hs hu => ?_⟩
  · obtain ⟨k, hk, hout⟩ := kdfDerive_out_of_ok ht htok
    obtain ⟨k', hk', hout'⟩ := kdfDerive_out_of_ok hv hvok
    obtain rfl : k = k' := Option.some.inj (hk.symm.trans (hkey.trans hk'))
    rw [hout, hout']
  · rw [selectKey_of_derived hs, selectKey_of_derived hu, hkey]
end

section
/-! PROOFS. The AEAD commands (43_aead R200-R215): what they select and open, their outcomes as completions, and that
decryption inverts encryption, of GCM and of the commands. -/

namespace Sys2Proof.Machine

open Sys2Proof.Safety

variable {s t u : State} {k : Bytes32}

/-! ## GCM -/

/-- R207: the tag GCM_AE made is the one GCM_AD computes, and counter mode undoes itself. -/
theorem gcmAD_gcmAE (k n p a : Bytes) : gcmAD k n (gcmAE k n p a).1 a (gcmAE k n p a).2 = some p := by
  simp only [gcmAD, gcmAE, if_true, gctr_gctr]

/-- R200, R10: what AEAD_ENCRYPT writes to OUT is as long as OUT_LEN can say. -/
theorem gcmAE_input_length_lt (hfits : s.dataTooLong = false) (k n a : Bytes) :
    ((gcmAE k n s.input a).1 ++ (gcmAE k n s.input a).2).length < 2 ^ 32 := by
  have hcap := Config.bufBytes_range
  have hlen := dataLen_le hfits
  rw [gcmAE_length, input_length]
  omega

/-! ## The selections -/

/-- R208, R248: the length check of the AEAD commands. -/
theorem aeadTooLong_iff (s : State) :
    s.aeadTooLong = true ↔
      Config.bufBytes < s.dataLen.toNat ∨ (s.ctrl.getLsbD 2 = false ∧ Config.pwBytes < s.pwLen.toNat) := by
  rw [State.aeadTooLong, Bool.or_eq_true, Bool.and_eq_true, Bool.not_eq_true', dataTooLong_iff, pwTooLong_iff]
  rfl

/-- R208, R248: lengths that pass the check of the AEAD commands. -/
theorem aeadTooLong_eq_false_iff (s : State) :
    s.aeadTooLong = false ↔
      ¬ (Config.bufBytes < s.dataLen.toNat ∨ (s.ctrl.getLsbD 2 = false ∧ Config.pwBytes < s.pwLen.toNat)) := by
  rw [← aeadTooLong_iff, Bool.not_eq_true]

/-- R208: the key that is selected, when one is. -/
theorem eq_of_selectKey (h : selectKey s = some k) :
    k = if s.ctrl.getLsbD 2 then s.keyIn
      else Config.kdfFn (s.pw.bytes s.pwLen.toNat)
        (if s.ctrl.getLsbD 1 then s.saltIn.toList else Config.kdfFixedSalt) s.kdfCost := by
  unfold selectKey kdfKey at h
  split at h
  next hsrc => exact (Option.some.inj h).symm.trans (if_pos hsrc).symm
  next hsrc => exact (Option.some.inj (Option.ite_none_right_eq_some.mp h).2).symm.trans (if_neg hsrc).symm

/-- R182, R208: no key is selected at a malformed work factor that is used. -/
theorem malformed_of_selectKey (h : selectKey s = none) :
    s.ctrl.getLsbD 2 = false ∧ Config.kdfParamsValid s.kdfCost = false := (selectKey_eq_none s).mp h

/-- R182, R208: a key is selected at no other. -/
theorem not_malformed_of_selectKey (h : selectKey s = some k) :
    ¬ (s.ctrl.getLsbD 2 = false ∧ Config.kdfParamsValid s.kdfCost = false) := fun hbad =>
  Option.some_ne_none k (h.symm.trans ((selectKey_eq_none s).mpr hbad))

/-- R208, R214: the key depends on the key selection inputs. -/
theorem selectKey_congr (hsrc : s.keySrc = u.keySrc) (hkey : s.keyIn = u.keyIn) (hpw : s.password = u.password)
    (hsalt : s.salt = u.salt) (hcost : s.kdfCost = u.kdfCost) : selectKey s = selectKey u := by
  rw [selectKey, selectKey, hsrc, hkey, kdfKey_congr hpw hsalt hcost]

/-- R209: only an RNG draw counts as a draw. -/
theorem selectNonce_draws (s : State) :
    (selectNonce s).2.draws = if s.ctrl.getLsbD 0 then s.draws else s.draws + 1 := by
  obtain ⟨hsrc, h⟩ | ⟨hsrc, h⟩ := selectNonce_cases s
  · rw [h, if_pos (show s.ctrl.getLsbD 0 = true from hsrc)]
  · rw [h, if_neg (show ¬ s.ctrl.getLsbD 0 = true from Bool.eq_false_iff.mp hsrc)]

/-! ## What AEAD_DECRYPT opens -/

/-- R211: the plaintext of the ciphertext and tag in DATA_IN under key `k` and NONCE_IN, the last 16 bytes being the
tag; `none` where that is AUTH_FAIL. -/
def openInput (k : Bytes32) (s : State) : Option Bytes :=
  if s.dataLen.toNat < 16 then none
  else gcmAD k.toList s.nonceIn.toList (s.dataIn.bytes (s.dataLen.toNat - 16)) []
    ((List.range 16).map fun j => s.dataIn.read (s.dataLen.toNat - 16 + j))

/-- R211: the ciphertext and the tag as slices of the input, which is how the command takes them. -/
theorem openInput_eq_slices (k : Bytes32) (s : State) :
    openInput k s =
      if s.dataLen.toNat < 16 then none
      else gcmAD k.toList s.nonceIn.toList (slice s.input 0 (s.dataLen.toNat - 16)) []
        (slice s.input (s.dataLen.toNat - 16) s.dataLen.toNat) := by
  refine ite_congr rfl (fun _ => rfl) fun hlong => ?_
  have hct : slice s.input 0 (s.dataLen.toNat - 16) = s.dataIn.bytes (s.dataLen.toNat - 16) := by
    rw [State.input, Memory.slice_bytes _ _ _ _ (Nat.sub_le _ _)]
    simp only [Nat.sub_zero, Nat.zero_add]
    rfl
  rw [hct, State.input, Memory.slice_bytes _ _ _ _ le_rfl, Nat.sub_sub_self (Nat.not_lt.mp hlong)]

/-- R211: an input made of a ciphertext and a 16-byte tag is opened as those. -/
theorem openInput_of_input {c tag : Bytes} (hin : s.input = c ++ tag) (htag : tag.length = 16) :
    openInput k s = gcmAD k.toList s.nonceIn.toList c [] tag := by
  have hlen : s.dataLen.toNat = c.length + tag.length := by rw [← input_length, hin, List.length_append]
  have hc : slice (c ++ tag) 0 c.length = c := List.take_left
  have ht : slice (c ++ tag) c.length (c.length + tag.length) = tag := by
    simpa only [List.append_nil] using slice_append_middle c tag []
  have hct : c.length + tag.length - 16 = c.length := by rw [htag, Nat.add_sub_cancel]
  rw [openInput_eq_slices, if_neg (by omega), hin, hlen, hct, hc, ht]

/-- R207, R211: what is opened is no longer than the input. -/
theorem openInput_length_lt {p : Bytes} (h : openInput k s = some p) : p.length < 2 ^ 32 := by
  have hp := gcmAD_length (Option.ite_none_left_eq_some.mp h).2
  rw [Memory.bytes_length] at hp
  omega

/-! ## The commands -/

/-- R208, R209, R210: what AEAD_ENCRYPT with OK selected, and the ciphertext and tag it wrote. -/
theorem aeadEncrypt_of_ok (h : exec .aeadEncrypt s = .next t) (hok : t.result = 0x00) :
    s.aeadTooLong = false ∧ ∃ k, selectKey s = some k ∧
      t.out = Memory.ofBytes ((gcmAE k.toList t.nonceOut.toList s.input []).1 ++
        (gcmAE k.toList t.nonceOut.toList s.input []).2) := by
  obtain ⟨_, e⟩ | ⟨_, _, e⟩ | ⟨hfits, k, hkey, _, _, _, ⟨_, e⟩ | ⟨_, _, e⟩⟩ := aeadEncrypt_cases s
  · cases e.symm.trans h; cases hok
  · cases e.symm.trans h; cases hok
  · cases e.symm.trans h; cases hok
  · cases e.symm.trans h; exact ⟨hfits, k, hkey, rfl⟩

/-- R211: AEAD_DECRYPT of an input that is opened and holds valid UTF-8. -/
theorem aeadDecrypt_of_opened {p : Bytes} (hfits : s.aeadTooLong = false) (hkey : selectKey s = some k)
    (hopen : openInput k s = some p) (hutf8 : utf8Valid p = true) :
    exec .aeadDecrypt s = .next (finish .ok { writeOut p s with keyInt := k }) := by
  obtain ⟨hlong, _⟩ | ⟨_, hnone, _⟩ | ⟨_, k', hkey', o, ho, hout⟩ := aeadDecrypt_cases s
  · cases hlong.symm.trans hfits
  · cases hnone.symm.trans hkey
  · cases hkey.symm.trans hkey'
    obtain rfl : o = some p := by rw [ho, ← openInput_eq_slices, hopen]
    obtain ⟨hnone, _⟩ | ⟨p', hp, ⟨_, e⟩ | ⟨hbad, _⟩⟩ := hout
    · cases hnone
    · cases hp; exact e
    · cases hp; cases hutf8.symm.trans hbad

end Sys2Proof.Machine

open Sys2Proof Sys2Proof.Machine Sys2Proof.Safety

/-- Settles O17: one clause per outcome of AEAD_ENCRYPT; ciphertext and tag of an input that fits are short enough for
OUT_LEN. -/
theorem aeadEncryptResult : Obligations.AeadEncryptResult := by
  refine ⟨decode_encode .aeadEncrypt, fun s => ?_⟩
  obtain ⟨hlong, e⟩ | ⟨hfits, hkey, e⟩ | ⟨hfits, k, hkey, o, d, hnonce, hout⟩ := aeadEncrypt_cases s
  · exact ⟨_, e, fun _ => finish_eq_completion .lenErr s, fun hnot => absurd ((aeadTooLong_iff s).mp hlong) hnot⟩
  · refine ⟨_, e, fun hlong => absurd hlong ((aeadTooLong_eq_false_iff s).mp hfits), fun _ => ?_⟩
    rw [if_pos (malformed_of_selectKey hkey)]
    exact ⟨zeroized_fatalEnd (clearOut s), rfl⟩
  · have hnot := (aeadTooLong_eq_false_iff s).mp hfits
    have hvalid := not_malformed_of_selectKey hkey
    have hfst := selectNonce_fst s
    have hdraws := selectNonce_draws s
    rw [hnonce] at hfst hdraws
    obtain ⟨rfl, e⟩ | ⟨n, rfl, e⟩ := hout
    · refine ⟨_, e, fun hlong => absurd hlong hnot, fun _ => ?_⟩
      rw [if_neg hvalid, ← hfst, ← hdraws]
      exact ⟨outHolds_writeOut (by decide) s, finish_eq_completion .rngFail _⟩
    · refine ⟨_, e, fun hlong => absurd hlong hnot, fun _ => ?_⟩
      rw [if_neg hvalid, ← hfst, ← hdraws, ← eq_of_selectKey hkey]
      have hout := outHolds_writeOut (gcmAE_input_length_lt (aeadTooLong_eq_false hfits) k.toList n.toList []) s
      refine ⟨hout, hout.1.trans ?_, finish_eq_completion .ok _⟩
      rw [gcmAE_length, input_length]

/-- Settles O18: one clause per outcome of AEAD_DECRYPT; what is opened is short enough for OUT_LEN. -/
theorem aeadDecryptResult : Obligations.AeadDecryptResult := by
  refine ⟨decode_encode .aeadDecrypt, fun s => ?_⟩
  obtain ⟨hlong, e⟩ | ⟨hfits, hkey, e⟩ | ⟨hfits, k, hkey, o, hopen, hout⟩ := aeadDecrypt_cases s
  · exact ⟨_, e, fun _ => finish_eq_completion .lenErr s, fun hnot => absurd ((aeadTooLong_iff s).mp hlong) hnot⟩
  · refine ⟨_, e, fun hlong => absurd hlong ((aeadTooLong_eq_false_iff s).mp hfits), fun _ => ?_⟩
    rw [if_pos (malformed_of_selectKey hkey)]
    exact ⟨zeroized_fatalEnd (clearOut s), rfl⟩
  · have hnot := (aeadTooLong_eq_false_iff s).mp hfits
    have hvalid := not_malformed_of_selectKey hkey
    rw [← openInput_eq_slices] at hopen
    obtain ⟨rfl, e⟩ | ⟨p, rfl, ⟨hutf8, e⟩ | ⟨hutf8, e⟩⟩ := hout
    · refine ⟨_, e, fun hlong => absurd hlong hnot, fun _ => ?_⟩
      rw [if_neg hvalid, ← eq_of_selectKey hkey, ← openInput, ← hopen]
      exact ⟨outHolds_writeOut (by decide) s, finish_eq_completion .authFail _⟩
    · refine ⟨_, e, fun hlong => absurd hlong hnot, fun _ => ?_⟩
      rw [if_neg hvalid, ← eq_of_selectKey hkey, ← openInput, ← hopen]
      dsimp only
      rw [if_pos hutf8, if_pos hutf8]
      exact ⟨finish_eq_completion .ok _, outHolds_writeOut (openInput_length_lt hopen.symm) s⟩
    · refine ⟨_, e, fun hlong => absurd hlong hnot, fun _ => ?_⟩
      rw [if_neg hvalid, ← eq_of_selectKey hkey, ← openInput, ← hopen]
      dsimp only
      rw [if_neg (Bool.eq_false_iff.mp hutf8), if_neg (Bool.eq_false_iff.mp hutf8)]
      exact ⟨finish_eq_completion .invalidEncoding _, outHolds_writeOut (by decide) s⟩

/-- Settles O24: of the outcomes of AEAD_DECRYPT only OK writes OUT without clearing it. -/
theorem decryptReleasesNothingOnFailure : Obligations.DecryptReleasesNothingOnFailure := by
  intro s t h hne
  have hclear : OutHolds [] (clearOut s) := outHolds_writeOut (by decide) s
  obtain ⟨_, e⟩ | ⟨_, _, e⟩ | ⟨_, k, _, o, _, ⟨_, e⟩ | ⟨p, _, ⟨_, e⟩ | ⟨_, e⟩⟩⟩ := aeadDecrypt_cases s
  · cases e.symm.trans h; exact .inl ⟨rfl, rfl, rfl⟩
  · cases e.symm.trans h; exact .inr ⟨.inr (.inr rfl), hclear⟩
  · cases e.symm.trans h; exact .inr ⟨.inl rfl, hclear⟩
  · cases e.symm.trans h; exact absurd rfl hne
  · cases e.symm.trans h; exact .inr ⟨.inr (.inl rfl), hclear⟩

/-- Settles O32: the lengths are those of counter mode and of the tag. -/
theorem gcmDecryptInvertsEncrypt : Obligations.GcmDecryptInvertsEncrypt := fun k n p a =>
  ⟨gctr_length k _ p, gcmTag_length k n _ a, gcmAD_gcmAE k n p a⟩

/-- Settles O33: the second state selects the key of the first, and its input is the ciphertext and tag of GCM_AE under
that key and the nonce used, which GCM_AD opens to the plaintext. -/
theorem aeadRoundTrip : Obligations.AeadRoundTrip := by
  intro s t u h hok hutf8 hsmall hcopy hlen hnonce hkeySrc hsaltSrc hkeyIn hpwLen hpw hsalt hcost
  have hcap := Config.bufBytes_range
  obtain ⟨hfits, k, hkey, hout⟩ := aeadEncrypt_of_ok h hok
  have hfitsU : u.aeadTooLong = false := by
    rw [aeadTooLong_eq_false_iff, not_or] at hfits ⊢
    rw [hkeySrc, hpwLen]
    exact ⟨by omega, hfits.2⟩
  have hkeyU : selectKey u = some k := by
    have hpassword : u.password = s.password := password_congr hpwLen (hpwLen ▸ hpw)
    rw [← hkey]
    exact selectKey_congr hkeySrc hkeyIn hpassword (salt_congr hsaltSrc fun _ => hsalt) hcost
  have hinput : u.input =
      (gcmAE k.toList t.nonceOut.toList s.input []).1 ++ (gcmAE k.toList t.nonceOut.toList s.input []).2 := by
    have hsize := gcmAE_length k.toList t.nonceOut.toList s.input []
    rw [input_length] at hsize
    rw [State.input, hlen, Memory.bytes_congr hcopy, hout, ← hsize]
    exact Memory.bytes_ofBytes _
  have hopen : openInput k u = some s.input := by
    rw [openInput_of_input hinput (gcmTag_length ..), hnonce]
    exact gcmAD_gcmAE ..
  exact ⟨_, aeadDecrypt_of_opened hfitsU hkeyU hopen hutf8, rfl, outHolds_writeOut (openInput_length_lt hopen) u⟩
end

section
/-! PROOFS. ZEROIZE (44_control R229, R230). -/

namespace Sys2Proof.Machine

open Sys2Proof.Safety

/-- R229: `zeroize_all()` leaves no secret. -/
theorem zeroized_zeroizeAll (s : State) : Zeroized (zeroizeAll s) :=
  ⟨fun _ => rfl, fun _ => rfl, rfl, outHolds_writeOut (by decide) s, rfl, rfl, rfl⟩

/-- R51: completion brings no secret back. -/
theorem zeroized_finish {s : State} (h : Zeroized s) (c : ResultCode) : Zeroized (finish c s) := by
  obtain ⟨hdata, hpw, hpwLen, hout, hkey, hsalt, _⟩ := h
  exact ⟨hdata, hpw, hpwLen, hout, hkey, hsalt, finish_keyInt c s⟩

end Sys2Proof.Machine

open Sys2Proof Sys2Proof.Machine Sys2Proof.Safety

/-- Settles O19: ZEROIZE completes from the state `zeroize_all()` leaves. -/
theorem zeroizeResult : Obligations.ZeroizeResult :=
  ⟨decode_encode .zeroize, fun s =>
    ⟨_, zeroize_eq s, zeroized_finish (zeroized_zeroizeAll s) .ok, finish_eq_completion .ok (zeroizeAll s)⟩⟩
end

section
/-! PROOFS. Errors and the FATAL state (60_exceptions R244, R245, R248, R251): what an error leaves, how FATAL is entered,
and that only the assertion of reset leaves it. -/

namespace Sys2Proof.Machine

open Sys2Proof.Safety

/-- R245: in the FATAL state the ENGINE step is the completion with FATAL, whatever the command word. -/
theorem engineStep_of_fatal {s : State} (hf : s.fatal = true) : engineStep s = .next (finish .fatal s) := if_pos hf

/-- R244, R245: no ENGINE step clears FATAL. -/
theorem engineStep_fatal_of_fatal {s t : State} (hf : s.fatal = true) (h : engineStep s = .next t) : t.fatal = true := by
  cases (engineStep_of_fatal hf).symm.trans h
  exact hf

/-! ## Errors -/

section
variable {i : Instr} {s u : State} {c : ResultCode} (he : Effect i s c u)
include he

/-- R248, R251: a command that ends in a length error is its completion alone. -/
theorem Effect.finish_of_lengthError (hc : c = .lenErr ∨ c = .nameLen) : finish c u = completion c.code s := by
  rw [he.lengthError hc, finish_eq_completion]

/-- R251: after an error OUT is as before or clear. -/
theorem Effect.outHolds_of_error (hc : c ≠ .ok) :
    (u.out = s.out ∧ u.outLen = s.outLen) ∨ OutHolds [] (finish c u) := by
  refine (he.outError hc).imp_right fun ⟨hout, hlen⟩ => ⟨?_, fun j => ?_⟩
  · rw [finish_outLen, hlen]; rfl
  · rw [finish_out, hout]; rfl

/-! ## Entry to the FATAL state -/

/-- R244: a command that enters the FATAL state is one that calls `kdf_key()`, and ends in `fatal()`. -/
theorem Effect.fatalEnd_of_entered (hs : s.fatal = false) (hu : u.fatal = true) :
    (i = .kdfDerive ∨ i = .aeadEncrypt ∨ i = .aeadDecrypt) ∧ finish c u = Machine.fatalEnd (clearOut s) := by
  obtain ⟨rfl, rfl, hcaller⟩ | ⟨_, hsame⟩ := he.fatal
  · exact ⟨hcaller, rfl⟩
  · cases hs.symm.trans (hsame.symm.trans hu)

end

section
variable {s t : State} (hs : s.fatal = false)
include hs

/-- R182, R185: KDF_DERIVE enters the FATAL state at a malformed work factor, once its length check has passed. -/
theorem kdfDerive_fatal_iff (h : exec .kdfDerive s = .next t) :
    t.fatal = true ↔ s.pwTooLong = false ∧ Config.kdfParamsValid s.kdfCost = false := by
  obtain ⟨hlong, e⟩ | ⟨hfits, hcost, e⟩ | ⟨hfits, hcost, e⟩ := kdfDerive_cases s
  · cases e.symm.trans h; simp [hs, hlong]
  · cases e.symm.trans h; simp [fatalEnd_eq, hfits, hcost]
  · cases e.symm.trans h; simp [hs, hcost]

/-- R208, R210: AEAD_ENCRYPT enters the FATAL state where it selects no key, once its length checks have passed. -/
theorem aeadEncrypt_fatal_iff (h : exec .aeadEncrypt s = .next t) :
    t.fatal = true ↔ s.aeadTooLong = false ∧ selectKey s = none := by
  obtain ⟨hlong, e⟩ | ⟨hfits, hkey, e⟩ | ⟨_, k, hkey, _, _, _, ⟨_, e⟩ | ⟨_, _, e⟩⟩ := aeadEncrypt_cases s
  · cases e.symm.trans h; simp [hs, hlong]
  · cases e.symm.trans h; simp [fatalEnd_eq, hfits, hkey]
  · cases e.symm.trans h; simp [hs, hkey]
  · cases e.symm.trans h; simp [hs, hkey]

/-- R208, R211: AEAD_DECRYPT likewise. -/
theorem aeadDecrypt_fatal_iff (h : exec .aeadDecrypt s = .next t) :
    t.fatal = true ↔ s.aeadTooLong = false ∧ selectKey s = none := by
  obtain ⟨hlong, e⟩ | ⟨hfits, hkey, e⟩ | ⟨_, k, hkey, _, _, ⟨_, e⟩ | ⟨_, _, ⟨_, e⟩ | ⟨_, e⟩⟩⟩ := aeadDecrypt_cases s
  · cases e.symm.trans h; simp [hs, hlong]
  · cases e.symm.trans h; simp [fatalEnd_eq, hfits, hkey]
  · cases e.symm.trans h; simp [hs, hkey]
  · cases e.symm.trans h; simp [hs, hkey]
  · cases e.symm.trans h; simp [hs, hkey]

end

/-- R208, R244, R248: where an AEAD command calls `fatal()`: with KEY_SRC = 0, at lengths that fit and a malformed work
factor. -/
theorem aead_fatal_premise_iff (s : State) :
    s.aeadTooLong = false ∧ selectKey s = none ↔
      Config.kdfParamsValid s.kdfCost = false ∧ s.pwLen.toNat ≤ Config.pwBytes ∧ s.ctrl.getLsbD 2 = false ∧
        s.dataLen.toNat ≤ Config.bufBytes := by
  have hsrc : s.keySrc = s.ctrl.getLsbD 2 := rfl
  rw [aeadTooLong_eq_false_iff, selectKey_eq_none, hsrc, not_or, not_and, Nat.not_lt, Nat.not_lt]
  constructor
  · rintro ⟨⟨hdata, hpw⟩, hkey, hcost⟩
    exact ⟨hcost, hpw hkey, hkey, hdata⟩
  · rintro ⟨hcost, hpw, hkey, hdata⟩
    exact ⟨⟨hdata, fun _ => hpw⟩, hkey, hcost⟩

end Sys2Proof.Machine

open Sys2Proof Sys2Proof.Machine Sys2Proof.Safety

/-- Settles O21: by the effect of the command before it completes. -/
theorem errorsArePrecise : Obligations.ErrorsArePrecise := by
  intro i s t h
  obtain ⟨c, u, e, he⟩ := exec_effect i s
  cases e.symm.trans h
  refine ⟨fun hcode => ?_, fun hcode => ?_, fun hne => ?_⟩
  · obtain rfl : c = .lenErr := (code_inj c .lenErr).mp hcode
    exact he.finish_of_lengthError (.inl rfl)
  · obtain rfl : c = .nameLen := (code_inj c .nameLen).mp hcode
    exact he.finish_of_lengthError (.inr rfl)
  · exact he.outHolds_of_error fun hok => hne ((ResultCode.result_eq_zero_iff c).mpr hok)

/-- Settles O22: the three callers of `kdf_key()` one by one; no other command enters the FATAL state. -/
theorem fatalEntry : Obligations.FatalEntry := by
  intro i s t h hs
  obtain ⟨c, u, e, he⟩ := exec_effect i s
  obtain rfl : finish c u = t := Host.Outcome.next.inj (e.symm.trans h)
  refine ⟨?_, fun hf => ?_⟩
  · cases i with
    | kdfDerive =>
      rw [kdfDerive_fatal_iff hs h, pwTooLong_eq_false_iff]
      simp [and_comm]
    | aeadEncrypt =>
      rw [aeadEncrypt_fatal_iff hs h, aead_fatal_premise_iff]
      simp
    | aeadDecrypt =>
      rw [aeadDecrypt_fatal_iff hs h, aead_fatal_premise_iff]
      simp
    | _ =>
      have hno : u.fatal = false := Bool.eq_false_iff.mpr fun hf => by
        simpa using (he.fatalEnd_of_entered hs hf).1
      simp [hno]
  · obtain ⟨_, hend⟩ := he.fatalEnd_of_entered hs hf
    rw [hend]
    exact ⟨zeroized_fatalEnd (clearOut s), rfl, rfl, rfl, rfl⟩

/-- Settles O48: the ENGINE completes with FATAL, and no host access writes FATAL. -/
theorem onlyResetLeavesFatal : Obligations.OnlyResetLeavesFatal := by
  intro s t h hf
  by_cases hassert : s.turns.head? = some .assertReset
  · exact .inr hassert
  · left
    obtain ⟨_, hengine⟩ | ⟨u, hu, ht⟩ := step_cases_of_not_assertReset h hassert
    · exact engineStep_fatal_of_fatal (s := { s with turns := restTurns s }) hf hengine
    · obtain ⟨_, _, hfatal⟩ := hu.results
      rw [ht]
      exact hfatal.trans hf

/-- Settles O6: acceptance does not look at FATAL, and the ENGINE looks at nothing else once it is set. -/
theorem fatalStateRunsNoCommand : Obligations.FatalStateRunsNoCommand := by
  intro s w ts hf
  refine ⟨fun hb hr => memWrite_reg hb hr .cmd w, fun hb => ?_⟩
  rw [step_engine, engineTurn, if_pos hb, engineStep_of_fatal (s := { s with turns := ts }) hf, finish_eq_completion]
  rfl
end

section
/-! PROOFS. No access reveals a secret (60_exceptions R255): two states that differ in KEY_IN, KEY_INT and PW alone answer
every access alike. -/

namespace Sys2Proof.Machine

/-- R255: `s` with other contents of the registers and the buffer that cannot be read: KEY_IN, KEY_INT, PW. -/
def withSecrets (k ki : Bytes32) (p : Memory) (s : State) : State := { s with keyIn := k, keyInt := ki, pw := p }

variable (k ki : Bytes32) (p : Memory) (s : State)

/-- R39, R41, R43: no word of the window reads a secret. -/
theorem readLoc_withSecrets (l : Loc) : readLoc (withSecrets k ki p s) l = readLoc s l := by
  cases l with
  | reg r =>
    cases r with
    | kdfCost j => match j with | 0 | 1 | 2 => rfl
    | _ => rfl
  | pw i | dataIn i | out i => rfl

/-- R67: a write changes KEY_IN and PW by their own contents, and all else without looking at them. -/
theorem writeLoc_withSecrets (v : Word) (l : Loc) :
    ∃ k' p', writeLoc v (withSecrets k ki p s) l = withSecrets k' ki p' (writeLoc v s l) := by
  cases l with
  | reg r =>
    cases r with
    | kdfCost j => match j with | 0 | 1 | 2 => exact ⟨_, _, rfl⟩
    | _ => exact ⟨_, _, rfl⟩
  | pw i | dataIn i | out i => exact ⟨_, _, rfl⟩

/-- R54, R66: a read returns the same word whatever the secrets are, a drawn one because both states have taken the same
number of free values (log entries 8 and 9). -/
theorem memRead_withSecrets (o : BitVec 18) :
    memRead o (withSecrets k ki p s) = (memRead o s).map fun (w, t) => (w, withSecrets k ki p t) := by
  obtain ⟨hnone, h⟩ | ⟨l, hl, ⟨hb, he, h⟩ | ⟨hexact, h⟩⟩ := memRead_cases o s
  · rw [h, memRead_unserved (s := withSecrets k ki p s) hnone]; rfl
  · rw [h, memRead_drawn (s := withSecrets k ki p s) hl hb he]; rfl
  · rw [h, memRead_exact (s := withSecrets k ki p s) hl hexact, readLoc_withSecrets]; rfl

/-- R53, R67: a write is answered alike whatever the secrets are. -/
theorem memWrite_withSecrets (o : BitVec 18) (v : Word) :
    ∃ k' p', memWrite o v (withSecrets k ki p s) = (memWrite o v s).map (withSecrets k' ki p') := by
  obtain ⟨hnone, h⟩ | ⟨l, hl, ⟨hb, h⟩ | ⟨hb, h⟩⟩ := memWrite_cases o v s
  · rw [h, memWrite_unserved (s := withSecrets k ki p s) hnone]; exact ⟨k, p, rfl⟩
  · rw [h, memWrite_busy (s := withSecrets k ki p s) hl hb]; exact ⟨k, p, rfl⟩
  · obtain ⟨k', p', hw⟩ := writeLoc_withSecrets k ki p s v l
    rw [h, memWrite_idle (s := withSecrets k ki p s) hl hb, hw]
    exact ⟨k', p', rfl⟩

/-- R255: an access is answered alike whatever the secrets are, and leaves KEY_INT. -/
theorem busAccess_withSecrets (a : Access) :
    ∃ k' p', busAccess a (withSecrets k ki p s) = ((busAccess a s).1, withSecrets k' ki p' (busAccess a s).2) := by
  obtain ⟨kind, o, width⟩ := a
  by_cases hwidth : width = 4
  · subst hwidth
    cases kind with
    | fetch => exact ⟨k, p, rfl⟩
    | read =>
      refine ⟨k, p, ?_⟩
      simp only [busAccess, memRead_withSecrets]
      cases memRead o s <;> rfl
    | write v =>
      obtain ⟨k', p', hw⟩ := memWrite_withSecrets k ki p s o v
      simp only [busAccess, hw]
      cases memWrite o v s with
      | error f => exact ⟨k, p, rfl⟩
      | ok t => exact ⟨k', p', rfl⟩
  · have hbad : ∀ u : State, busAccess ⟨kind, o, width⟩ u = (.error (.busError o), u) := fun _ => if_pos hwidth
    rw [hbad, hbad]
    exact ⟨k, p, rfl⟩

end Sys2Proof.Machine

open Sys2Proof Sys2Proof.Machine Sys2Proof.Safety

/-- Settles O46: the second state is the first with other secrets, before the access and after it. -/
theorem secretsCannotBeRead : Obligations.SecretsCannotBeRead := by
  intro a s k ki p u
  obtain ⟨k', p', h⟩ : ∃ k' p', busAccess a u = ((busAccess a s).1, withSecrets k' ki p' (busAccess a s).2) :=
    busAccess_withSecrets k ki p s a
  rw [h]
  exact ⟨rfl, rfl⟩
end

section
/-! PROOFS. Steps of the two agents (60_exceptions R240, R249, R250): that a step is always answered, and that a host
write may come before or after the ENGINE step. -/

namespace Sys2Proof.Machine

/-! ## A step is answered -/

/-- R102: the HOST's turn is answered, unless its next statement is a WR of a variable that no RD has written. -/
theorem hostTurn_next_or_refused (s : State) :
    (∃ t, hostTurn s = .next t) ∨
      ∃ x l p, hostTurn s = .refused (.unwrittenVariable x) ∧ s.program = .wr l (.var x) :: p ∧
        varValue s.vars x = none := by
  cases hprog : s.program with
  | nil => exact .inl ⟨s, by rw [hostTurn, hprog]⟩
  | cons st p =>
    rw [hostTurn, hprog]
    cases st with
    | wr l v =>
      cases v with
      | imm w => exact .inl ⟨_, rfl⟩
      | var x =>
        cases hvar : varValue s.vars x with
        | none => exact .inr ⟨x, l, p, by simp [hvar], rfl, hvar⟩
        | some w => exact .inl ⟨_, by simp only [hvar]; rfl⟩
    | rd l x => exact .inl ⟨_, rfl⟩
    | poll l m v => exact .inl ⟨_, rfl⟩
    | expect l v => exact .inl ⟨_, rfl⟩
    | access a => exact .inl ⟨_, rfl⟩

/-- R240, R250: every ENGINE step is answered. -/
theorem engineStep_next (s : State) : ∃ t, engineStep s = .next t := by
  obtain ⟨_, _, h, _⟩ := engineStep_cases s
  exact ⟨_, h⟩

/-- R50: every ENGINE turn is answered. -/
theorem engineTurn_next (s : State) : ∃ t, engineTurn s = .next t := by
  unfold engineTurn
  split
  · exact engineStep_next s
  · exact ⟨s, rfl⟩

/-! ## Either order -/

/-- R282: an ENGINE step leaves the level of the reset input. -/
theorem engineStep_resetAsserted {s t : State} (h : engineStep s = .next t) : t.resetAsserted = s.resetAsserted := by
  obtain ⟨c, u, e, hcase⟩ := engineStep_cases s
  cases e.symm.trans h
  obtain ⟨_, _, rfl⟩ | ⟨_, _, _, rfl⟩ | ⟨_, i, _, _, he⟩ := hcase
  · rfl
  · rfl
  · exact he.resetAsserted_eq

/-- R72: an ENGINE step does not depend on the order of the agents, and leaves it. -/
theorem engineStep_withTurns {s t : State} (h : engineStep s = .next t) (ts : List Turn) :
    engineStep { s with turns := ts } = .next { t with turns := ts } := by
  have hsame : t = aside s.program s.response s.wbusy s.turns t :=
    Host.Outcome.next.inj (h.symm.trans (engineStep_aside s s.program s.response s.wbusy s.turns h))
  rw [hsame]
  exact engineStep_aside s s.program s.response s.wbusy ts (t := t) h

/-- A run of two steps. -/
theorem run_two {s a b : State} (h1 : step s = .next a) (h2 : step a = .next b) :
    Host.Core.run Sys2Proof.core 2 s = .next b :=
  (run_step h1 1).trans (run_step h2 0)

section
variable {s t : State} {l : Loc} {v : Word} {p : List Stmt} (hb : s.busy = true) (hr : s.resetAsserted = false)
  (hl : l.wellFormed = true) (hp : s.program = .wr l (.imm v) :: p)
  (ht : engineStep { s with turns := [] } = .next t)
include hb hr hl hp ht

/-- R249, R67: the ENGINE first: the write is done on what the command leaves. -/
theorem run_engine_host :
    Host.Core.run Sys2Proof.core 2 { s with turns := [.engine, .host] } =
      .next { writeLoc v t l with program := p, response := some .accepted } := by
  obtain ⟨hidle, _, _, hprog, _, (hturns : t.turns = [])⟩ := engineStep_completes ht
  have hengine : step { s with turns := [.engine, .host] } = .next { t with turns := [.host] } := by
    rw [step_engine, engineTurn, if_pos hb]
    exact engineStep_withTurns ht [.host]
  have hhost : step { t with turns := [.host] } =
      .next { writeLoc v t l with program := p, response := some .accepted } := by
    have hstep : step { t with turns := [.host] } = hostTurn { t with turns := [] } := rfl
    rw [hstep, ← hturns]
    exact hostTurn_wr_idle hl hidle ((engineStep_resetAsserted ht).trans hr) (hprog.trans hp)
  exact run_two hengine hhost

/-- R249, R53: the HOST first: the write is dropped, and the command does what it would have done. -/
theorem run_host_engine :
    Host.Core.run Sys2Proof.core 2 { s with turns := [.host, .engine] } =
      .next { t with program := p, response := some .accepted, wbusy := true } := by
  obtain ⟨_, _, _, _, _, (hturns : t.turns = [])⟩ := engineStep_completes ht
  have hhost : step { s with turns := [.host, .engine] } =
      .next { s with wbusy := true, program := p, response := some .accepted, turns := [.engine] } :=
    hostTurn_wr_busy (s := { s with turns := [.engine] }) hl hb hr hp
  have hengine : step { s with wbusy := true, program := p, response := some .accepted, turns := [.engine] } =
      .next (aside p (some .accepted) true [] t) :=
    (if_pos hb).trans (engineStep_aside { s with turns := [] } p (some .accepted) true [] ht)
  have hend : aside p (some .accepted) true [] t =
      { t with program := p, response := some .accepted, wbusy := true } := by rw [aside, ← hturns]
  exact run_two hhost (hengine.trans (congrArg _ hend))

end

/-- R144: the ENGINE step of CRC_INIT outside the FATAL state sets CRC_ACC. -/
theorem engineStep_crcInit_crcAcc {s t : State} (hf : s.fatal = false) (hcmd : s.cmd = encode .crcInit)
    (h : engineStep s = .next t) : t.crcAcc = 0xFFFFFFFF := by
  rw [engineStep_of_decode hf (hcmd ▸ decode_encode .crcInit), crcInit_eq] at h
  cases h
  rfl

end Sys2Proof.Machine

open Sys2Proof Sys2Proof.Machine Sys2Proof.Safety

/-- Settles O53: by who moves next: only the HOST's turn can be refused. -/
theorem stepsNeverStopTheBlock : Obligations.StepsNeverStopTheBlock := by
  intro s
  cases hturns : s.turns with
  | nil =>
    rw [step_default s hturns]
    split
    · exact .inl (engineStep_next s)
    · exact hostTurn_next_or_refused s
  | cons m ts =>
    rw [step, nextMove, hturns]
    cases m with
    | host => exact hostTurn_next_or_refused { s with turns := ts }
    | engine => exact .inl (engineTurn_next { s with turns := ts })
    | assertReset => exact .inl ⟨_, rfl⟩
    | releaseReset => exact .inl ⟨_, rfl⟩

/-- Settles O47: one run for each order, both from the state that the ENGINE step alone leaves. -/
theorem eitherOrderOfHostAndEngine : Obligations.EitherOrderOfHostAndEngine := by
  intro s l v p hb hr hl hp
  obtain ⟨t, ht⟩ := engineStep_next { s with turns := [] }
  obtain ⟨hidle, _⟩ := engineStep_completes ht
  have hwrite := memWrite_wellFormed hl v (s := t) ((engineStep_resetAsserted ht).trans hr)
  rw [if_neg (Bool.eq_false_iff.mp hidle)] at hwrite
  refine ⟨t, writeLoc v t l, (if_pos hb).trans ht, hidle, hwrite, run_engine_host hb hr hl hp ht,
    run_host_engine hb hr hl hp ht, ?_⟩
  rintro hf hcmd rfl
  exact ⟨rfl, engineStep_crcInit_crcAcc (s := { s with turns := [] }) hf hcmd ht⟩
end

section
/-! PROOFS. Reset and hazards (70_reset R280-R283, R290, R293): the state that reset leaves, what a step makes of a
command in progress, and that it completes. -/

namespace Sys2Proof.Machine

open Sys2Proof.Safety

/-! ## The state after reset -/

/-- R61: every word of a byte-string register that is all 0 is 0. -/
theorem wordAt_replicate_zero {n : Nat} (k : Nat) : wordAt (Vector.replicate n (0 : Byte)) k = 0 := by
  have hbyte : ∀ j : Nat, (Vector.replicate n (0 : Byte))[j]?.getD 0 = 0 := by
    intro j
    rw [Vector.getElem?_replicate]
    split <;> rfl
  simp only [wordAt, hbyte]
  rfl

/-- R281, R283: the reset state holds no secret. -/
theorem zeroized_reset : Zeroized State.reset := zeroized_zeroizeAll State.reset

/-- R283: nor does the state while reset is asserted, whatever was there before. -/
theorem zeroized_assertReset (s : State) : Zeroized (assertReset s) := zeroized_zeroizeAll (assertReset s)

/-- R281: what reset keeps, the HOST, the turns and the counter, is in no register. -/
theorem readReg_assertReset (s : State) (r : Reg) : readReg (assertReset s) r = readReg State.reset r := by
  cases r with
  | kdfCost k => match k with | 0 | 1 | 2 => rfl
  | _ => rfl

/-! ## A command in progress -/

/-- R53: a host access to a busy block sets at most WBUSY. -/
theorem Touched.eq_of_busy {s u : State} (h : Touched s u) (hb : s.busy = true) : u = { s with wbusy := u.wbusy } := by
  cases h with
  | same => rfl
  | dropped _ => rfl
  | wrote l v a hidle hr h4 hl => cases hidle.symm.trans hb

/-- R50, R53: a step of a busy block other than the assertion of reset is the ENGINE step, or it takes a turn and leaves
the command as it is. -/
theorem step_cases_of_busy {s t : State} (h : step s = .next t) (hb : s.busy = true)
    (hn : s.turns.head? ≠ some .assertReset) :
    engineStep { s with turns := restTurns s } = .next t ∨
      BlockOf { s with turns := restTurns s, wbusy := t.wbusy } t := by
  obtain ⟨_, hengine⟩ | ⟨u, hu, ht⟩ := step_cases_of_not_assertReset h hn
  · exact .inl hengine
  · have hwbusy : t.wbusy = u.wbusy := by rw [ht]
    rw [hwbusy, ← hu.eq_of_busy hb]
    exact .inr ht

/-- R31, R94: an ENGINE step that changes CRC_ACC runs CRC_INIT or CRC_UPDATE. -/
theorem engineStep_crcAcc {s t : State} (h : engineStep s = .next t) (hne : t.crcAcc ≠ s.crcAcc) :
    s.fatal = false ∧ (s.cmd = encode .crcInit ∨ s.cmd = encode .crcUpdate) := by
  obtain ⟨c, u, hcu, hcase⟩ := engineStep_cases s
  cases hcu.symm.trans h
  obtain ⟨_, _, rfl⟩ | ⟨_, _, _, rfl⟩ | ⟨hf, i, hd, _, he⟩ := hcase
  · exact absurd rfl hne
  · exact absurd rfl hne
  · obtain hsame | rfl | rfl := he.crcAcc
    · exact absurd hsame hne
    · exact ⟨hf, .inl (eq_encode_of_decode hd)⟩
    · exact ⟨hf, .inr (eq_encode_of_decode hd)⟩

/-- R293: a given turn other than the assertion of reset is the ENGINE's step, or it passes with the command still in
progress. -/
theorem exists_step_of_turn {s : State} {m : Turn} {ts : List Turn} (hb : s.busy = true) (hs : HostReady s)
    (hts : s.turns = m :: ts) (hm : .assertReset ≠ m) :
    ∃ t, step s = .next t ∧
      (engineStep { s with turns := restTurns s } = .next t ∨
        (t.busy = true ∧ HostReady t ∧ t.turns = ts ∧ t.cmdCount = s.cmdCount)) := by
  obtain ⟨t, hstep, ht⟩ := programsStayWellFormed s hs
  have hhead : s.turns.head? ≠ some .assertReset := by
    rw [hts, List.head?_cons, ne_eq, Option.some_inj]
    exact hm.symm
  refine ⟨t, hstep, (step_cases_of_busy hstep hb hhead).imp_right fun hwait => ⟨?_, ht, ?_, ?_⟩⟩
  · rw [hwait]; exact hb
  · rw [hwait, restTurns, hts, List.tail_cons]
  · rw [hwait]

end Sys2Proof.Machine

open Sys2Proof Sys2Proof.Machine Sys2Proof.Safety

/-- Settles O51: while busy only the ENGINE step changes CRC_ACC, and of the commands only those two. -/
theorem onlyCrcCommandsChangeCrcAcc : Obligations.OnlyCrcCommandsChangeCrcAcc := by
  intro s t h hb hn hne
  obtain hengine | hwait := step_cases_of_busy h hb hn
  · obtain ⟨hidle, _⟩ := engineStep_completes hengine
    exact ⟨hidle, engineStep_crcAcc (s := { s with turns := restTurns s }) hengine hne⟩
  · exact absurd (by rw [hwait]) hne

/-- Settles O56: by induction on the turns given: each is the ENGINE's step or passes, and after
the last of them the ENGINE moves. -/
theorem acceptedCommandCompletes : Obligations.AcceptedCommandCompletes := by
  intro s hb hs hn
  induction hts : s.turns generalizing s with
  | nil =>
    obtain ⟨t, hengine⟩ := engineStep_next s
    obtain ⟨hidle, hdone, hcount, _⟩ := engineStep_completes hengine
    have hstep : step s = .next t := by rw [step_default s hts, if_pos hb, hengine]
    exact ⟨1, t, Nat.le_refl 1, run_step hstep 0, hidle, hdone, hcount⟩
  | cons m ts ih =>
    rw [hts, List.mem_cons, not_or] at hn
    obtain ⟨hm, hrest⟩ := hn
    obtain ⟨t, hstep, hengine | ⟨hbusy, hready, hturns, hsame⟩⟩ := exists_step_of_turn hb hs hts hm
    · obtain ⟨hidle, hdone, hcount, _⟩ := engineStep_completes hengine
      exact ⟨1, t, Nat.le_add_left 1 _, run_step hstep 0, hidle, hdone, hcount⟩
    · obtain ⟨k, u, hk, hrun, hidle, hdone, hcount⟩ := ih t hbusy hready (hturns ▸ hrest) hturns
      exact ⟨k + 1, u, Nat.succ_le_succ hk, (run_step hstep k).trans hrun, hidle, hdone, hsame ▸ hcount⟩

/-- Settles O57: register by register, the byte strings by their words. -/
theorem resetLeavesTheResetState : Obligations.ResetLeavesTheResetState := by
  refine ⟨fun r => ?_, Config.kdfParamsValid_reset, zeroized_reset, rfl⟩
  cases r with
  | kdfCost k => match k with | 0 | 1 | 2 => rfl
  | nonceIn k | nonceOut k | saltIn k => exact wordAt_replicate_zero k.val
  | _ => rfl

/-- Settles O58: the two turns of the reset input, one after the other. -/
theorem resetAbandonsAndErases : Obligations.ResetAbandonsAndErases := by
  intro s ts
  refine ⟨assertReset { s with turns := ts }, rfl, rfl, rfl, ?_, ?_, rfl, rfl, rfl, rfl⟩
  · exact readReg_assertReset { s with turns := ts }
  · exact zeroized_assertReset { s with turns := ts }

/-- Settles O59: the reset state is where the invariant of O60 starts. -/
theorem invariantAtReset : Obligations.InvariantAtReset := inv_reset
end
